-- ==== Sys2Proof/Word.lean ====
section
/-! DEFINITION. The word types of MiniASM CORE and their plainest arithmetic (spec/00_scope.md R10, R11). -/

namespace Sys2Proof

/-- `u8`: an unsigned 8-bit value (R10). -/
abbrev Byte := BitVec 8

/-- `u16`: an unsigned 16-bit value (R10), the width of PC and of a jump target. -/
abbrev Word16 := BitVec 16

/-- `trunc8(n) = n mod 256`, in 0 to 255 also for negative `n` (R11). -/
def trunc8 (n : Int) : Byte := BitVec.ofInt 8 n

/-- `zext16(v)`: a `u8` widened to a `u16` with the same value (R11). -/
def zext16 (v : Byte) : Word16 := v.setWidth 16

end Sys2Proof
end

