-- ==== Sys2Proof/Config.lean ====
section
/-! DEFINITION. The implementation parameters of spec/00_scope.md R9. -/

namespace Sys2Proof

/-- `STACK_CAPACITY`: the stack buffer holds 255 bytes (R9, R33). -/
def Config.stackCapacity : Nat := 255

/-- `RAM_SIZE`: the backing array of RAM holds 65536 bytes (R9, R52). -/
def Config.ramSize : Nat := 65536

/-- How many RAM bytes instructions can address: `RAM_ADDR_WIDTH` is 8 bits (R9, R53). -/
def Config.ramAddressable : Nat := 256

/-- `ROM_MAX_LEN`: a program has at most 65535 entries (R9, R253). -/
def Config.romMaxLen : Nat := 65535

/-- `VIDEO_SIZE` is OPEN (R9, D25): a constant with no value that Lean can see.
DESIGN CHOICE (log entry 4), safe: nothing reads video memory. -/
opaque Config.videoSize : Nat

end Sys2Proof
end

