-- ==== Sys2Proof/Syntax.lean ====
section
/-! DEFINITION. What an instruction is: registers, operands, the errors, the textual instruction record, and the
instructions themselves, one constructor per row of spec/opcode_table.json. -/

namespace Sys2Proof

/-- The general registers A, X and Y (spec/10_state.md R20). -/
inductive Reg where
  | a
  | x
  | y
  deriving DecidableEq, Repr

/-- The two instruction front ends (spec/00_scope.md R7). -/
inductive FrontEnd where
  | binary
  | textual
  deriving DecidableEq, Repr

/-- A resolved operand in a location position: a register or an absolute 8-bit RAM address (R15, R110). -/
inductive Loc where
  | reg (r : Reg)
  | mem (a : Byte)
  deriving DecidableEq, Repr

/-- A resolved operand in a value position: a register, an immediate or a RAM address (R15, R110). -/
inductive Operand where
  | reg (r : Reg)
  | imm (v : Byte)
  | mem (a : Byte)
  deriving DecidableEq, Repr

/-- The eight errors of spec/60_exceptions.md R210. -/
inductive Error where
  /-- Code 1: a fetch at PC >= len, or an over-long image at load. -/
  | outOfRange
  /-- Code 2: PUSH with S = 255. -/
  | stackOverflow
  /-- Code 3: POP with S = 0. -/
  | stackUnderflow
  /-- Code 4: a token, or a line at load, of no recognised form. -/
  | invalidToken
  /-- Code 5: a valid token in a forbidden position, a register ID above 2, an extra operand. -/
  | invalidOperand
  /-- Code 6: two labels with one name, at load. -/
  | duplicateLabel
  /-- Code 7: a jump to a label that is not in the table. -/
  | undefinedLabel
  /-- Code 8: an unassigned opcode byte, an unknown mnemonic, `call` in text. -/
  | invalidOpcode
  deriving DecidableEq, Repr

/-- A token of assembly text. Tokens are lists of characters, so that classifying one is structural recursion. -/
abbrev Token := List Char

/-- The textual front end's instruction record: a pre-split `(mnemonic, param1, param2)` (R42, R105);
a missing operand is the empty token. -/
structure InstrRecord where
  mnemonic : Token
  param1 : Token
  param2 : Token
  deriving DecidableEq, Repr

/-- The eight operations of format DS (spec/30_encoding.md R84, R92). -/
inductive DsOp where
  | mov
  | add
  | sub
  | or
  | and
  | xor
  | shl
  | shr
  deriving DecidableEq, Repr

/-- The seven jump conditions of group 0xB (R92). -/
inductive Cond where
  | always
  | equal
  | notEqual
  | lower
  | lowerEqual
  | greater
  | greaterEqual
  deriving DecidableEq, Repr

/-- What decode hands to execute, in the spec's own shape `(operation, Operand, Operand?)` (R97, R117):
the instructions grouped by operation. -/
inductive Resolved where
  | ds (op : DsOp) (dst : Loc) (src : Operand)
  | cmp (u w : Operand)
  | push (src : Operand)
  | pop (dst : Loc)
  | jump (c : Cond) (t : Word16)
  | call (b : Byte)
  deriving DecidableEq, Repr

/-- The instructions: one constructor per row of spec/opcode_table.json, in its order. The capitals after the
operation's name are the operand kinds of R86 (R register, I immediate, M memory). A jump's target is a `u16`, as the
textual front end resolves a label to a full PC value (R114); the binary encoding holds a byte of it (R89; log entry 10). -/
inductive Instr where
  /-- 0x00 MOV -/
  | movRR (dst : Reg) (src : Reg)
  /-- 0x01 MOV -/
  | movRI (dst : Reg) (src : Byte)
  /-- 0x02 MOV -/
  | movRM (dst : Reg) (src : Byte)
  /-- 0x08 MOV -/
  | movMR (dst : Byte) (src : Reg)
  /-- 0x09 MOV -/
  | movMI (dst : Byte) (src : Byte)
  /-- 0x0A MOV -/
  | movMM (dst : Byte) (src : Byte)
  /-- 0x10 ADD -/
  | addRR (dst : Reg) (src : Reg)
  /-- 0x11 ADD -/
  | addRI (dst : Reg) (src : Byte)
  /-- 0x12 ADD -/
  | addRM (dst : Reg) (src : Byte)
  /-- 0x18 ADD -/
  | addMR (dst : Byte) (src : Reg)
  /-- 0x19 ADD -/
  | addMI (dst : Byte) (src : Byte)
  /-- 0x1A ADD -/
  | addMM (dst : Byte) (src : Byte)
  /-- 0x20 SUB -/
  | subRR (dst : Reg) (src : Reg)
  /-- 0x21 SUB -/
  | subRI (dst : Reg) (src : Byte)
  /-- 0x22 SUB -/
  | subRM (dst : Reg) (src : Byte)
  /-- 0x28 SUB -/
  | subMR (dst : Byte) (src : Reg)
  /-- 0x29 SUB -/
  | subMI (dst : Byte) (src : Byte)
  /-- 0x2A SUB -/
  | subMM (dst : Byte) (src : Byte)
  /-- 0x30 OR -/
  | orRR (dst : Reg) (src : Reg)
  /-- 0x31 OR -/
  | orRI (dst : Reg) (src : Byte)
  /-- 0x32 OR -/
  | orRM (dst : Reg) (src : Byte)
  /-- 0x38 OR -/
  | orMR (dst : Byte) (src : Reg)
  /-- 0x39 OR -/
  | orMI (dst : Byte) (src : Byte)
  /-- 0x3A OR -/
  | orMM (dst : Byte) (src : Byte)
  /-- 0x40 AND -/
  | andRR (dst : Reg) (src : Reg)
  /-- 0x41 AND -/
  | andRI (dst : Reg) (src : Byte)
  /-- 0x42 AND -/
  | andRM (dst : Reg) (src : Byte)
  /-- 0x48 AND -/
  | andMR (dst : Byte) (src : Reg)
  /-- 0x49 AND -/
  | andMI (dst : Byte) (src : Byte)
  /-- 0x4A AND -/
  | andMM (dst : Byte) (src : Byte)
  /-- 0x50 XOR -/
  | xorRR (dst : Reg) (src : Reg)
  /-- 0x51 XOR -/
  | xorRI (dst : Reg) (src : Byte)
  /-- 0x52 XOR -/
  | xorRM (dst : Reg) (src : Byte)
  /-- 0x58 XOR -/
  | xorMR (dst : Byte) (src : Reg)
  /-- 0x59 XOR -/
  | xorMI (dst : Byte) (src : Byte)
  /-- 0x5A XOR -/
  | xorMM (dst : Byte) (src : Byte)
  /-- 0x60 SHL -/
  | shlRR (dst : Reg) (src : Reg)
  /-- 0x61 SHL -/
  | shlRI (dst : Reg) (src : Byte)
  /-- 0x62 SHL -/
  | shlRM (dst : Reg) (src : Byte)
  /-- 0x68 SHL -/
  | shlMR (dst : Byte) (src : Reg)
  /-- 0x69 SHL -/
  | shlMI (dst : Byte) (src : Byte)
  /-- 0x6A SHL -/
  | shlMM (dst : Byte) (src : Byte)
  /-- 0x70 SHR -/
  | shrRR (dst : Reg) (src : Reg)
  /-- 0x71 SHR -/
  | shrRI (dst : Reg) (src : Byte)
  /-- 0x72 SHR -/
  | shrRM (dst : Reg) (src : Byte)
  /-- 0x78 SHR -/
  | shrMR (dst : Byte) (src : Reg)
  /-- 0x79 SHR -/
  | shrMI (dst : Byte) (src : Byte)
  /-- 0x7A SHR -/
  | shrMM (dst : Byte) (src : Byte)
  /-- 0x80 CMP -/
  | cmpRR (u : Reg) (w : Reg)
  /-- 0x81 CMP -/
  | cmpRI (u : Reg) (w : Byte)
  /-- 0x82 CMP -/
  | cmpRM (u : Reg) (w : Byte)
  /-- 0x84 CMP -/
  | cmpIR (u : Byte) (w : Reg)
  /-- 0x85 CMP -/
  | cmpII (u : Byte) (w : Byte)
  /-- 0x86 CMP -/
  | cmpIM (u : Byte) (w : Byte)
  /-- 0x88 CMP -/
  | cmpMR (u : Byte) (w : Reg)
  /-- 0x89 CMP -/
  | cmpMI (u : Byte) (w : Byte)
  /-- 0x8A CMP -/
  | cmpMM (u : Byte) (w : Byte)
  /-- 0x90 PUSH -/
  | pushR (src : Reg)
  /-- 0x94 PUSH -/
  | pushI (src : Byte)
  /-- 0x98 PUSH -/
  | pushM (src : Byte)
  /-- 0xA0 POP -/
  | popR (dst : Reg)
  /-- 0xA8 POP -/
  | popM (dst : Byte)
  /-- 0xB0 JMP -/
  | jmp (t : Word16)
  /-- 0xB1 JE -/
  | je (t : Word16)
  /-- 0xB2 JNE -/
  | jne (t : Word16)
  /-- 0xB3 JL -/
  | jl (t : Word16)
  /-- 0xB4 JLE -/
  | jle (t : Word16)
  /-- 0xB5 JG -/
  | jg (t : Word16)
  /-- 0xB6 JGE -/
  | jge (t : Word16)
  /-- 0xB7 CALL -/
  | call (b : Byte)
  deriving DecidableEq, Repr

end Sys2Proof
end

