-- ==== Sys2Proof/WellFormed.lean ====
section
/-! DEFINITION. Which instructions each front end can give (spec/30_encoding.md R89, R106, R114, R115). -/

namespace Sys2Proof

/-- A jump's target, if the instruction is a jump. -/
def Instr.target? : Instr → Option Word16
  | .movRR .. | .movRI .. | .movRM .. | .movMR .. | .movMI .. | .movMM .. | .addRR .. | .addRI .. | .addRM ..
  | .addMR .. | .addMI .. | .addMM .. | .subRR .. | .subRI .. | .subRM .. | .subMR .. | .subMI .. | .subMM ..
  | .orRR .. | .orRI .. | .orRM .. | .orMR .. | .orMI .. | .orMM .. | .andRR .. | .andRI .. | .andRM ..
  | .andMR .. | .andMI .. | .andMM .. | .xorRR .. | .xorRI .. | .xorRM .. | .xorMR .. | .xorMI .. | .xorMM ..
  | .shlRR .. | .shlRI .. | .shlRM .. | .shlMR .. | .shlMI .. | .shlMM .. | .shrRR .. | .shrRI .. | .shrRM ..
  | .shrMR .. | .shrMI .. | .shrMM .. | .cmpRR .. | .cmpRI .. | .cmpRM .. | .cmpIR .. | .cmpII .. | .cmpIM ..
  | .cmpMR .. | .cmpMI .. | .cmpMM .. | .pushR .. | .pushI .. | .pushM .. | .popR .. | .popM .. | .call .. => none
  | .jmp t | .je t | .jne t | .jl t | .jle t | .jg t | .jge t => some t

/-- CALL exists in the binary front end only (R115, R197). -/
def Instr.isCall : Instr → Bool
  | .movRR .. | .movRI .. | .movRM .. | .movMR .. | .movMI .. | .movMM .. | .addRR .. | .addRI .. | .addRM ..
  | .addMR .. | .addMI .. | .addMM .. | .subRR .. | .subRI .. | .subRM .. | .subMR .. | .subMI .. | .subMM ..
  | .orRR .. | .orRI .. | .orRM .. | .orMR .. | .orMI .. | .orMM .. | .andRR .. | .andRI .. | .andRM ..
  | .andMR .. | .andMI .. | .andMM .. | .xorRR .. | .xorRI .. | .xorRM .. | .xorMR .. | .xorMI .. | .xorMM ..
  | .shlRR .. | .shlRI .. | .shlRM .. | .shlMR .. | .shlMI .. | .shlMM .. | .shrRR .. | .shrRI .. | .shrRM ..
  | .shrMR .. | .shrMI .. | .shrMM .. | .cmpRR .. | .cmpRI .. | .cmpRM .. | .cmpIR .. | .cmpII .. | .cmpIM ..
  | .cmpMR .. | .cmpMI .. | .cmpMM .. | .pushR .. | .pushI .. | .pushM .. | .popR .. | .popM .. | .jmp ..
  | .je .. | .jne .. | .jl .. | .jle .. | .jg .. | .jge .. => false
  | .call _ => true

/-- What a front end's decoder can give: in binary a jump target is one zero-extended byte (R89); in text there is no
`call` (R115). Every other instruction is well formed in both: its operands are bytes and register names. -/
def Instr.wf (fe : FrontEnd) (i : Instr) : Bool :=
  match fe with
  | .binary => i.target?.all fun t => decide (t.toNat < 256)
  | .textual => !i.isCall

end Sys2Proof
end

