-- ==== Sys2Proof/Decode.lean ====
section
/-! DEFINITION. The binary encoding (spec/30_encoding.md R80 to R98): the opcode map, the operand bytes, a decoder that
is total on any bytes and rejects by the spec's error names, and the encoder. -/

namespace Sys2Proof

/-! ### Operations and resolved operands -/

/-- The kinds an opcode byte can give a value position (R86): 00, 01, 10. -/
inductive Kind where
  | reg
  | imm
  | mem
  deriving DecidableEq, Repr

/-- The kinds an opcode byte can give a location position (R88): 00, 10. -/
inductive LocKind where
  | reg
  | mem
  deriving DecidableEq, Repr

/-- What an assigned opcode byte says: the operation and the kinds of its operands (R83, R93). -/
inductive Opcode where
  | ds (op : DsOp) (k1 : LocKind) (k2 : Kind)
  | cmp (k1 k2 : Kind)
  | push (k : Kind)
  | pop (k : LocKind)
  | jump (c : Cond)
  | call
  deriving DecidableEq, Repr

/-- The instruction of a DS operation with resolved operands (R84, R119). -/
def Instr.ds : DsOp → Loc → Operand → Instr
  | .mov, .reg d, .reg r => .movRR d r
  | .mov, .reg d, .imm v => .movRI d v
  | .mov, .reg d, .mem a => .movRM d a
  | .mov, .mem d, .reg r => .movMR d r
  | .mov, .mem d, .imm v => .movMI d v
  | .mov, .mem d, .mem a => .movMM d a
  | .add, .reg d, .reg r => .addRR d r
  | .add, .reg d, .imm v => .addRI d v
  | .add, .reg d, .mem a => .addRM d a
  | .add, .mem d, .reg r => .addMR d r
  | .add, .mem d, .imm v => .addMI d v
  | .add, .mem d, .mem a => .addMM d a
  | .sub, .reg d, .reg r => .subRR d r
  | .sub, .reg d, .imm v => .subRI d v
  | .sub, .reg d, .mem a => .subRM d a
  | .sub, .mem d, .reg r => .subMR d r
  | .sub, .mem d, .imm v => .subMI d v
  | .sub, .mem d, .mem a => .subMM d a
  | .or, .reg d, .reg r => .orRR d r
  | .or, .reg d, .imm v => .orRI d v
  | .or, .reg d, .mem a => .orRM d a
  | .or, .mem d, .reg r => .orMR d r
  | .or, .mem d, .imm v => .orMI d v
  | .or, .mem d, .mem a => .orMM d a
  | .and, .reg d, .reg r => .andRR d r
  | .and, .reg d, .imm v => .andRI d v
  | .and, .reg d, .mem a => .andRM d a
  | .and, .mem d, .reg r => .andMR d r
  | .and, .mem d, .imm v => .andMI d v
  | .and, .mem d, .mem a => .andMM d a
  | .xor, .reg d, .reg r => .xorRR d r
  | .xor, .reg d, .imm v => .xorRI d v
  | .xor, .reg d, .mem a => .xorRM d a
  | .xor, .mem d, .reg r => .xorMR d r
  | .xor, .mem d, .imm v => .xorMI d v
  | .xor, .mem d, .mem a => .xorMM d a
  | .shl, .reg d, .reg r => .shlRR d r
  | .shl, .reg d, .imm v => .shlRI d v
  | .shl, .reg d, .mem a => .shlRM d a
  | .shl, .mem d, .reg r => .shlMR d r
  | .shl, .mem d, .imm v => .shlMI d v
  | .shl, .mem d, .mem a => .shlMM d a
  | .shr, .reg d, .reg r => .shrRR d r
  | .shr, .reg d, .imm v => .shrRI d v
  | .shr, .reg d, .mem a => .shrRM d a
  | .shr, .mem d, .reg r => .shrMR d r
  | .shr, .mem d, .imm v => .shrMI d v
  | .shr, .mem d, .mem a => .shrMM d a

/-- The instruction of CMP with resolved operands (R170). -/
def Instr.cmp : Operand → Operand → Instr
  | .reg u, .reg w => .cmpRR u w
  | .reg u, .imm w => .cmpRI u w
  | .reg u, .mem w => .cmpRM u w
  | .imm u, .reg w => .cmpIR u w
  | .imm u, .imm w => .cmpII u w
  | .imm u, .mem w => .cmpIM u w
  | .mem u, .reg w => .cmpMR u w
  | .mem u, .imm w => .cmpMI u w
  | .mem u, .mem w => .cmpMM u w

/-- The instruction of PUSH with a resolved operand (R180). -/
def Instr.push : Operand → Instr
  | .reg r => .pushR r
  | .imm v => .pushI v
  | .mem a => .pushM a

/-- The instruction of POP with a resolved operand (R181). -/
def Instr.pop : Loc → Instr
  | .reg r => .popR r
  | .mem a => .popM a

/-- The jump of a condition to a resolved target (R190 to R196). -/
def Instr.jump : Cond → Word16 → Instr
  | .always, t => .jmp t
  | .equal, t => .je t
  | .notEqual, t => .jne t
  | .lower, t => .jl t
  | .lowerEqual, t => .jle t
  | .greater, t => .jg t
  | .greaterEqual, t => .jge t

/-- The instruction that decode hands to execute (R97, R117). -/
def Instr.ofResolved : Resolved → Instr
  | .ds op dst src => .ds op dst src
  | .cmp u w => .cmp u w
  | .push src => .push src
  | .pop dst => .pop dst
  | .jump c t => .jump c t
  | .call b => .call b

/-- An instruction as operation and resolved operands: the inverse of `Instr.ofResolved`. -/
def Instr.resolved : Instr → Resolved
  | .movRR d q => .ds .mov (.reg d) (.reg q)
  | .movRI d q => .ds .mov (.reg d) (.imm q)
  | .movRM d q => .ds .mov (.reg d) (.mem q)
  | .movMR d q => .ds .mov (.mem d) (.reg q)
  | .movMI d q => .ds .mov (.mem d) (.imm q)
  | .movMM d q => .ds .mov (.mem d) (.mem q)
  | .addRR d q => .ds .add (.reg d) (.reg q)
  | .addRI d q => .ds .add (.reg d) (.imm q)
  | .addRM d q => .ds .add (.reg d) (.mem q)
  | .addMR d q => .ds .add (.mem d) (.reg q)
  | .addMI d q => .ds .add (.mem d) (.imm q)
  | .addMM d q => .ds .add (.mem d) (.mem q)
  | .subRR d q => .ds .sub (.reg d) (.reg q)
  | .subRI d q => .ds .sub (.reg d) (.imm q)
  | .subRM d q => .ds .sub (.reg d) (.mem q)
  | .subMR d q => .ds .sub (.mem d) (.reg q)
  | .subMI d q => .ds .sub (.mem d) (.imm q)
  | .subMM d q => .ds .sub (.mem d) (.mem q)
  | .orRR d q => .ds .or (.reg d) (.reg q)
  | .orRI d q => .ds .or (.reg d) (.imm q)
  | .orRM d q => .ds .or (.reg d) (.mem q)
  | .orMR d q => .ds .or (.mem d) (.reg q)
  | .orMI d q => .ds .or (.mem d) (.imm q)
  | .orMM d q => .ds .or (.mem d) (.mem q)
  | .andRR d q => .ds .and (.reg d) (.reg q)
  | .andRI d q => .ds .and (.reg d) (.imm q)
  | .andRM d q => .ds .and (.reg d) (.mem q)
  | .andMR d q => .ds .and (.mem d) (.reg q)
  | .andMI d q => .ds .and (.mem d) (.imm q)
  | .andMM d q => .ds .and (.mem d) (.mem q)
  | .xorRR d q => .ds .xor (.reg d) (.reg q)
  | .xorRI d q => .ds .xor (.reg d) (.imm q)
  | .xorRM d q => .ds .xor (.reg d) (.mem q)
  | .xorMR d q => .ds .xor (.mem d) (.reg q)
  | .xorMI d q => .ds .xor (.mem d) (.imm q)
  | .xorMM d q => .ds .xor (.mem d) (.mem q)
  | .shlRR d q => .ds .shl (.reg d) (.reg q)
  | .shlRI d q => .ds .shl (.reg d) (.imm q)
  | .shlRM d q => .ds .shl (.reg d) (.mem q)
  | .shlMR d q => .ds .shl (.mem d) (.reg q)
  | .shlMI d q => .ds .shl (.mem d) (.imm q)
  | .shlMM d q => .ds .shl (.mem d) (.mem q)
  | .shrRR d q => .ds .shr (.reg d) (.reg q)
  | .shrRI d q => .ds .shr (.reg d) (.imm q)
  | .shrRM d q => .ds .shr (.reg d) (.mem q)
  | .shrMR d q => .ds .shr (.mem d) (.reg q)
  | .shrMI d q => .ds .shr (.mem d) (.imm q)
  | .shrMM d q => .ds .shr (.mem d) (.mem q)
  | .cmpRR u w => .cmp (.reg u) (.reg w)
  | .cmpRI u w => .cmp (.reg u) (.imm w)
  | .cmpRM u w => .cmp (.reg u) (.mem w)
  | .cmpIR u w => .cmp (.imm u) (.reg w)
  | .cmpII u w => .cmp (.imm u) (.imm w)
  | .cmpIM u w => .cmp (.imm u) (.mem w)
  | .cmpMR u w => .cmp (.mem u) (.reg w)
  | .cmpMI u w => .cmp (.mem u) (.imm w)
  | .cmpMM u w => .cmp (.mem u) (.mem w)
  | .pushR q => .push (.reg q)
  | .pushI q => .push (.imm q)
  | .pushM q => .push (.mem q)
  | .popR d => .pop (.reg d)
  | .popM d => .pop (.mem d)
  | .jmp t => .jump .always t
  | .je t => .jump .equal t
  | .jne t => .jump .notEqual t
  | .jl t => .jump .lower t
  | .jle t => .jump .lowerEqual t
  | .jg t => .jump .greater t
  | .jge t => .jump .greaterEqual t
  | .call b => .call b

/-! ### Field codes, shared by decoder and encoder -/

/-- The group number `G` of a DS operation (R92). -/
def DsOp.group : DsOp → Nat
  | .mov => 0x0
  | .add => 0x1
  | .sub => 0x2
  | .or => 0x3
  | .and => 0x4
  | .xor => 0x5
  | .shl => 0x6
  | .shr => 0x7

/-- The DS operation of a group number (R92). -/
def DsOp.ofGroup? : Nat → Option DsOp
  | 0x0 => some .mov
  | 0x1 => some .add
  | 0x2 => some .sub
  | 0x3 => some .or
  | 0x4 => some .and
  | 0x5 => some .xor
  | 0x6 => some .shl
  | 0x7 => some .shr
  | _ => none

/-- The condition field `C` of a jump (R92). -/
def Cond.code : Cond → Nat
  | .always => 0
  | .equal => 1
  | .notEqual => 2
  | .lower => 3
  | .lowerEqual => 4
  | .greater => 5
  | .greaterEqual => 6

/-- The jump condition of a condition field; 7 is CALL's (R92). -/
def Cond.ofCode? : Nat → Option Cond
  | 0 => some .always
  | 1 => some .equal
  | 2 => some .notEqual
  | 3 => some .lower
  | 4 => some .lowerEqual
  | 5 => some .greater
  | 6 => some .greaterEqual
  | _ => none

/-- Kind bits of a value position (R86). -/
def Kind.bits : Kind → Nat
  | .reg => 0b00
  | .imm => 0b01
  | .mem => 0b10

/-- The value-position kind of two bits; 11 is reserved (R86). -/
def Kind.ofBits? : Nat → Option Kind
  | 0b00 => some .reg
  | 0b01 => some .imm
  | 0b10 => some .mem
  | _ => none

/-- Kind bits of a location position (R86, R88). -/
def LocKind.bits : LocKind → Nat
  | .reg => 0b00
  | .mem => 0b10

/-- The location-position kind of two bits: an immediate destination is not assigned (R88). -/
def LocKind.ofBits? : Nat → Option LocKind
  | 0b00 => some .reg
  | 0b10 => some .mem
  | _ => none

/-- The register ID of an operand byte (R87). -/
def Reg.id : Reg → Byte
  | .a => 0x00
  | .x => 0x01
  | .y => 0x02

/-- The register an operand byte names; 0x03 to 0xFF name none (R87). -/
def Reg.ofId? (b : Byte) : Option Reg :=
  if b = 0x00 then some .a else if b = 0x01 then some .x else if b = 0x02 then some .y else none

/-! ### The opcode map -/

/-- The opcode map on the fields `G`, `K1`, `K2` of an opcode byte (R83, R92, R93). -/
def opcodeOfFields (g k1 k2 : Nat) : Option Opcode :=
  match g with
  | 0x8 => do
    let a ← Kind.ofBits? k1
    let b ← Kind.ofBits? k2
    return .cmp a b
  | 0x9 => if k2 = 0 then (Kind.ofBits? k1).map .push else none
  | 0xA => if k2 = 0 then (LocKind.ofBits? k1).map .pop else none
  | 0xB =>
    let low := 4 * k1 + k2
    if low = 7 then some .call else (Cond.ofCode? low).map .jump
  | _ => do
    let op ← DsOp.ofGroup? g
    let a ← LocKind.ofBits? k1
    let b ← Kind.ofBits? k2
    return .ds op a b

/-- The opcode map: what an opcode byte `G[7:4] K1[3:2] K2[1:0]` says, none where it is unassigned (R83, R93, R94). -/
def opcode? (op : Byte) : Option Opcode :=
  opcodeOfFields (op.toNat / 16) (op.toNat / 4 % 4) (op.toNat % 4)

/-- The instruction length in bytes, from the opcode byte alone (R85). -/
def Opcode.size : Opcode → Nat
  | .ds .. => 3
  | .cmp .. => 3
  | .push _ => 2
  | .pop _ => 2
  | .jump _ => 2
  | .call => 2

/-! ### Operand bytes -/

/-- `resolve_binary` in a value position (R98): InvalidOperand for a register ID above 2. -/
def resolveBinary (k : Kind) (b : Byte) : Except Error Operand :=
  match k with
  | .reg =>
    match Reg.ofId? b with
    | some r => .ok (.reg r)
    | none => .error .invalidOperand
  | .imm => .ok (.imm b)
  | .mem => .ok (.mem b)

/-- `resolve_binary` in a location position (R88, R98). -/
def resolveBinaryLoc (k : LocKind) (b : Byte) : Except Error Loc :=
  match k with
  | .reg =>
    match Reg.ofId? b with
    | some r => .ok (.reg r)
    | none => .error .invalidOperand
  | .mem => .ok (.mem b)

/-- The last part of `decode_binary` (R97): operand 1 is resolved before operand 2. A two-byte instruction has no second
operand byte and does not look at `b2`. -/
def resolveOperands (o : Opcode) (b1 b2 : Byte) : Except Error Instr :=
  match o with
  | .ds op k1 k2 => do
    let dst ← resolveBinaryLoc k1 b1
    let src ← resolveBinary k2 b2
    return .ds op dst src
  | .cmp k1 k2 => do
    let u ← resolveBinary k1 b1
    let w ← resolveBinary k2 b2
    return .cmp u w
  | .push k => do
    let src ← resolveBinary k b1
    return .push src
  | .pop k => do
    let dst ← resolveBinaryLoc k b1
    return .pop dst
  | .jump c => return .jump c (zext16 b1)
  | .call => return .call b1

/-! ### The decoder -/

/-- What decoding a byte sequence gives: an instruction and its length, or an error and how many bytes were fetched
before it was raised, which is how far PC has moved (R97, R99). -/
inductive Decoded where
  | instr (i : Instr) (size : Nat)
  | error (e : Error) (fetched : Nat)
  deriving DecidableEq, Repr

/-- Decode the instruction at the front of the bytes that ROM holds from PC on. Every operand byte is fetched before any
operand is resolved (R97), and an error says how many bytes were fetched (R99). `Machine/Fetch.lean` writes the same decode
with the spec's `Fetch()`. -/
def decode : List Byte → Decoded
  | [] => .error .outOfRange 0
  | op :: operands =>
    match opcode? op with
    | none => .error .invalidOpcode 1
    | some o =>
      if operands.length + 1 < o.size then .error .outOfRange (operands.length + 1)
      else
        match resolveOperands o (operands.getD 0 0) (operands.getD 1 0) with
        | .ok i => .instr i o.size
        | .error e => .error e o.size

/-- The three bytes of the host's word, bit 0 the least significant bit of the first byte, the bits from `nbits` up zero:
ROM byte i is the i-th byte of the image (R59). -/
def wordBytes (nbits w : Nat) : List Byte :=
  let v := w % 2 ^ nbits
  [BitVec.ofNat 8 v, BitVec.ofNat 8 (v / 256), BitVec.ofNat 8 (v / 65536)]

/-- The instruction the decoder reads from a word of spec/opcode_table.json, none where it refuses. -/
def decodeTableWord (nbits w : Nat) : Option Instr :=
  match decode (wordBytes nbits w) with
  | .instr i _ => some i
  | .error _ _ => none

/-! ### The encoder -/

/-- Kind bits of a resolved location (R86). -/
def Loc.kind : Loc → LocKind
  | .reg _ => .reg
  | .mem _ => .mem

/-- The operand byte of a resolved location (R86, R87). -/
def Loc.byte : Loc → Byte
  | .reg r => r.id
  | .mem a => a

/-- Kind of a resolved value operand (R86). -/
def Operand.kind : Operand → Kind
  | .reg _ => .reg
  | .imm _ => .imm
  | .mem _ => .mem

/-- The operand byte of a resolved value operand (R86, R87). -/
def Operand.byte : Operand → Byte
  | .reg r => r.id
  | .imm v => v
  | .mem a => a

/-- The opcode byte of format DS, VV or O1: `gggg kk kk` (R84). -/
def opcodeByte (g k1 k2 : Nat) : Byte := BitVec.ofNat 8 (16 * g + 4 * k1 + k2)

/-- The bytes of a resolved instruction (R84, R86, R92). -/
def encodeResolved : Resolved → List Byte
  | .ds op dst src => [opcodeByte op.group dst.kind.bits src.kind.bits, dst.byte, src.byte]
  | .cmp u w => [opcodeByte 0x8 u.kind.bits w.kind.bits, u.byte, w.byte]
  | .push src => [opcodeByte 0x9 src.kind.bits 0, src.byte]
  | .pop dst => [opcodeByte 0xA dst.kind.bits 0, dst.byte]
  | .jump c t => [BitVec.ofNat 8 (0xB0 + c.code), t.setWidth 8]
  | .call b => [0xB7, b]

/-- The bytes of an instruction. A jump's target keeps its low byte, so the bytes stand for the instruction only where
`Instr.wf .binary` holds (R89). -/
def encode (i : Instr) : List Byte := encodeResolved i.resolved

end Sys2Proof
end

