-- ==== Sys2Proof/Machine/State.lean ====
section
/-! DEFINITION. The complete state of one instance (spec/10_state.md R42), the reasons a step can stop, and the state of a
new instance (R40, R251). -/

namespace Sys2Proof.Machine

/-- A byte store as a list of (address, byte) pairs in one canonical form: addresses strictly rising, no entry equal to
what an unlisted address reads as (`Memory.wf`). RAM, the stack buffer and video memory are held so (log entry 3). -/
abbrev Memory := List Host.Cell

/-- The program store (R42, R50). Its constructor IS `FRONTEND`, and its length IS `len` (R37; log entry 2). -/
inductive Rom where
  /-- Binary front end: an array of bytes. -/
  | binary (bytes : List Byte)
  /-- Textual front end: an array of instruction records. -/
  | textual (records : List InstrRecord)
  deriving DecidableEq, Repr

/-- The jump-label table (R35): lower-cased identifier to PC value, in the order of definition. -/
abbrev LabelTable := List (Token × Word16)

/-- What a `step` returns to the host (R234). -/
inductive StepResult where
  /-- No step has returned since the last reset. -/
  | none
  /-- `Ok(PC)`: the updated PC. -/
  | ok (pc : Word16)
  /-- `Err(e)`. -/
  | err (e : Error)
  deriving DecidableEq, Repr

/-- The state of one instance (R42). -/
structure State where
  /-- General register A (R20). -/
  a : Byte
  /-- General register X (R20). -/
  x : Byte
  /-- General register Y (R20). -/
  y : Byte
  /-- The status register P (R22), laid out as R24 says; its fields are read in Machine/Flags.lean. -/
  p : Byte
  /-- The program counter PC (R28): a byte index (binary) or a record index (textual). -/
  pc : Word16
  /-- The stack pointer S (R32): the index of the next free slot. -/
  sp : Byte
  /-- The stack buffer `stk` (R33): bytes 0 to 254. -/
  stk : Memory
  /-- RAM (R52): bytes 0 to 65535, of which instructions reach 0 to 255 (R53). -/
  ram : Memory
  /-- Video memory (R56): `Config.videoSize` inert bytes. -/
  video : Memory
  /-- ROM, `len` and `FRONTEND` (R37, R50). -/
  rom : Rom
  /-- The jump-label table (R35). -/
  labels : LabelTable
  /-- The MODEL's own field, not the spec's: what the last step returned (R234). Every step overwrites it, nothing reads it.
  DESIGN CHOICE (log entry 13). -/
  stepResult : StepResult
  deriving DecidableEq, Repr

/-- Why a step would stop the machine. There is NO such reason: the spec gives each of its eight errors the whole of its effect
(what is written, where PC is, what the host gets: R99, R118, R119, R210, R220) and lets a later step run from the state it leaves
(R222, R223), so an error is a next state whose `stepResult` is `err e`. DEDUCED (log entry 1). -/
inductive Fault
  deriving DecidableEq, Repr

/-- Why the model would have no meaning for an instruction. -/
inductive Refusal where
  /-- Raised only by an arm of exec whose instruction has no meaning yet; safe. No arm is left so. -/
  | notModelled (mnemonic : String)
  deriving DecidableEq, Repr

/-- The outcome of one step. -/
abbrev Result := Host.Outcome State Fault Refusal

/-- A newly created instance (R251): the reset values of R40, an empty program, the binary front end. -/
def State.reset : State where
  a := 0x00
  x := 0x00
  y := 0x00
  p := 0x00
  pc := 0x0000
  sp := 0
  stk := []
  ram := []
  video := []
  rom := .binary []
  labels := []
  stepResult := .none

end Sys2Proof.Machine
end

