-- ==== Sys2Proof/Machine/Ops.lean ====
section
/-! DEFINITION. The named operations over registers, memory, the stack and PC, raising an error, and ending an instruction. -/

namespace Sys2Proof.Machine

/-! ### Byte stores -/

/-- What an address with no entry reads as: RAM, the stack buffer and video memory are zero at reset (R40). -/
def Memory.unlisted : Byte := 0x00

/-- The canonical form: addresses strictly rising, no entry that reads as an unlisted address does. -/
abbrev Memory.wf (m : Memory) : Prop :=
  m.Pairwise (fun c d => c.1 < d.1) ∧ ∀ c ∈ m, c.2 ≠ Memory.unlisted

/-- The byte at an address. -/
def Memory.read : Memory → Nat → Byte
  | [], _ => Memory.unlisted
  | (k, v) :: m, addr => if k = addr then v else Memory.read m addr

/-- Without the entries of an address. -/
def Memory.erase : Memory → Nat → Memory
  | [], _ => []
  | (k, v) :: m, addr => if k = addr then Memory.erase m addr else (k, v) :: Memory.erase m addr

/-- With an entry put before the first higher address. -/
def Memory.insert : Memory → Nat → Byte → Memory
  | [], addr, b => [(addr, b)]
  | (k, v) :: m, addr, b => if addr < k then (addr, b) :: (k, v) :: m else (k, v) :: Memory.insert m addr b

/-- Store a byte, keeping the canonical form. -/
def Memory.write (m : Memory) (addr : Nat) (b : Byte) : Memory :=
  if b = Memory.unlisted then m.erase addr else (m.erase addr).insert addr b

/-! ### The program store and the front end -/

/-- `FRONTEND` (R37). -/
def Rom.frontEnd : Rom → FrontEnd
  | .binary _ => .binary
  | .textual _ => .textual

/-- `len`: the number of ROM entries (R37, R50). -/
def Rom.len : Rom → Nat
  | .binary bytes => bytes.length
  | .textual records => records.length

/-- `FRONTEND` of the loaded program (R37). -/
def State.frontEnd (s : State) : FrontEnd := s.rom.frontEnd

/-- `len` of the loaded program (R37). -/
def State.len (s : State) : Nat := s.rom.len

/-! ### Fields -/

/-- `pc <- t` (R12). -/
def State.setPc (s : State) (t : Word16) : State := { s with pc := t }

/-- `P <- v` (R12). -/
def State.setP (s : State) (v : Byte) : State := { s with p := v }

/-- The value the step returns to the host (R234). -/
def State.setResult (s : State) (r : StepResult) : State := { s with stepResult := r }

/-- `x[r]` (R12, R20). -/
def State.reg (s : State) : Reg → Byte
  | .a => s.a
  | .x => s.x
  | .y => s.y

/-- `x[r] <- v` (R12, R21). -/
def State.setReg (s : State) (r : Reg) (v : Byte) : State :=
  match r with
  | .a => { s with a := v }
  | .x => { s with x := v }
  | .y => { s with y := v }

/-! ### RAM -/

/-- The RAM index of an operand's address byte: the byte, zero-extended (R54, R91). -/
def ramIndex (addr : Byte) : Nat := (zext16 addr).toNat

/-- `MemRead(addr, 1)` (R54); it raises nothing and has no side effect (R55). -/
def memRead (s : State) (addr : Byte) : Byte := s.ram.read (ramIndex addr)

/-- `MemWrite(addr, 1, v)` (R54). -/
def memWrite (s : State) (addr : Byte) (v : Byte) : State := { s with ram := s.ram.write (ramIndex addr) v }

/-! ### The stack -/

/-- `StackPush(v)` (R61): StackOverflow at S = 255, with nothing written. -/
def stackPush (v : Byte) (s : State) : Except Error State :=
  if s.sp.toNat = Config.stackCapacity then .error .stackOverflow
  else .ok { s with stk := s.stk.write s.sp.toNat v, sp := s.sp + 1 }

/-- `StackPop()` (R62): StackUnderflow at S = 0, with nothing written. The popped slot keeps its byte (R181). -/
def stackPop (s : State) : Except Error (Byte × State) :=
  if s.sp.toNat = 0 then .error .stackUnderflow
  else .ok (s.stk.read (s.sp - 1).toNat, { s with sp := s.sp - 1 })

/-! ### Ending a step -/

/-- `advance()` (R16): in the binary front end Fetch has already moved PC; in the textual front end `pc <- PC + 1`. -/
def advance (s : State) : State :=
  match s.frontEnd with
  | .binary => s
  | .textual => s.setPc (s.pc + 1)

/-- The end of a step that raised nothing: it returns `Ok(PC)`, the updated PC (R119, R234). -/
def retire (s : State) : Result := .next (s.setResult (.ok s.pc))

/-- `raise e` (R14), the block's one way of taking an exception: it does not vector, saves nothing, changes no mode and masks
nothing; the step ends here and returns `Err(e)`, and the state is kept as the step has left it (R220). There is no return from it:
the host calls `step` again, which runs from this state (R222). -/
def raiseError (e : Error) (s : State) : Result := .next (s.setResult (.err e))

end Sys2Proof.Machine
end

