-- ==== Sys2Proof/Machine/Operands.lean ====
section
/-! DEFINITION. Reading and writing resolved operands (spec/00_scope.md R15, spec/30_encoding.md R121): every operand form. -/

namespace Sys2Proof.Machine

/-- `value(o)` (R15): it writes nothing, and no operand modifies a register as a side effect (R91). -/
def operandValue (o : Operand) (s : State) : Byte :=
  match o with
  | .reg r => s.reg r
  | .imm v => v
  | .mem addr => memRead s addr

/-- `value(o)` of an operand in a location position, which the ALU operations read before they write it (R150). -/
def locValue (l : Loc) (s : State) : Byte :=
  match l with
  | .reg r => s.reg r
  | .mem addr => memRead s addr

/-- The RAM index a location stores to, none for a register (R15, R54). -/
def locAddress? (l : Loc) : Option Nat :=
  match l with
  | .reg _ => none
  | .mem addr => some (ramIndex addr)

/-- `write(o, v)` (R15). -/
def locWrite (l : Loc) (v : Byte) (s : State) : State :=
  match l with
  | .reg r => s.setReg r v
  | .mem addr => memWrite s addr v

end Sys2Proof.Machine
end

