-- ==== Sys2Proof/Machine/Alu.lean ====
section
/-! DEFINITION. ADD, SUB, OR, AND, XOR, SHL and SHR (spec/41_alu.md R150 to R158): one meaning per row of the opcode table, over
one shared operation. -/

namespace Sys2Proof.Machine

/-- ADD of two bytes: 8-bit modular addition (R151). -/
def addByte (d s : Byte) : Byte := trunc8 (d.toNat + s.toNat)

/-- SUB of two bytes: 8-bit modular subtraction; no borrow is recorded (R152). -/
def subByte (d s : Byte) : Byte := trunc8 ((d.toNat : Int) - (s.toNat : Int))

/-- OR of two bytes: bitwise inclusive OR (R153). -/
def orByte (d s : Byte) : Byte := d ||| s

/-- AND of two bytes: bitwise AND (R154). -/
def andByte (d s : Byte) : Byte := d &&& s

/-- XOR of two bytes: bitwise exclusive OR (R155). -/
def xorByte (d s : Byte) : Byte := d ^^^ s

/-- SHL of two bytes: logical shift left of the integer, then trunc8: 0 for every amount of 8 or more (R156, R158). -/
def shlByte (d s : Byte) : Byte := trunc8 ((d.toNat <<< s.toNat : Nat) : Int)

/-- SHR of two bytes: logical shift right: zeros fill from the top, 0 for every amount of 8 or more (R157, R158). -/
def shrByte (d s : Byte) : Byte := trunc8 ((d.toNat >>> s.toNat : Nat) : Int)

/-- The common rule (R150): both operands are read, then `dst := dst <op> src`. No flag is written and execute raises nothing. -/
def aluOp (f : Byte → Byte → Byte) (dst : Loc) (src : Operand) (s : State) : Result :=
  retire (advance (locWrite dst (f (locValue dst s) (operandValue src s)) s))

/-- 0x10: ADD register, register (R151). -/
def execAddRR (dst : Reg) (src : Reg) (s : State) : Result :=
  aluOp addByte (.reg dst) (.reg src) s

/-- 0x11: ADD register, immediate (R151). -/
def execAddRI (dst : Reg) (src : Byte) (s : State) : Result :=
  aluOp addByte (.reg dst) (.imm src) s

/-- 0x12: ADD register, memory (R151). -/
def execAddRM (dst : Reg) (src : Byte) (s : State) : Result :=
  aluOp addByte (.reg dst) (.mem src) s

/-- 0x18: ADD memory, register (R151). -/
def execAddMR (dst : Byte) (src : Reg) (s : State) : Result :=
  aluOp addByte (.mem dst) (.reg src) s

/-- 0x19: ADD memory, immediate (R151). -/
def execAddMI (dst : Byte) (src : Byte) (s : State) : Result :=
  aluOp addByte (.mem dst) (.imm src) s

/-- 0x1A: ADD memory, memory (R151). -/
def execAddMM (dst : Byte) (src : Byte) (s : State) : Result :=
  aluOp addByte (.mem dst) (.mem src) s

/-- 0x20: SUB register, register (R152). -/
def execSubRR (dst : Reg) (src : Reg) (s : State) : Result :=
  aluOp subByte (.reg dst) (.reg src) s

/-- 0x21: SUB register, immediate (R152). -/
def execSubRI (dst : Reg) (src : Byte) (s : State) : Result :=
  aluOp subByte (.reg dst) (.imm src) s

/-- 0x22: SUB register, memory (R152). -/
def execSubRM (dst : Reg) (src : Byte) (s : State) : Result :=
  aluOp subByte (.reg dst) (.mem src) s

/-- 0x28: SUB memory, register (R152). -/
def execSubMR (dst : Byte) (src : Reg) (s : State) : Result :=
  aluOp subByte (.mem dst) (.reg src) s

/-- 0x29: SUB memory, immediate (R152). -/
def execSubMI (dst : Byte) (src : Byte) (s : State) : Result :=
  aluOp subByte (.mem dst) (.imm src) s

/-- 0x2A: SUB memory, memory (R152). -/
def execSubMM (dst : Byte) (src : Byte) (s : State) : Result :=
  aluOp subByte (.mem dst) (.mem src) s

/-- 0x30: OR register, register (R153). -/
def execOrRR (dst : Reg) (src : Reg) (s : State) : Result :=
  aluOp orByte (.reg dst) (.reg src) s

/-- 0x31: OR register, immediate (R153). -/
def execOrRI (dst : Reg) (src : Byte) (s : State) : Result :=
  aluOp orByte (.reg dst) (.imm src) s

/-- 0x32: OR register, memory (R153). -/
def execOrRM (dst : Reg) (src : Byte) (s : State) : Result :=
  aluOp orByte (.reg dst) (.mem src) s

/-- 0x38: OR memory, register (R153). -/
def execOrMR (dst : Byte) (src : Reg) (s : State) : Result :=
  aluOp orByte (.mem dst) (.reg src) s

/-- 0x39: OR memory, immediate (R153). -/
def execOrMI (dst : Byte) (src : Byte) (s : State) : Result :=
  aluOp orByte (.mem dst) (.imm src) s

/-- 0x3A: OR memory, memory (R153). -/
def execOrMM (dst : Byte) (src : Byte) (s : State) : Result :=
  aluOp orByte (.mem dst) (.mem src) s

/-- 0x40: AND register, register (R154). -/
def execAndRR (dst : Reg) (src : Reg) (s : State) : Result :=
  aluOp andByte (.reg dst) (.reg src) s

/-- 0x41: AND register, immediate (R154). -/
def execAndRI (dst : Reg) (src : Byte) (s : State) : Result :=
  aluOp andByte (.reg dst) (.imm src) s

/-- 0x42: AND register, memory (R154). -/
def execAndRM (dst : Reg) (src : Byte) (s : State) : Result :=
  aluOp andByte (.reg dst) (.mem src) s

/-- 0x48: AND memory, register (R154). -/
def execAndMR (dst : Byte) (src : Reg) (s : State) : Result :=
  aluOp andByte (.mem dst) (.reg src) s

/-- 0x49: AND memory, immediate (R154). -/
def execAndMI (dst : Byte) (src : Byte) (s : State) : Result :=
  aluOp andByte (.mem dst) (.imm src) s

/-- 0x4A: AND memory, memory (R154). -/
def execAndMM (dst : Byte) (src : Byte) (s : State) : Result :=
  aluOp andByte (.mem dst) (.mem src) s

/-- 0x50: XOR register, register (R155). -/
def execXorRR (dst : Reg) (src : Reg) (s : State) : Result :=
  aluOp xorByte (.reg dst) (.reg src) s

/-- 0x51: XOR register, immediate (R155). -/
def execXorRI (dst : Reg) (src : Byte) (s : State) : Result :=
  aluOp xorByte (.reg dst) (.imm src) s

/-- 0x52: XOR register, memory (R155). -/
def execXorRM (dst : Reg) (src : Byte) (s : State) : Result :=
  aluOp xorByte (.reg dst) (.mem src) s

/-- 0x58: XOR memory, register (R155). -/
def execXorMR (dst : Byte) (src : Reg) (s : State) : Result :=
  aluOp xorByte (.mem dst) (.reg src) s

/-- 0x59: XOR memory, immediate (R155). -/
def execXorMI (dst : Byte) (src : Byte) (s : State) : Result :=
  aluOp xorByte (.mem dst) (.imm src) s

/-- 0x5A: XOR memory, memory (R155). -/
def execXorMM (dst : Byte) (src : Byte) (s : State) : Result :=
  aluOp xorByte (.mem dst) (.mem src) s

/-- 0x60: SHL register, register (R156, R158). -/
def execShlRR (dst : Reg) (src : Reg) (s : State) : Result :=
  aluOp shlByte (.reg dst) (.reg src) s

/-- 0x61: SHL register, immediate (R156, R158). -/
def execShlRI (dst : Reg) (src : Byte) (s : State) : Result :=
  aluOp shlByte (.reg dst) (.imm src) s

/-- 0x62: SHL register, memory (R156, R158). -/
def execShlRM (dst : Reg) (src : Byte) (s : State) : Result :=
  aluOp shlByte (.reg dst) (.mem src) s

/-- 0x68: SHL memory, register (R156, R158). -/
def execShlMR (dst : Byte) (src : Reg) (s : State) : Result :=
  aluOp shlByte (.mem dst) (.reg src) s

/-- 0x69: SHL memory, immediate (R156, R158). -/
def execShlMI (dst : Byte) (src : Byte) (s : State) : Result :=
  aluOp shlByte (.mem dst) (.imm src) s

/-- 0x6A: SHL memory, memory (R156, R158). -/
def execShlMM (dst : Byte) (src : Byte) (s : State) : Result :=
  aluOp shlByte (.mem dst) (.mem src) s

/-- 0x70: SHR register, register (R157, R158). -/
def execShrRR (dst : Reg) (src : Reg) (s : State) : Result :=
  aluOp shrByte (.reg dst) (.reg src) s

/-- 0x71: SHR register, immediate (R157, R158). -/
def execShrRI (dst : Reg) (src : Byte) (s : State) : Result :=
  aluOp shrByte (.reg dst) (.imm src) s

/-- 0x72: SHR register, memory (R157, R158). -/
def execShrRM (dst : Reg) (src : Byte) (s : State) : Result :=
  aluOp shrByte (.reg dst) (.mem src) s

/-- 0x78: SHR memory, register (R157, R158). -/
def execShrMR (dst : Byte) (src : Reg) (s : State) : Result :=
  aluOp shrByte (.mem dst) (.reg src) s

/-- 0x79: SHR memory, immediate (R157, R158). -/
def execShrMI (dst : Byte) (src : Byte) (s : State) : Result :=
  aluOp shrByte (.mem dst) (.imm src) s

/-- 0x7A: SHR memory, memory (R157, R158). -/
def execShrMM (dst : Byte) (src : Byte) (s : State) : Result :=
  aluOp shrByte (.mem dst) (.mem src) s

end Sys2Proof.Machine
end

