-- ==== Sys2Proof/Machine/Flags.lean ====
section
/-! DEFINITION. The fields of the status register P (spec/10_state.md R24), what CMP writes to it (spec/42_compare.md R170) and the
jump conditions that read it (spec/44_control.md R190 to R196). -/

namespace Sys2Proof.Machine

/-- `P.negative = P[0]` (R24, R25). -/
def flagNegative (p : Byte) : Bool := p.getLsbD 0

/-- `P.equal = P[1]` (R24). -/
def flagEqual (p : Byte) : Bool := p.getLsbD 1

/-- `P.lower = P[2]` (R24). -/
def flagLower (p : Byte) : Bool := p.getLsbD 2

/-- `P.greater = P[3]` (R24). -/
def flagGreater (p : Byte) : Bool := p.getLsbD 3

/-- P[7:4], the reserved bits (R24). -/
def flagReserved (p : Byte) : BitVec 4 := p.extractLsb' 4 4

/-- The whole of P after CMP of `u` with `w`: unsigned, exactly one relational flag, every other bit 0 (R170, R171). -/
def compareFlags (u w : Byte) : Byte :=
  if u.toNat = w.toNat then 0x02 else if u.toNat < w.toNat then 0x04 else 0x08

/-- Whether a jump of a condition is taken in a status (R190 to R196). -/
def condHolds (c : Cond) (p : Byte) : Bool :=
  match c with
  | .always => true
  | .equal => flagEqual p
  | .notEqual => !flagEqual p
  | .lower => flagLower p
  | .lowerEqual => flagEqual p || flagLower p
  | .greater => flagGreater p
  | .greaterEqual => flagEqual p || flagGreater p

end Sys2Proof.Machine
end

