-- ==== Sys2Proof/Machine/Compare.lean ====
section
/-! DEFINITION. CMP (spec/42_compare.md R170 to R172): one meaning per row of the opcode table, over one shared operation. -/

namespace Sys2Proof.Machine

/-- CMP (R170): read both operands, write the whole of P, `advance()`. Nothing else is written and execute raises nothing. -/
def cmpOp (u w : Operand) (s : State) : Result :=
  retire (advance (s.setP (compareFlags (operandValue u s) (operandValue w s))))

/-- 0x80: CMP register, register (R170). -/
def execCmpRR (u : Reg) (w : Reg) (s : State) : Result := cmpOp (.reg u) (.reg w) s

/-- 0x81: CMP register, immediate (R170). -/
def execCmpRI (u : Reg) (w : Byte) (s : State) : Result := cmpOp (.reg u) (.imm w) s

/-- 0x82: CMP register, memory (R170). -/
def execCmpRM (u : Reg) (w : Byte) (s : State) : Result := cmpOp (.reg u) (.mem w) s

/-- 0x84: CMP immediate, register (R170). -/
def execCmpIR (u : Byte) (w : Reg) (s : State) : Result := cmpOp (.imm u) (.reg w) s

/-- 0x85: CMP immediate, immediate (R170). -/
def execCmpII (u : Byte) (w : Byte) (s : State) : Result := cmpOp (.imm u) (.imm w) s

/-- 0x86: CMP immediate, memory (R170). -/
def execCmpIM (u : Byte) (w : Byte) (s : State) : Result := cmpOp (.imm u) (.mem w) s

/-- 0x88: CMP memory, register (R170). -/
def execCmpMR (u : Byte) (w : Reg) (s : State) : Result := cmpOp (.mem u) (.reg w) s

/-- 0x89: CMP memory, immediate (R170). -/
def execCmpMI (u : Byte) (w : Byte) (s : State) : Result := cmpOp (.mem u) (.imm w) s

/-- 0x8A: CMP memory, memory (R170). -/
def execCmpMM (u : Byte) (w : Byte) (s : State) : Result := cmpOp (.mem u) (.mem w) s

end Sys2Proof.Machine
end

