-- ==== Sys2Proof/Machine/Control.lean ====
section
/-! DEFINITION. The jumps and CALL (spec/44_control.md R190 to R199): one meaning per row of the opcode table. -/

namespace Sys2Proof.Machine

/-- A jump (R190 to R198): a taken jump writes the target to PC instead of `advance()`; one not taken only advances. P is read
and never written. A target at or beyond `len` is legal. -/
def jumpOp (c : Cond) (t : Word16) (s : State) : Result :=
  if condHolds c s.p then retire (s.setPc t) else retire (advance s)

/-- CALL's stub (R197): the operand is ignored and nothing is written but the PC advance. -/
def callOp (_b : Byte) (s : State) : Result := retire (advance s)

/-- 0xB0: JMP, unconditional (R190). -/
def execJmp (t : Word16) (s : State) : Result := jumpOp .always t s

/-- 0xB1: JE, jump if `equal` (R191). -/
def execJe (t : Word16) (s : State) : Result := jumpOp .equal t s

/-- 0xB2: JNE, jump if not `equal`, so taken in the reset status (R192). -/
def execJne (t : Word16) (s : State) : Result := jumpOp .notEqual t s

/-- 0xB3: JL, jump if `lower` (R193). -/
def execJl (t : Word16) (s : State) : Result := jumpOp .lower t s

/-- 0xB4: JLE, jump if `equal` or `lower` (R194). -/
def execJle (t : Word16) (s : State) : Result := jumpOp .lowerEqual t s

/-- 0xB5: JG, jump if `greater` (R195). -/
def execJg (t : Word16) (s : State) : Result := jumpOp .greater t s

/-- 0xB6: JGE, jump if `equal` or `greater` (R196). -/
def execJge (t : Word16) (s : State) : Result := jumpOp .greaterEqual t s

/-- 0xB7: CALL, a no-op that consumes its operand byte (R197). -/
def execCall (b : Byte) (s : State) : Result := callOp b s

end Sys2Proof.Machine
end

