-- ==== Sys2Proof/Machine/DataTransfer.lean ====
section
/-! DEFINITION. MOV (spec/40_data_transfer.md R140): one meaning per row of the opcode table, over one shared operation. -/

namespace Sys2Proof.Machine

/-- MOV (R140): `v <- value(o2); write(o1, v); advance()`. No flag is written and execute raises nothing. -/
def moveOp (dst : Loc) (src : Operand) (s : State) : Result :=
  retire (advance (locWrite dst (operandValue src s) s))

/-- 0x00: MOV register, register (R140). -/
def execMovRR (dst : Reg) (src : Reg) (s : State) : Result := moveOp (.reg dst) (.reg src) s

/-- 0x01: MOV register, immediate (R140). -/
def execMovRI (dst : Reg) (src : Byte) (s : State) : Result := moveOp (.reg dst) (.imm src) s

/-- 0x02: MOV register, memory (R140). -/
def execMovRM (dst : Reg) (src : Byte) (s : State) : Result := moveOp (.reg dst) (.mem src) s

/-- 0x08: MOV memory, register (R140). -/
def execMovMR (dst : Byte) (src : Reg) (s : State) : Result := moveOp (.mem dst) (.reg src) s

/-- 0x09: MOV memory, immediate (R140). -/
def execMovMI (dst : Byte) (src : Byte) (s : State) : Result := moveOp (.mem dst) (.imm src) s

/-- 0x0A: MOV memory, memory (R140). -/
def execMovMM (dst : Byte) (src : Byte) (s : State) : Result := moveOp (.mem dst) (.mem src) s

end Sys2Proof.Machine
end

