-- ==== Sys2Proof/Machine/Stack.lean ====
section
/-! DEFINITION. PUSH and POP (spec/43_stack.md R180, R181): one meaning per row of the opcode table, over two shared operations. -/

namespace Sys2Proof.Machine

/-- PUSH (R180): `StackPush(value(o1)); advance()`. StackOverflow at S = 255 writes nothing. -/
def pushOp (src : Operand) (s : State) : Result :=
  match stackPush (operandValue src s) s with
  | .ok s' => retire (advance s')
  | .error e => raiseError e s

/-- POP (R181): `write(o1, StackPop()); advance()`. StackUnderflow at S = 0 writes nothing. -/
def popOp (dst : Loc) (s : State) : Result :=
  match stackPop s with
  | .ok (v, s') => retire (advance (locWrite dst v s'))
  | .error e => raiseError e s

/-- 0x90: PUSH register (R180). -/
def execPushR (src : Reg) (s : State) : Result := pushOp (.reg src) s

/-- 0x94: PUSH immediate (R180). -/
def execPushI (src : Byte) (s : State) : Result := pushOp (.imm src) s

/-- 0x98: PUSH memory (R180). -/
def execPushM (src : Byte) (s : State) : Result := pushOp (.mem src) s

/-- 0xA0: POP register (R181). -/
def execPopR (dst : Reg) (s : State) : Result := popOp (.reg dst) s

/-- 0xA8: POP memory (R181). -/
def execPopM (dst : Byte) (s : State) : Result := popOp (.mem dst) s

end Sys2Proof.Machine
end

