-- ==== Sys2Proof/Machine/Dispatch.lean ====
section
/-! DEFINITION. The execute phase: the opcode table's dispatch, one arm per constructor (spec/30_encoding.md R95, R119). -/

namespace Sys2Proof.Machine

def exec (i : Instr) (s : State) : Host.Outcome State Fault Refusal :=
  match i with
  | .movRR dst src => Sys2Proof.Machine.execMovRR dst src s
  | .movRI dst src => Sys2Proof.Machine.execMovRI dst src s
  | .movRM dst src => Sys2Proof.Machine.execMovRM dst src s
  | .movMR dst src => Sys2Proof.Machine.execMovMR dst src s
  | .movMI dst src => Sys2Proof.Machine.execMovMI dst src s
  | .movMM dst src => Sys2Proof.Machine.execMovMM dst src s
  | .addRR dst src => Sys2Proof.Machine.execAddRR dst src s
  | .addRI dst src => Sys2Proof.Machine.execAddRI dst src s
  | .addRM dst src => Sys2Proof.Machine.execAddRM dst src s
  | .addMR dst src => Sys2Proof.Machine.execAddMR dst src s
  | .addMI dst src => Sys2Proof.Machine.execAddMI dst src s
  | .addMM dst src => Sys2Proof.Machine.execAddMM dst src s
  | .subRR dst src => Sys2Proof.Machine.execSubRR dst src s
  | .subRI dst src => Sys2Proof.Machine.execSubRI dst src s
  | .subRM dst src => Sys2Proof.Machine.execSubRM dst src s
  | .subMR dst src => Sys2Proof.Machine.execSubMR dst src s
  | .subMI dst src => Sys2Proof.Machine.execSubMI dst src s
  | .subMM dst src => Sys2Proof.Machine.execSubMM dst src s
  | .orRR dst src => Sys2Proof.Machine.execOrRR dst src s
  | .orRI dst src => Sys2Proof.Machine.execOrRI dst src s
  | .orRM dst src => Sys2Proof.Machine.execOrRM dst src s
  | .orMR dst src => Sys2Proof.Machine.execOrMR dst src s
  | .orMI dst src => Sys2Proof.Machine.execOrMI dst src s
  | .orMM dst src => Sys2Proof.Machine.execOrMM dst src s
  | .andRR dst src => Sys2Proof.Machine.execAndRR dst src s
  | .andRI dst src => Sys2Proof.Machine.execAndRI dst src s
  | .andRM dst src => Sys2Proof.Machine.execAndRM dst src s
  | .andMR dst src => Sys2Proof.Machine.execAndMR dst src s
  | .andMI dst src => Sys2Proof.Machine.execAndMI dst src s
  | .andMM dst src => Sys2Proof.Machine.execAndMM dst src s
  | .xorRR dst src => Sys2Proof.Machine.execXorRR dst src s
  | .xorRI dst src => Sys2Proof.Machine.execXorRI dst src s
  | .xorRM dst src => Sys2Proof.Machine.execXorRM dst src s
  | .xorMR dst src => Sys2Proof.Machine.execXorMR dst src s
  | .xorMI dst src => Sys2Proof.Machine.execXorMI dst src s
  | .xorMM dst src => Sys2Proof.Machine.execXorMM dst src s
  | .shlRR dst src => Sys2Proof.Machine.execShlRR dst src s
  | .shlRI dst src => Sys2Proof.Machine.execShlRI dst src s
  | .shlRM dst src => Sys2Proof.Machine.execShlRM dst src s
  | .shlMR dst src => Sys2Proof.Machine.execShlMR dst src s
  | .shlMI dst src => Sys2Proof.Machine.execShlMI dst src s
  | .shlMM dst src => Sys2Proof.Machine.execShlMM dst src s
  | .shrRR dst src => Sys2Proof.Machine.execShrRR dst src s
  | .shrRI dst src => Sys2Proof.Machine.execShrRI dst src s
  | .shrRM dst src => Sys2Proof.Machine.execShrRM dst src s
  | .shrMR dst src => Sys2Proof.Machine.execShrMR dst src s
  | .shrMI dst src => Sys2Proof.Machine.execShrMI dst src s
  | .shrMM dst src => Sys2Proof.Machine.execShrMM dst src s
  | .cmpRR u w => Sys2Proof.Machine.execCmpRR u w s
  | .cmpRI u w => Sys2Proof.Machine.execCmpRI u w s
  | .cmpRM u w => Sys2Proof.Machine.execCmpRM u w s
  | .cmpIR u w => Sys2Proof.Machine.execCmpIR u w s
  | .cmpII u w => Sys2Proof.Machine.execCmpII u w s
  | .cmpIM u w => Sys2Proof.Machine.execCmpIM u w s
  | .cmpMR u w => Sys2Proof.Machine.execCmpMR u w s
  | .cmpMI u w => Sys2Proof.Machine.execCmpMI u w s
  | .cmpMM u w => Sys2Proof.Machine.execCmpMM u w s
  | .pushR src => Sys2Proof.Machine.execPushR src s
  | .pushI src => Sys2Proof.Machine.execPushI src s
  | .pushM src => Sys2Proof.Machine.execPushM src s
  | .popR dst => Sys2Proof.Machine.execPopR dst s
  | .popM dst => Sys2Proof.Machine.execPopM dst s
  | .jmp t => Sys2Proof.Machine.execJmp t s
  | .je t => Sys2Proof.Machine.execJe t s
  | .jne t => Sys2Proof.Machine.execJne t s
  | .jl t => Sys2Proof.Machine.execJl t s
  | .jle t => Sys2Proof.Machine.execJle t s
  | .jg t => Sys2Proof.Machine.execJg t s
  | .jge t => Sys2Proof.Machine.execJge t s
  | .call b => Sys2Proof.Machine.execCall b s

end Sys2Proof.Machine
end

