-- ==== Sys2Proof/Machine/Textual.lean ====
section
/-! DEFINITION. The addressing-mode resolver of the textual front end and its decode (spec/30_encoding.md R106, R110 to R117). -/

namespace Sys2Proof.Machine

/-! ### Numeric literals (R112) -/

/-- The value of a digit character, `0` to `9` and lower-case `a` to `f`; case was folded before (R101). -/
def digitValue? (c : Char) : Option Nat :=
  let n := c.toNat
  if 48 ≤ n ∧ n ≤ 57 then some (n - 48) else if 97 ≤ n ∧ n ≤ 102 then some (n - 87) else none

/-- Read digits of a base onto a value already read; none at a character that is no digit of the base. -/
def digitsFrom? (base : Nat) : Nat → Token → Option Nat
  | acc, [] => some acc
  | acc, c :: cs =>
    match digitValue? c with
    | some d => if d < base then digitsFrom? base (acc * base + d) cs else none
    | none => none

/-- The exact integer of a sequence of one or more digits of a base. -/
def digits? (base : Nat) (cs : Token) : Option Nat := if cs = [] then none else digitsFrom? base 0 cs

/-- The exact non-negative integer a numeric literal denotes, none where `NumLit` fails (R112): decimal, `0x` hexadecimal,
`0b` binary, of any length. -/
def numLit? : Token → Option Nat
  | '0' :: 'x' :: cs => digits? 16 cs
  | '0' :: 'b' :: cs => digits? 2 cs
  | cs => digits? 10 cs

/-- `num(t) = trunc8(n)` where the token is a literal (R112). -/
def num? (t : Token) : Option Byte := (numLit? t).map fun n => trunc8 n

/-! ### Token classes -/

/-- The tokens that name a general register: `a`, `x`, `y` (R111). -/
def regToken? : Token → Option Reg
  | ['a'] => some .a
  | ['x'] => some .x
  | ['y'] => some .y
  | _ => none

/-- The tokens that name a register no generic operand may name: `p`, `s`, `pc` (R111). -/
def isPrivilegedToken (t : Token) : Bool := t == ['p'] || t == ['s'] || t == ['p', 'c']

/-- The address of a memory token: `*` followed directly by a literal (R111). -/
def memToken? : Token → Option Byte
  | '*' :: lit => num? lit
  | _ => none

/-- The first character of an identifier, after case folding (R114). -/
def isIdentStart (c : Char) : Bool := c == '_' || (97 ≤ c.toNat && c.toNat ≤ 122)

/-- A later character of an identifier, after case folding (R114). -/
def isIdentChar (c : Char) : Bool := isIdentStart c || (48 ≤ c.toNat && c.toNat ≤ 57)

/-- `[_a-z][_a-z0-9]*` (R102, R114). -/
def isIdentifier : Token → Bool
  | [] => false
  | c :: cs => isIdentStart c && cs.all isIdentChar

/-- The PC value of a label (R35). -/
def lookupLabel? : LabelTable → Token → Option Word16
  | [], _ => none
  | (name, t) :: rest, tok => if name = tok then some t else lookupLabel? rest tok

/-! ### The resolver -/

/-- `classify(tok)` (R111): register name first, then memory, then literal. -/
def classify (tok : Token) : Except Error Operand :=
  match regToken? tok with
  | some r => .ok (.reg r)
  | none =>
    if isPrivilegedToken tok then .error .invalidOperand
    else
      match memToken? tok with
      | some addr => .ok (.mem addr)
      | none =>
        match num? tok with
        | some v => .ok (.imm v)
        | none => .error .invalidToken

/-- `classify_location(tok)` (R113): an immediate is refused. -/
def classifyLocation (tok : Token) : Except Error Loc :=
  match classify tok with
  | .ok (.reg r) => .ok (.reg r)
  | .ok (.mem addr) => .ok (.mem addr)
  | .ok (.imm _) => .error .invalidOperand
  | .error e => .error e

/-- `classify_target(tok)` (R114). -/
def classifyTarget (labels : LabelTable) (tok : Token) : Except Error Word16 :=
  if (regToken? tok).isSome || isPrivilegedToken tok then .error .invalidOperand
  else if (memToken? tok).isSome then .error .invalidOperand
  else
    match num? tok with
    | some v => .ok (zext16 v)
    | none =>
      if isIdentifier tok then
        match lookupLabel? labels tok with
        | some t => .ok t
        | none => .error .undefinedLabel
      else .error .invalidToken

/-! ### The textual dispatch table and decode -/

/-- The textual dispatch table's operations, by operand signature (R106, R115). -/
inductive TextOp where
  | ds (op : DsOp)
  | cmp
  | push
  | pop
  | jump (c : Cond)
  deriving DecidableEq, Repr

/-- The 18 mnemonics (R106): `call` is not one of them (R115). -/
def mnemonicTable : List (Token × TextOp) :=
  [(['m', 'o', 'v'], .ds .mov), (['a', 'd', 'd'], .ds .add), (['s', 'u', 'b'], .ds .sub), (['c', 'm', 'p'], .cmp),
   (['o', 'r'], .ds .or), (['a', 'n', 'd'], .ds .and), (['x', 'o', 'r'], .ds .xor), (['p', 'u', 's', 'h'], .push),
   (['p', 'o', 'p'], .pop), (['j', 'm', 'p'], .jump .always), (['j', 'e'], .jump .equal),
   (['j', 'n', 'e'], .jump .notEqual), (['j', 'l'], .jump .lower), (['j', 'l', 'e'], .jump .lowerEqual),
   (['j', 'g'], .jump .greater), (['j', 'g', 'e'], .jump .greaterEqual), (['s', 'h', 'l'], .ds .shl),
   (['s', 'h', 'r'], .ds .shr)]

/-- Look a mnemonic up in a dispatch table. -/
def lookupMnemonic? : List (Token × TextOp) → Token → Option TextOp
  | [], _ => none
  | (name, op) :: rest, m => if name = m then some op else lookupMnemonic? rest m

/-- The operation of a mnemonic, none for any other word (R106, R115). -/
def textOp? (m : Token) : Option TextOp := lookupMnemonic? mnemonicTable m

/-- A one-operand instruction's `param2` must be empty (R116). -/
def noSecondOperand (p2 : Token) : Except Error Unit := if p2 = [] then .ok () else .error .invalidOperand

/-- Resolve an operation's operand tokens in the order of R117: operand 1, then operand 2 or the extra operand. -/
def resolveRecord (labels : LabelTable) (op : TextOp) (p1 p2 : Token) : Except Error Instr :=
  match op with
  | .ds d => do
    let dst ← classifyLocation p1
    let src ← classify p2
    return .ds d dst src
  | .cmp => do
    let u ← classify p1
    let w ← classify p2
    return .cmp u w
  | .push => do
    let src ← classify p1
    noSecondOperand p2
    return .push src
  | .pop => do
    let dst ← classifyLocation p1
    noSecondOperand p2
    return .pop dst
  | .jump c => do
    let t ← classifyTarget labels p1
    noSecondOperand p2
    return .jump c t

/-- `decode_textual` on one record (R117): the mnemonic is checked first. -/
def decodeRecord (labels : LabelTable) (r : InstrRecord) : Except Error Instr :=
  match textOp? r.mnemonic with
  | none => .error .invalidOpcode
  | some op => resolveRecord labels op r.param1 r.param2

/-! ### Writing an instruction as a record -/

/-- A byte as a decimal literal. -/
def renderByte (v : Byte) : Token := Nat.toDigits 10 v.toNat

/-- A general register as a token (R111). -/
def renderReg : Reg → Token
  | .a => ['a']
  | .x => ['x']
  | .y => ['y']

/-- A value operand as a token (R111). -/
def renderOperand : Operand → Token
  | .reg r => renderReg r
  | .imm v => renderByte v
  | .mem addr => '*' :: renderByte addr

/-- A location as a token (R111). -/
def renderLoc : Loc → Token
  | .reg r => renderReg r
  | .mem addr => '*' :: renderByte addr

/-- The mnemonic of a DS operation (R106). -/
def renderDsOp : DsOp → Token
  | .mov => ['m', 'o', 'v']
  | .add => ['a', 'd', 'd']
  | .sub => ['s', 'u', 'b']
  | .or => ['o', 'r']
  | .and => ['a', 'n', 'd']
  | .xor => ['x', 'o', 'r']
  | .shl => ['s', 'h', 'l']
  | .shr => ['s', 'h', 'r']

/-- The mnemonic of a jump (R106). -/
def renderCond : Cond → Token
  | .always => ['j', 'm', 'p']
  | .equal => ['j', 'e']
  | .notEqual => ['j', 'n', 'e']
  | .lower => ['j', 'l']
  | .lowerEqual => ['j', 'l', 'e']
  | .greater => ['j', 'g']
  | .greaterEqual => ['j', 'g', 'e']

/-- The encoder of the textual front end: a record that stands for the instruction, a jump's target written as a numeric
literal, so that it stands for the target only below 256 (R114). -/
def renderResolved : Resolved → InstrRecord
  | .ds op dst src => ⟨renderDsOp op, renderLoc dst, renderOperand src⟩
  | .cmp u w => ⟨['c', 'm', 'p'], renderOperand u, renderOperand w⟩
  | .push src => ⟨['p', 'u', 's', 'h'], renderOperand src, []⟩
  | .pop dst => ⟨['p', 'o', 'p'], renderLoc dst, []⟩
  | .jump c t => ⟨renderCond c, renderByte (t.setWidth 8), []⟩
  | .call b => ⟨['c', 'a', 'l', 'l'], renderByte b, []⟩

/-- A record that stands for an instruction (see `renderResolved`). -/
def renderRecord (i : Instr) : InstrRecord := renderResolved i.resolved

end Sys2Proof.Machine
end

