-- ==== Sys2Proof/Machine/Fetch.lean ====
section
/-! DEFINITION. Instruction fetch and the decode phase of a step, for both front ends (spec/30_encoding.md R82, R97, R117). -/

namespace Sys2Proof.Machine

/-- `Fetch()` (R82): OutOfRange, with PC not changed, at PC >= len; else the ROM byte at PC, and PC moves past it.
Only the binary front end fetches bytes: a ROM of records gives none. -/
def fetch (s : State) : Except Error Byte × State :=
  match s.rom with
  | .binary bytes =>
    match bytes[s.pc.toNat]? with
    | some b => (.ok b, s.setPc (s.pc + 1))
    | none => (.error .outOfRange, s)
  | .textual _ => (.error .outOfRange, s)

/-- The operand fetches of `decode_binary` and the resolution after them (R97). -/
def decodeBinaryOperands (o : Opcode) (s : State) : Except Error Instr × State :=
  match fetch s with
  | (.error e, s1) => (.error e, s1)
  | (.ok b1, s1) =>
    if o.size = 3 then
      match fetch s1 with
      | (.error e, s2) => (.error e, s2)
      | (.ok b2, s2) => (resolveOperands o b1 b2, s2)
    else (resolveOperands o b1 0, s1)

/-- `decode_binary` (R97), with the state it leaves: PC has moved past every byte that was fetched (R99). -/
def decodeBinary (s : State) : Except Error Instr × State :=
  match fetch s with
  | (.error e, s1) => (.error e, s1)
  | (.ok op, s1) =>
    match opcode? op with
    | none => (.error .invalidOpcode, s1)
    | some o => decodeBinaryOperands o s1

/-- `decode_textual` (R117): it writes nothing, so an error leaves the state as it was (R118). -/
def decodeTextual (records : List InstrRecord) (s : State) : Except Error Instr :=
  match records[s.pc.toNat]? with
  | none => .error .outOfRange
  | some r => decodeRecord s.labels r

/-- The decode phase, by FRONTEND (R119). -/
def decodePhase (s : State) : Except Error Instr × State :=
  match s.rom with
  | .binary _ => decodeBinary s
  | .textual records => (decodeTextual records s, s)

/-- Bytes with others put over them at an index; a gap before the index is filled with zeros. -/
def patchBytes (bytes : List Byte) (at_ : Nat) (new : List Byte) : List Byte :=
  bytes.take at_ ++ List.replicate (at_ - bytes.length) 0 ++ new ++ bytes.drop (at_ + new.length)

/-- A binary program in ROM with the given bytes at an index: what a load puts in the place of ROM, `len`, FRONTEND and
labels (R253). -/
def placeBytes (s : State) (at_ : Nat) (new : List Byte) : State :=
  match s.rom with
  | .binary bytes => { s with rom := .binary (patchBytes bytes at_ new), labels := [] }
  | .textual _ => { s with rom := .binary (patchBytes [] at_ new), labels := [] }

/-- The instruction word in ROM where the next step fetches: at PC, or at 0 with PC moved there where a program of at most
`ROM_MAX_LEN` bytes cannot hold three bytes at PC (R9; log entry 8). -/
def placeWord (s : State) (new : List Byte) : State :=
  if s.pc.toNat + new.length ≤ Config.romMaxLen then placeBytes s s.pc.toNat new
  else (placeBytes s 0 new).setPc 0

end Sys2Proof.Machine
end

