-- ==== Sys2Proof/Machine/Step.lean ====
section
/-! DEFINITION. One step: decode, then execute (spec/30_encoding.md R119). -/

namespace Sys2Proof.Machine

/-- `step()` (R119): an error of the decode phase ends the step (R14), an instruction is executed. -/
def step (s : State) : Host.Outcome State Fault Refusal :=
  match decodePhase s with
  | (.ok i, s') => exec i s'
  | (.error e, s') => raiseError e s'

/-- The state with an instruction word stored where the next step fetches it. It stands for loading a program from outside
(log entry 8). -/
def State.withFetchWord (s : State) (nbits w : Nat) : State := placeWord s (wordBytes nbits w)

end Sys2Proof.Machine
end

