-- ==== Sys2Proof/Machine/Load.lean ====
section
/-! DEFINITION. Reset and loading a program (spec/30_encoding.md R100 to R105, spec/70_reset_and_hazards.md R250 to R254). -/

namespace Sys2Proof.Machine

/-! ### Lines -/

/-- White space around tokens (R100): space, tab, CR, LF. DESIGN CHOICE (log entry 6). -/
def isBlank (c : Char) : Bool := c == ' ' || c == '\t' || c == '\r' || c == '\n'

/-- Without leading and trailing white space (R100). -/
def trim (t : Token) : Token := ((t.dropWhile isBlank).reverse.dropWhile isBlank).reverse

/-- Without the trailing comment: from the first `;` on (R100). -/
def stripComment (line : Token) : Token := line.takeWhile fun c => c != ';'

/-- Case folding, once, before the core sees a token (R101): `A` to `Z`. DESIGN CHOICE (log entry 6). -/
def foldCase (t : Token) : Token := t.map Char.toLower

/-- What a source line yields (R103). -/
inductive Line where
  | blank
  | label (name : Token)
  | record (r : InstrRecord)
  deriving DecidableEq, Repr

/-- The operand tokens of an instruction line: separated by one comma, which is part of neither; a missing operand is the
empty token (R105). DESIGN CHOICE (log entry 5): a second comma fits no form of R100, so the line is refused (R213), while an
operand missing beside the one comma (`push a,`, `push ,a`) is the empty token, so that `push a,` runs as `push a`. -/
def splitOperands (t : Token) : Except Error (Token × Token) :=
  let isComma := fun c : Char => c != ','
  match t.dropWhile isComma with
  | [] => .ok (trim t, [])
  | _ :: rest =>
    if rest.all isComma then .ok (trim (t.takeWhile isComma), trim rest) else .error .invalidToken

/-- An instruction line: the mnemonic ends at the first white space (R100, R105). -/
def parseInstruction (t : Token) : Except Error Line :=
  let inWord := fun c : Char => !isBlank c
  match splitOperands (t.dropWhile inWord) with
  | .ok (p1, p2) => .ok (.record ⟨t.takeWhile inWord, p1, p2⟩)
  | .error e => .error e

/-- One source line (R100 to R105): blank, a label `identifier:` alone, InvalidToken for a label with anything after it, or an
instruction. -/
def parseLine (line : Token) : Except Error Line :=
  let t := foldCase (trim (stripComment line))
  let name := t.takeWhile isIdentChar
  match t, t.dropWhile isIdentChar with
  | [], _ => .ok .blank
  | _, ':' :: rest =>
    if isIdentifier name then
      if (trim rest).isEmpty then .ok (.label name) else .error .invalidToken
    else parseInstruction t
  | _, _ => parseInstruction t

/-! ### The pre-pass -/

/-- The label names defined so far, each with the number of records before it (R103). -/
abbrev LabelCounts := List (Token × Nat)

/-- The pre-pass from a line on (R254): `n` records and the given labels stand before it. The first error of the lines in
order is returned; a DuplicateLabel is found at the second definition (R219). -/
def prepassFrom : List Token → Nat → LabelCounts → Except Error (List InstrRecord × LabelCounts)
  | [], _, table => .ok ([], table)
  | line :: lines, n, table =>
    match parseLine line with
    | .error e => .error e
    | .ok .blank => prepassFrom lines n table
    | .ok (.label name) =>
      if (table.map Prod.fst).contains name then .error .duplicateLabel
      else prepassFrom lines n (table ++ [(name, n)])
    | .ok (.record r) =>
      match prepassFrom lines (n + 1) table with
      | .ok (records, table') => .ok (r :: records, table')
      | .error e => .error e

/-- `prepass(lines)` (R254). -/
def prepass (lines : List Token) : Except Error (List InstrRecord × LabelCounts) := prepassFrom lines 0 []

/-! ### Reset and load -/

/-- `reset()` (R250): the reset values of R40; the loaded program is kept. -/
def resetOp (s : State) : State := { State.reset with rom := s.rom, labels := s.labels }

/-- What the host loads (R233): a byte sequence or a list of text lines. -/
inductive Image where
  | binary (bytes : List Byte)
  | textual (lines : List Token)
  deriving DecidableEq, Repr

/-- A label table as PC values (R35). A value is a number of records, at most `len`, so it fits once the load has checked the
length. -/
def labelTable (table : LabelCounts) : LabelTable := table.map fun l => (l.1, BitVec.ofNat 16 l.2)

/-- `load_program(image)` (R253): check, install, reset. An error changes no state (R254). -/
def loadProgram (image : Image) (s : State) : Except Error State :=
  match image with
  | .binary bytes =>
    if bytes.length > Config.romMaxLen then .error .outOfRange
    else .ok (resetOp { s with rom := .binary bytes, labels := [] })
  | .textual lines =>
    match prepass lines with
    | .error e => .error e
    | .ok (records, table) =>
      if records.length > Config.romMaxLen then .error .outOfRange
      else .ok (resetOp { s with rom := .textual records, labels := labelTable table })

end Sys2Proof.Machine
end

