-- ==== Sys2Proof/Machine/Assembler.lean ====
section
/-! DEFINITION. The assembler from text to a binary image (spec/30_encoding.md R108): a tool outside the CORE. -/

namespace Sys2Proof.Machine

/-- The size in bytes of a record's instruction, from its mnemonic alone (R85, R108); `call` is accepted. -/
def recordSize? (r : InstrRecord) : Option Nat :=
  if r.mnemonic = ['c', 'a', 'l', 'l'] then some 2
  else
    match textOp? r.mnemonic with
    | some (.ds _) => some 3
    | some .cmp => some 3
    | some _ => some 2
    | none => none

/-- The byte address of the n-th record: the sizes of the records before it. -/
def byteAddress (records : List InstrRecord) (n : Nat) : Nat :=
  ((records.take n).map fun r => (recordSize? r).getD 0).sum

/-- The label table with byte addresses (R108). An address beyond 16 bits is held at 65535: it is above 255 in either
case (log entry 7). -/
def byteLabels (records : List InstrRecord) (table : LabelCounts) : LabelTable :=
  table.map fun l => (l.1, BitVec.ofNat 16 (min (byteAddress records l.2) 65535))

/-- A record with byte labels: as the textual front end decodes it, with `call t` added (R108). DESIGN CHOICE (log entry 7): R108
names no error; a record fails with the error its textual decode would raise, an undefined label among them, executed or not, and
`call` with the errors of a jump record, InvalidOperand for a second operand. -/
def assembleInstr (labels : LabelTable) (r : InstrRecord) : Except Error Instr :=
  if r.mnemonic = ['c', 'a', 'l', 'l'] then
    match classifyTarget labels r.param1 with
    | .ok t =>
      if r.param2 = [] then
        if t.toNat < 256 then .ok (.call (t.setWidth 8)) else .error .invalidOperand
      else .error .invalidOperand
    | .error e => .error e
  else decodeRecord labels r

/-- The bytes of one record (R108); a target above 255 cannot be encoded, and assembly fails. DESIGN CHOICE (log entry 7): it
fails with InvalidOperand, and only where the label is used. -/
def assembleRecord (labels : LabelTable) (r : InstrRecord) : Except Error (List Byte) :=
  match assembleInstr labels r with
  | .ok i => if i.wf .binary then .ok (encode i) else .error .invalidOperand
  | .error e => .error e

/-- The bytes of a list of records, in order. -/
def assembleRecords (labels : LabelTable) : List InstrRecord → Except Error (List Byte)
  | [] => .ok []
  | r :: rs =>
    match assembleRecord labels r with
    | .ok bytes =>
      match assembleRecords labels rs with
      | .ok rest => .ok (bytes ++ rest)
      | .error e => .error e
    | .error e => .error e

/-- Assemble source lines into a binary image (R108). DESIGN CHOICE (log entry 7): the error is the pre-pass's, or else that of the
first record that fails, and an image longer than `ROM_MAX_LEN` is refused only when it is loaded (R253). -/
def assemble (lines : List Token) : Except Error (List Byte) :=
  match prepass lines with
  | .ok (records, table) => assembleRecords (byteLabels records table) records
  | .error e => .error e

end Sys2Proof.Machine
end

