-- ==== Sys2Proof/Machine/HostApi.lean ====
section
/-! DEFINITION. The block's interface to its host: four serial operations (spec/60_exceptions.md R232 to R236), and the
file-driven run that calls `step` while PC < len (R237, spec/70_reset_and_hazards.md R257). -/

namespace Sys2Proof.Machine

/-- The registers the host can read by name: a, x, y, p and s, each 8 bits (R235). -/
inductive HostRegister where
  | gpr (r : Reg)
  | p
  | s
  deriving DecidableEq, Repr

/-- A register name, case-insensitive; `pc` and every other name is none (R235). -/
def hostRegister? (name : Token) : Option HostRegister :=
  match foldCase name with
  | ['a'] => some (.gpr .a)
  | ['x'] => some (.gpr .x)
  | ['y'] => some (.gpr .y)
  | ['p'] => some .p
  | ['s'] => some .s
  | _ => none

/-- `register(name)` (R235): InvalidOperand for `pc` and any other name. It changes nothing. -/
def readRegister (name : Token) (s : State) : Except Error Byte :=
  match hostRegister? name with
  | some (.gpr r) => .ok (s.reg r)
  | some .p => .ok s.p
  | some .s => .ok s.sp
  | none => .error .invalidOperand

/-- The host's four operations (R232). -/
inductive HostOp where
  | loadProgram (image : Image)
  | step
  | register (name : Token)
  | reset
  deriving DecidableEq, Repr

/-- What an operation returns (R233 to R236). -/
inductive Reply where
  /-- `Ok` of load_program, and the return of reset. -/
  | done
  /-- What step returned. -/
  | stepped (r : StepResult)
  /-- The byte register read. -/
  | value (v : Byte)
  /-- `Err(e)` of load_program or register. -/
  | err (e : Error)
  /-- The model has no meaning for the instruction; no operation returns it. -/
  | refused (r : Refusal)
  deriving DecidableEq, Repr

/-- The numeric code of an error (R210), for the host's error output. An error carries nothing else (R218). -/
def errorCode : Error → Nat
  | .outOfRange => 1
  | .stackOverflow => 2
  | .stackUnderflow => 3
  | .invalidToken => 4
  | .invalidOperand => 5
  | .duplicateLabel => 6
  | .undefinedLabel => 7
  | .invalidOpcode => 8

/-- One transaction: an operation runs to completion before the next begins (R232). -/
def transact (op : HostOp) (s : State) : State × Reply :=
  match op with
  | .loadProgram image =>
    match loadProgram image s with
    | .ok s' => (s', .done)
    | .error e => (s, .err e)
  | .step =>
    match step s with
    | .next s' => (s', .stepped s'.stepResult)
    | .fault f => nomatch f
    | .refused r => (s, .refused r)
  | .register name =>
    match readRegister name s with
    | .ok v => (s, .value v)
    | .error e => (s, .err e)
  | .reset => (resetOp s, .done)

/-- A list of transactions, in order. -/
def transactAll : List HostOp → State → State
  | [], s => s
  | op :: ops, s => transactAll ops (transact op s).1

/-- The run has ended: PC >= len at an instruction boundary (R38, R257). -/
def State.ended (s : State) : Bool := decide (s.len ≤ s.pc.toNat)

/-- How a file-driven run stops: at its normal end, at the first error, or not within the number of steps the host allows (R257).
DESIGN CHOICE (log entry 12): R222 leaves it to the host whether an error aborts the run, and here it does. -/
inductive RunEnd where
  | normal (s : State)
  | failed (e : Error) (s : State)
  | unfinished (s : State)
  deriving DecidableEq, Repr

/-- The file-driven run: `step` while PC < len (R237, R257), for at most `fuel` steps, stopped at the first error (DESIGN CHOICE,
log entry 12). -/
def batchRun : Nat → State → RunEnd
  | 0, s => if s.ended then .normal s else .unfinished s
  | fuel + 1, s =>
    if s.ended then .normal s
    else
      match step s with
      | .next s' =>
        match s'.stepResult with
        | .err e => .failed e s'
        | _ => batchRun fuel s'
      | .fault f => nomatch f
      | .refused _ => .unfinished s

end Sys2Proof.Machine
end

