-- ==== Sys2Proof/Safety.lean ====
section
/-! DEFINITION. What counts as a legal state and a safe step, in the terms the statements use. -/

namespace Sys2Proof.Machine

/-- The only values P can hold (spec/10_state.md R24). -/
abbrev StatusLegal (p : Byte) : Prop := p = 0x00 ∨ p = 0x02 ∨ p = 0x04 ∨ p = 0x08

/-- A byte store in canonical form that lists no address from a bound up. -/
abbrev Memory.wfBelow (m : Memory) (bound : Nat) : Prop := m.wf ∧ ∀ c ∈ m, c.1 < bound

/-- A token with no upper-case letter (R101). -/
def isLowerCase (t : Token) : Bool := t.all fun c => !c.isUpper

/-- An instruction record as the tokenizer gives it: every token lower-case (R42, R101). -/
def InstrRecordLower (r : InstrRecord) : Bool :=
  isLowerCase r.mnemonic && isLowerCase r.param1 && isLowerCase r.param2

/-- Every token of the program store is lower-case (R101); bytes are no tokens. -/
def Rom.lowerCase : Rom → Bool
  | .binary _ => true
  | .textual records => records.all InstrRecordLower

/-- The program store as `load_program` leaves it: at most 65535 entries (R37), tokens lower-case (R101). -/
abbrev Rom.Legal (rom : Rom) : Prop := rom.len ≤ Config.romMaxLen ∧ rom.lowerCase = true

/-- The label table as `load_program` leaves it: identifiers, each defined once (R35), no value beyond `len` (R103), and empty
in a binary load (R35). -/
abbrev LabelTable.Legal (labels : LabelTable) (rom : Rom) : Prop :=
  (labels.map Prod.fst).Nodup ∧ (∀ l ∈ labels, isIdentifier l.1 = true ∧ l.2.toNat ≤ rom.len) ∧
    (rom.frontEnd = .binary → labels = [])

/-- What a step returned: nothing yet, the updated PC, or an error (R234). -/
def StepResult.agrees (r : StepResult) (pc : Word16) : Bool :=
  match r with
  | .none => true
  | .ok q => q == pc
  | .err _ => true

/-- The invariant of the machine at an instruction boundary: P holds a legal value (R24, R27), RAM beyond byte 255 is zero
(R53), the stack buffer has 255 bytes (R33), video memory is as reset left it (R56), the loaded program is as `load_program`
installs one (R35, R37, R101), and every byte store is in canonical form. -/
structure State.Inv (s : State) : Prop where
  status : StatusLegal s.p
  ram : s.ram.wfBelow Config.ramAddressable
  stk : s.stk.wfBelow Config.stackCapacity
  video : s.video = []
  rom : s.rom.Legal
  labels : s.labels.Legal s.rom
  result : s.stepResult.agrees s.pc = true

/-- A step that executed its instruction and raised no error. -/
def StepOk (s : State) : Prop := ∃ t, step s = .next t ∧ t.stepResult = .ok t.pc

/-- A run of `n` steps in which every step raised no error: the safe run of a program. -/
def RunOk : Nat → State → State → Prop
  | 0, s, t => s = t
  | n + 1, s, t => ∃ u, step s = .next u ∧ u.stepResult = .ok u.pc ∧ RunOk n u t

/-- The stack bytes a program can reach: the live slots, below S (R34). Two states agree so when they differ at most in the
stack bytes at indices >= S. -/
def AgreeOnLive (s t : State) : Prop :=
  { s with stk := [] } = { t with stk := [] } ∧ ∀ k < s.sp.toNat, s.stk.read k = t.stk.read k

end Sys2Proof.Machine
end

