-- ==== Sys2Proof/Certificates/Slice0/Obligations.lean ====
section
/-! DEFINITION. The statements about the model, each formalising rules of spec/. What a statement needs to say a rule in the
rule's own terms (which byte an operand means, which flag bits a jump tests) is written out here and not taken from the model. -/

namespace Sys2Proof.Claims

open Sys2Proof Sys2Proof.Machine

/-! ### The rules' own terms -/

/-- `value(o)` (R15): a register, the immediate, or the RAM byte at the address. -/
def valueOf (o : Operand) (s : State) : Byte :=
  match o with
  | .reg .a => s.a
  | .reg .x => s.x
  | .reg .y => s.y
  | .imm v => v
  | .mem b => s.ram.read b.toNat

/-- What a location holds (R15). -/
def valueAt (l : Loc) (s : State) : Byte :=
  match l with
  | .reg .a => s.a
  | .reg .x => s.x
  | .reg .y => s.y
  | .mem b => s.ram.read b.toNat

/-- The register ID of a register (R87). -/
def registerId : Reg → Byte
  | .a => 0x00
  | .x => 0x01
  | .y => 0x02

/-- The kind bits and the operand byte of a value operand (R86, R87). -/
def operandCode : Operand → Nat × Byte
  | .reg .a => (0, 0x00)
  | .reg .x => (0, 0x01)
  | .reg .y => (0, 0x02)
  | .imm v => (1, v)
  | .mem b => (2, b)

/-- The kind bits and the operand byte of a location (R86, R87). -/
def locCode : Loc → Nat × Byte
  | .reg .a => (0, 0x00)
  | .reg .x => (0, 0x01)
  | .reg .y => (0, 0x02)
  | .mem b => (2, b)

/-- PC after `advance()` (R16). -/
def pcAdvanced (s : State) : Word16 :=
  match s.rom with
  | .binary _ => s.pc
  | .textual _ => s.pc + 1

/-- ROM, `len`, FRONTEND, labels and video memory are as before. -/
def SameProgram (s t : State) : Prop := t.rom = s.rom ∧ t.labels = s.labels ∧ t.video = s.video

/-- The step returned `Ok(PC)`. -/
def ReturnedOk (t : State) : Prop := t.stepResult = .ok t.pc

/-- The tokens that name any register (R111). -/
abbrev registerNames : List Token := [['a'], ['x'], ['y'], ['p'], ['s'], ['p', 'c']]

/-- The register names that no operand may name (R111). -/
abbrev privilegedNames : List Token := [['p'], ['s'], ['p', 'c']]

/-- A numeric literal by its form (R112): one or more decimal digits, `0x` and hexadecimal digits, `0b` and binary digits. -/
def IsLiteral (t : Token) : Prop :=
  (t ≠ [] ∧ ∀ c ∈ t, c ∈ "0123456789".toList) ∨
    (∃ ds, t = '0' :: 'x' :: ds ∧ ds ≠ [] ∧ ∀ c ∈ ds, c ∈ "0123456789abcdef".toList) ∨
    ∃ ds, t = '0' :: 'b' :: ds ∧ ds ≠ [] ∧ ∀ c ∈ ds, c ∈ "01".toList

/-- The errors that decoding a record with this mnemonic can raise are among those listed. -/
def TextualErrorsAmong (mnemonic : Token) (errors : List Error) : Prop :=
  ∀ labels p1 p2 e, decodeRecord labels ⟨mnemonic, p1, p2⟩ = .error e → e ∈ errors

/-- The errors that decoding bytes with this instruction's opcode byte can raise are among those listed. -/
def BinaryErrorsAmong (i : Instr) (errors : List Error) : Prop :=
  ∀ rest e n, decode ((encode i).take 1 ++ rest) = .error e n → e ∈ errors

/-- What a DS instruction does, for every state: it completes, the destination holds `v`, every other register and RAM byte,
P, S, the stack and the program are unchanged, and PC advances. -/
def WritesOnly (i : Instr) (dst : Loc) (v : Byte) (s : State) : Prop :=
  ∃ t, exec i s = .next t ∧ valueAt dst t = v ∧
    (∀ r, dst ≠ .reg r → t.reg r = s.reg r) ∧
    (∀ addr, locAddress? dst ≠ some addr → t.ram.read addr = s.ram.read addr) ∧
    t.p = s.p ∧ t.sp = s.sp ∧ t.stk = s.stk ∧ SameProgram s t ∧ t.pc = pcAdvanced s ∧ ReturnedOk t

/-- The rule of a DS operation: its six encodings, its text form, the errors decode can raise for it (InvalidOperand for `p`, `s`
or `pc` as either operand and for an immediate destination among them), and its effect. -/
def DsRule (op : DsOp) (group : Nat) (mnemonic : Token) (f : Byte → Byte → Byte) : Prop :=
  ∀ dst src,
    encode (.ds op dst src) =
        [BitVec.ofNat 8 (16 * group + 4 * (locCode dst).1 + (operandCode src).1), (locCode dst).2, (operandCode src).2] ∧
      (∀ labels p1 p2, classifyLocation p1 = .ok dst → classify p2 = .ok src →
        decodeRecord labels ⟨mnemonic, p1, p2⟩ = .ok (.ds op dst src)) ∧
      TextualErrorsAmong mnemonic [.invalidToken, .invalidOperand] ∧
      (∀ labels p1 p2, (p1 ∈ privilegedNames ∨ IsLiteral p1 ∨ classifyLocation p1 = .ok dst ∧ p2 ∈ privilegedNames) →
        decodeRecord labels ⟨mnemonic, p1, p2⟩ = .error .invalidOperand) ∧
      BinaryErrorsAmong (.ds op dst src) [.outOfRange, .invalidOperand] ∧
      ∀ s, WritesOnly (.ds op dst src) dst (f (valueAt dst s) (valueOf src s)) s

/-- Which values of P a jump is taken in (R190 to R196): bit 1 is `equal`, bit 2 `lower`, bit 3 `greater` (R24). -/
def Taken (c : Cond) (p : Byte) : Prop :=
  match c with
  | .always => True
  | .equal => p.getLsbD 1 = true
  | .notEqual => p.getLsbD 1 = false
  | .lower => p.getLsbD 2 = true
  | .lowerEqual => p.getLsbD 1 = true ∨ p.getLsbD 2 = true
  | .greater => p.getLsbD 3 = true
  | .greaterEqual => p.getLsbD 1 = true ∨ p.getLsbD 3 = true

/-- The opcode byte of a jump (R190 to R196). -/
def jumpByte : Cond → Byte
  | .always => 0xB0
  | .equal => 0xB1
  | .notEqual => 0xB2
  | .lower => 0xB3
  | .lowerEqual => 0xB4
  | .greater => 0xB5
  | .greaterEqual => 0xB6

/-- The mnemonic of a jump (R190 to R196). -/
def jumpWord : Cond → Token
  | .always => "jmp".toList
  | .equal => "je".toList
  | .notEqual => "jne".toList
  | .lower => "jl".toList
  | .lowerEqual => "jle".toList
  | .greater => "jg".toList
  | .greaterEqual => "jge".toList

/-- The rule of a jump: its encoding, its text form, the errors decode can raise for it, and its effect: only PC
changes, and a taken jump to or beyond `len` ends the run. -/
def JumpRule (c : Cond) : Prop :=
  (∀ b rest, decode (jumpByte c :: b :: rest) = .instr (.jump c (b.setWidth 16)) 2) ∧
    (∀ labels p1 t, classifyTarget labels p1 = .ok t → decodeRecord labels ⟨jumpWord c, p1, []⟩ = .ok (.jump c t)) ∧
    TextualErrorsAmong (jumpWord c) [.invalidToken, .invalidOperand, .undefinedLabel] ∧
    (∀ labels p1 p2,
      (p1 ∈ registerNames ∨ (∃ lit, p1 = '*' :: lit ∧ IsLiteral lit) ∨ (∃ t, classifyTarget labels p1 = .ok t) ∧ p2 ≠ []) →
        decodeRecord labels ⟨jumpWord c, p1, p2⟩ = .error .invalidOperand) ∧
    (∀ t, BinaryErrorsAmong (.jump c t) [.outOfRange]) ∧
    ∀ t s,
      (Taken c s.p → exec (.jump c t) s = .next { s with pc := t, stepResult := .ok t } ∧
          (s.len ≤ t.toNat → State.ended { s with pc := t } = true)) ∧
        (¬Taken c s.p → exec (.jump c t) s = .next { s with pc := pcAdvanced s, stepResult := .ok (pcAdvanced s) })

/-- An opcode byte outside the map, as R94 lists them: by group and low nibble. -/
abbrev Unassigned (b : Byte) : Prop :=
  let g := b.toNat / 16
  let low := b.toNat % 16
  (g ≤ 0x7 ∧ (3 ≤ low ∧ low ≤ 7 ∨ 0xB ≤ low)) ∨ (g = 0x8 ∧ (low = 3 ∨ low = 7 ∨ 0xB ≤ low)) ∨
    (g = 0x9 ∧ low ≠ 0 ∧ low ≠ 4 ∧ low ≠ 8) ∨ (g = 0xA ∧ low ≠ 0 ∧ low ≠ 8) ∨ (g = 0xB ∧ 8 ≤ low) ∨ 0xC ≤ g

/-- Whether operand 1, and operand 2, of an assigned opcode byte is a register ID (R86). Group 0xB names no register. -/
abbrev namesRegister1 (b : Byte) : Prop := b.toNat / 16 ≤ 0xA ∧ b.toNat / 4 % 4 = 0
abbrev namesRegister2 (b : Byte) : Prop := b.toNat / 16 ≤ 0x8 ∧ b.toNat % 4 = 0

/-- The textual mnemonics in the words of R106. -/
def mnemonics : List Token :=
  ["mov", "add", "sub", "cmp", "or", "and", "xor", "push", "pop", "jmp", "je", "jne", "jl", "jle", "jg", "jge", "shl",
    "shr"].map String.toList

/-- Instructions one after the other by exec, each of which must raise no error. -/
def execAll : List Instr → State → Option State
  | [], s => some s
  | i :: is, s =>
    match exec i s with
    | .next t => if t.stepResult = .ok t.pc then execAll is t else none
    | .fault _ => none
    | .refused _ => none

/-- Two states that differ at most in RAM bytes from 256 up. -/
def AgreeOnLowRam (s t : State) : Prop :=
  { s with ram := [] } = { t with ram := [] } ∧ ∀ k < 256, s.ram.read k = t.ram.read k

/-- An instruction with its registers renamed. -/
def renameInstr (f : Reg → Reg) (i : Instr) : Instr :=
  let loc : Loc → Loc := fun
    | .reg r => .reg (f r)
    | .mem b => .mem b
  let operand : Operand → Operand := fun
    | .reg r => .reg (f r)
    | .imm v => .imm v
    | .mem b => .mem b
  match i.resolved with
  | .ds op dst src => .ds op (loc dst) (operand src)
  | .cmp u w => .cmp (operand u) (operand w)
  | .push src => .push (operand src)
  | .pop dst => .pop (loc dst)
  | .jump c t => .jump c t
  | .call b => .call b

/-- A state whose register `r` holds what register `g r` held. -/
def permuteState (g : Reg → Reg) (s : State) : State := { s with a := s.reg (g .a), x := s.reg (g .x), y := s.reg (g .y) }

/-- A jump record whose target is a label (R108: a program meant for both front ends must use labels). -/
def JumpsByLabel (r : InstrRecord) : Prop := ∀ c, r.mnemonic = jumpWord c → isIdentifier r.param1 = true

/-- A textual state and a binary state at the same point of one program: PC is the record index on one side and that
record's byte address on the other, and registers, flags, stack, RAM and video memory are equal. -/
structure SamePoint (records : List InstrRecord) (table : LabelCounts) (image : List Byte) (s b : State) : Prop where
  textual : s.rom = .textual records
  labels : s.labels = labelTable table
  binary : b.rom = .binary image
  inside : s.pc.toNat ≤ records.length
  pc : b.pc.toNat = byteAddress records s.pc.toNat
  registers : b.a = s.a ∧ b.x = s.x ∧ b.y = s.y
  status : b.p = s.p
  stack : b.sp = s.sp ∧ b.stk = s.stk
  memory : b.ram = s.ram ∧ b.video = s.video

end Sys2Proof.Claims

open Sys2Proof Sys2Proof.Machine Sys2Proof.Claims

/-! ### Encoding -/

/-- Sanity: seven of the spec's written-out examples decode to the instruction they stand for (R140, R151, R170, R180, R181,
R190, R197). -/
def Obligations.WrittenBytesDecode : Prop :=
  decode [0b00001001, 0x0A, 0x2A] = .instr (.movMI 10 0x2A) 3 ∧
    decode [0b00010000, 0x00, 0x01] = .instr (.addRR .a .x) 3 ∧
    decode [0b10000001, 0x00, 0x08] = .instr (.cmpRI .a 8) 3 ∧
    decode [0b10010000, 0x00] = .instr (.pushR .a) 2 ∧
    decode [0b10100000, 0x01] = .instr (.popR .x) 2 ∧
    decode [0b10110000, 0x06] = .instr (.jmp 6) 2 ∧
    decode [0b10110111, 0x40] = .instr (.call 0x40) 2

/-- R93: the byte encoding of every row of the opcode map, row by row (R84, R86, R87), and which constructor each operation and
operand kinds stand for; no other byte is assigned. -/
def Obligations.RowsHaveTheirOpcodeBytes : Prop :=
  (∀ dst src, Instr.ds .mov (.reg dst) (.reg src) = .movRR dst src ∧ encode (.movRR dst src) = [0x00, registerId dst, registerId src]) ∧
    (∀ dst src, Instr.ds .mov (.reg dst) (.imm src) = .movRI dst src ∧ encode (.movRI dst src) = [0x01, registerId dst, src]) ∧
    (∀ dst src, Instr.ds .mov (.reg dst) (.mem src) = .movRM dst src ∧ encode (.movRM dst src) = [0x02, registerId dst, src]) ∧
    (∀ dst src, Instr.ds .mov (.mem dst) (.reg src) = .movMR dst src ∧ encode (.movMR dst src) = [0x08, dst, registerId src]) ∧
    (∀ dst src, Instr.ds .mov (.mem dst) (.imm src) = .movMI dst src ∧ encode (.movMI dst src) = [0x09, dst, src]) ∧
    (∀ dst src, Instr.ds .mov (.mem dst) (.mem src) = .movMM dst src ∧ encode (.movMM dst src) = [0x0A, dst, src]) ∧
    (∀ dst src, Instr.ds .add (.reg dst) (.reg src) = .addRR dst src ∧ encode (.addRR dst src) = [0x10, registerId dst, registerId src]) ∧
    (∀ dst src, Instr.ds .add (.reg dst) (.imm src) = .addRI dst src ∧ encode (.addRI dst src) = [0x11, registerId dst, src]) ∧
    (∀ dst src, Instr.ds .add (.reg dst) (.mem src) = .addRM dst src ∧ encode (.addRM dst src) = [0x12, registerId dst, src]) ∧
    (∀ dst src, Instr.ds .add (.mem dst) (.reg src) = .addMR dst src ∧ encode (.addMR dst src) = [0x18, dst, registerId src]) ∧
    (∀ dst src, Instr.ds .add (.mem dst) (.imm src) = .addMI dst src ∧ encode (.addMI dst src) = [0x19, dst, src]) ∧
    (∀ dst src, Instr.ds .add (.mem dst) (.mem src) = .addMM dst src ∧ encode (.addMM dst src) = [0x1A, dst, src]) ∧
    (∀ dst src, Instr.ds .sub (.reg dst) (.reg src) = .subRR dst src ∧ encode (.subRR dst src) = [0x20, registerId dst, registerId src]) ∧
    (∀ dst src, Instr.ds .sub (.reg dst) (.imm src) = .subRI dst src ∧ encode (.subRI dst src) = [0x21, registerId dst, src]) ∧
    (∀ dst src, Instr.ds .sub (.reg dst) (.mem src) = .subRM dst src ∧ encode (.subRM dst src) = [0x22, registerId dst, src]) ∧
    (∀ dst src, Instr.ds .sub (.mem dst) (.reg src) = .subMR dst src ∧ encode (.subMR dst src) = [0x28, dst, registerId src]) ∧
    (∀ dst src, Instr.ds .sub (.mem dst) (.imm src) = .subMI dst src ∧ encode (.subMI dst src) = [0x29, dst, src]) ∧
    (∀ dst src, Instr.ds .sub (.mem dst) (.mem src) = .subMM dst src ∧ encode (.subMM dst src) = [0x2A, dst, src]) ∧
    (∀ dst src, Instr.ds .or (.reg dst) (.reg src) = .orRR dst src ∧ encode (.orRR dst src) = [0x30, registerId dst, registerId src]) ∧
    (∀ dst src, Instr.ds .or (.reg dst) (.imm src) = .orRI dst src ∧ encode (.orRI dst src) = [0x31, registerId dst, src]) ∧
    (∀ dst src, Instr.ds .or (.reg dst) (.mem src) = .orRM dst src ∧ encode (.orRM dst src) = [0x32, registerId dst, src]) ∧
    (∀ dst src, Instr.ds .or (.mem dst) (.reg src) = .orMR dst src ∧ encode (.orMR dst src) = [0x38, dst, registerId src]) ∧
    (∀ dst src, Instr.ds .or (.mem dst) (.imm src) = .orMI dst src ∧ encode (.orMI dst src) = [0x39, dst, src]) ∧
    (∀ dst src, Instr.ds .or (.mem dst) (.mem src) = .orMM dst src ∧ encode (.orMM dst src) = [0x3A, dst, src]) ∧
    (∀ dst src, Instr.ds .and (.reg dst) (.reg src) = .andRR dst src ∧ encode (.andRR dst src) = [0x40, registerId dst, registerId src]) ∧
    (∀ dst src, Instr.ds .and (.reg dst) (.imm src) = .andRI dst src ∧ encode (.andRI dst src) = [0x41, registerId dst, src]) ∧
    (∀ dst src, Instr.ds .and (.reg dst) (.mem src) = .andRM dst src ∧ encode (.andRM dst src) = [0x42, registerId dst, src]) ∧
    (∀ dst src, Instr.ds .and (.mem dst) (.reg src) = .andMR dst src ∧ encode (.andMR dst src) = [0x48, dst, registerId src]) ∧
    (∀ dst src, Instr.ds .and (.mem dst) (.imm src) = .andMI dst src ∧ encode (.andMI dst src) = [0x49, dst, src]) ∧
    (∀ dst src, Instr.ds .and (.mem dst) (.mem src) = .andMM dst src ∧ encode (.andMM dst src) = [0x4A, dst, src]) ∧
    (∀ dst src, Instr.ds .xor (.reg dst) (.reg src) = .xorRR dst src ∧ encode (.xorRR dst src) = [0x50, registerId dst, registerId src]) ∧
    (∀ dst src, Instr.ds .xor (.reg dst) (.imm src) = .xorRI dst src ∧ encode (.xorRI dst src) = [0x51, registerId dst, src]) ∧
    (∀ dst src, Instr.ds .xor (.reg dst) (.mem src) = .xorRM dst src ∧ encode (.xorRM dst src) = [0x52, registerId dst, src]) ∧
    (∀ dst src, Instr.ds .xor (.mem dst) (.reg src) = .xorMR dst src ∧ encode (.xorMR dst src) = [0x58, dst, registerId src]) ∧
    (∀ dst src, Instr.ds .xor (.mem dst) (.imm src) = .xorMI dst src ∧ encode (.xorMI dst src) = [0x59, dst, src]) ∧
    (∀ dst src, Instr.ds .xor (.mem dst) (.mem src) = .xorMM dst src ∧ encode (.xorMM dst src) = [0x5A, dst, src]) ∧
    (∀ dst src, Instr.ds .shl (.reg dst) (.reg src) = .shlRR dst src ∧ encode (.shlRR dst src) = [0x60, registerId dst, registerId src]) ∧
    (∀ dst src, Instr.ds .shl (.reg dst) (.imm src) = .shlRI dst src ∧ encode (.shlRI dst src) = [0x61, registerId dst, src]) ∧
    (∀ dst src, Instr.ds .shl (.reg dst) (.mem src) = .shlRM dst src ∧ encode (.shlRM dst src) = [0x62, registerId dst, src]) ∧
    (∀ dst src, Instr.ds .shl (.mem dst) (.reg src) = .shlMR dst src ∧ encode (.shlMR dst src) = [0x68, dst, registerId src]) ∧
    (∀ dst src, Instr.ds .shl (.mem dst) (.imm src) = .shlMI dst src ∧ encode (.shlMI dst src) = [0x69, dst, src]) ∧
    (∀ dst src, Instr.ds .shl (.mem dst) (.mem src) = .shlMM dst src ∧ encode (.shlMM dst src) = [0x6A, dst, src]) ∧
    (∀ dst src, Instr.ds .shr (.reg dst) (.reg src) = .shrRR dst src ∧ encode (.shrRR dst src) = [0x70, registerId dst, registerId src]) ∧
    (∀ dst src, Instr.ds .shr (.reg dst) (.imm src) = .shrRI dst src ∧ encode (.shrRI dst src) = [0x71, registerId dst, src]) ∧
    (∀ dst src, Instr.ds .shr (.reg dst) (.mem src) = .shrRM dst src ∧ encode (.shrRM dst src) = [0x72, registerId dst, src]) ∧
    (∀ dst src, Instr.ds .shr (.mem dst) (.reg src) = .shrMR dst src ∧ encode (.shrMR dst src) = [0x78, dst, registerId src]) ∧
    (∀ dst src, Instr.ds .shr (.mem dst) (.imm src) = .shrMI dst src ∧ encode (.shrMI dst src) = [0x79, dst, src]) ∧
    (∀ dst src, Instr.ds .shr (.mem dst) (.mem src) = .shrMM dst src ∧ encode (.shrMM dst src) = [0x7A, dst, src]) ∧
    (∀ u w, Instr.cmp (.reg u) (.reg w) = .cmpRR u w ∧ encode (.cmpRR u w) = [0x80, registerId u, registerId w]) ∧
    (∀ u w, Instr.cmp (.reg u) (.imm w) = .cmpRI u w ∧ encode (.cmpRI u w) = [0x81, registerId u, w]) ∧
    (∀ u w, Instr.cmp (.reg u) (.mem w) = .cmpRM u w ∧ encode (.cmpRM u w) = [0x82, registerId u, w]) ∧
    (∀ u w, Instr.cmp (.imm u) (.reg w) = .cmpIR u w ∧ encode (.cmpIR u w) = [0x84, u, registerId w]) ∧
    (∀ u w, Instr.cmp (.imm u) (.imm w) = .cmpII u w ∧ encode (.cmpII u w) = [0x85, u, w]) ∧
    (∀ u w, Instr.cmp (.imm u) (.mem w) = .cmpIM u w ∧ encode (.cmpIM u w) = [0x86, u, w]) ∧
    (∀ u w, Instr.cmp (.mem u) (.reg w) = .cmpMR u w ∧ encode (.cmpMR u w) = [0x88, u, registerId w]) ∧
    (∀ u w, Instr.cmp (.mem u) (.imm w) = .cmpMI u w ∧ encode (.cmpMI u w) = [0x89, u, w]) ∧
    (∀ u w, Instr.cmp (.mem u) (.mem w) = .cmpMM u w ∧ encode (.cmpMM u w) = [0x8A, u, w]) ∧
    (∀ src, Instr.push (.reg src) = .pushR src ∧ encode (.pushR src) = [0x90, registerId src]) ∧
    (∀ src, Instr.push (.imm src) = .pushI src ∧ encode (.pushI src) = [0x94, src]) ∧
    (∀ src, Instr.push (.mem src) = .pushM src ∧ encode (.pushM src) = [0x98, src]) ∧
    (∀ dst, Instr.pop (.reg dst) = .popR dst ∧ encode (.popR dst) = [0xA0, registerId dst]) ∧
    (∀ dst, Instr.pop (.mem dst) = .popM dst ∧ encode (.popM dst) = [0xA8, dst]) ∧
    (∀ t : Byte, Instr.jump .always (t.setWidth 16) = .jmp (t.setWidth 16) ∧ encode (.jmp (t.setWidth 16)) = [0xB0, t]) ∧
    (∀ t : Byte, Instr.jump .equal (t.setWidth 16) = .je (t.setWidth 16) ∧ encode (.je (t.setWidth 16)) = [0xB1, t]) ∧
    (∀ t : Byte, Instr.jump .notEqual (t.setWidth 16) = .jne (t.setWidth 16) ∧ encode (.jne (t.setWidth 16)) = [0xB2, t]) ∧
    (∀ t : Byte, Instr.jump .lower (t.setWidth 16) = .jl (t.setWidth 16) ∧ encode (.jl (t.setWidth 16)) = [0xB3, t]) ∧
    (∀ t : Byte, Instr.jump .lowerEqual (t.setWidth 16) = .jle (t.setWidth 16) ∧ encode (.jle (t.setWidth 16)) = [0xB4, t]) ∧
    (∀ t : Byte, Instr.jump .greater (t.setWidth 16) = .jg (t.setWidth 16) ∧ encode (.jg (t.setWidth 16)) = [0xB5, t]) ∧
    (∀ t : Byte, Instr.jump .greaterEqual (t.setWidth 16) = .jge (t.setWidth 16) ∧ encode (.jge (t.setWidth 16)) = [0xB6, t]) ∧
    (∀ b : Byte, encode (.call b) = [0xB7, b]) ∧
    ((List.range 256).filter fun k => (opcode? (BitVec.ofNat 8 k)).isSome).length = 70

/-- Decode of encode is the instruction, for every instruction the binary front end can give, whatever bytes follow. -/
def Obligations.DecodeInvertsEncode : Prop :=
  ∀ (i : Instr) (rest : List Byte), i.wf .binary = true →
    decode (encode i ++ rest) = .instr i (encode i).length

/-- Encode of decode is the bytes: no instruction has two encodings, and what decodes is well formed. -/
def Obligations.EncodeInvertsDecode : Prop :=
  ∀ (bytes : List Byte) (i : Instr) (n : Nat), decode bytes = .instr i n →
    i.wf .binary = true ∧ n ≤ bytes.length ∧ bytes.take n = encode i

/-- The textual front end reads back every instruction it has, written as a record with decimal literals; a numeric target
reaches 0 to 255 (R114). -/
def Obligations.DecodeRecordInvertsRender : Prop :=
  ∀ (i : Instr) (labels : LabelTable), i.wf .textual = true → (∀ t, i.target? = some t → t.toNat < 256) →
    decodeRecord labels (renderRecord i) = .ok i

/-- R94: the 186 unassigned bytes, and no others, give InvalidOpcode, after the opcode byte alone has been fetched. -/
def Obligations.UnassignedOpcodesAreInvalid : Prop :=
  (∀ b rest, Unassigned b → decode (b :: rest) = .error .invalidOpcode 1) ∧
    (∀ b rest n, decode (b :: rest) = .error .invalidOpcode n → Unassigned b) ∧
    ((List.range 256).filter fun k => (opcode? (BitVec.ofNat 8 k)).isNone).length = 186

/-- R85: the opcode byte alone gives the length: 3 bytes in groups 0x0 to 0x8, 2 bytes in groups 0x9 to 0xB; an unassigned byte
has no length. -/
def Obligations.LengthFromOpcodeByte : Prop :=
  ∀ b rest,
    (¬Unassigned b → b.toNat / 16 ≤ 0x8 → 2 ≤ rest.length →
      ∀ i n, decode (b :: rest) = .instr i n → n = 3) ∧
    (¬Unassigned b → 0x9 ≤ b.toNat / 16 → 1 ≤ rest.length → ∀ i n, decode (b :: rest) = .instr i n → n = 2) ∧
    (¬Unassigned b → ∀ e n, 2 ≤ rest.length → decode (b :: rest) = .error e n → n = if b.toNat / 16 ≤ 0x8 then 3 else 2) ∧
    (Unassigned b → decode (b :: rest) = .error .invalidOpcode 1)

/-- R87: operand bytes 0, 1 and 2 name A, X and Y; a register-kind operand byte above 0x02 raises InvalidOperand, after every byte of the instruction has been fetched
(R97), and nothing else does. -/
def Obligations.RegisterIdsAboveTwoAreInvalid : Prop :=
  (∀ b r, resolveBinary .reg b = .ok (.reg r) ↔ b = registerId r) ∧
  (∀ b r, resolveBinaryLoc .reg b = .ok (.reg r) ↔ b = registerId r) ∧
  ∀ b b1 b2 rest, ¬Unassigned b →
    ((namesRegister1 b ∧ 2 < b1.toNat ∨ namesRegister2 b ∧ 2 < b2.toNat) →
      decode (b :: b1 :: b2 :: rest) = .error .invalidOperand (if b.toNat / 16 ≤ 0x8 then 3 else 2)) ∧
    (¬(namesRegister1 b ∧ 2 < b1.toNat ∨ namesRegister2 b ∧ 2 < b2.toNat) →
      ∃ i, decode (b :: b1 :: b2 :: rest) = .instr i (if b.toNat / 16 ≤ 0x8 then 3 else 2))

/-! ### Data transfer and ALU -/

/-- R140: MOV copies a value to a register or RAM byte, in all six forms. -/
def Obligations.MovCopiesValue : Prop := DsRule .mov 0x0 "mov".toList fun _ s => s

/-- R141: after `MOV r, imm` the host reads the immediate back, which for a decimal literal
is its value modulo 256. -/
def Obligations.MovImmediateReadsBack : Prop :=
  ∀ (r : Reg) (v : Byte) (s : State),
    (∃ t, exec (.movRI r v) s = .next t ∧ readRegister (renderReg r) t = .ok v) ∧
      ∀ labels ds, ds ≠ [] → (∀ d ∈ ds, d < 10) →
        decodeRecord labels ⟨"mov".toList, renderReg r, ds.map Nat.digitChar⟩ =
          .ok (.movRI r (BitVec.ofNat 8 (Nat.ofDigits 10 ds.reverse % 256)))

/-- R150, R151, R152: ADD and SUB are addition and subtraction modulo 256, writing no flag. -/
def Obligations.AddAndSubWrap : Prop :=
  DsRule .add 0x1 "add".toList (fun d s => BitVec.ofNat 8 ((d.toNat + s.toNat) % 256)) ∧
    DsRule .sub 0x2 "sub".toList fun d s => BitVec.ofNat 8 ((d.toNat + 256 - s.toNat) % 256)

/-- R150, R153, R154, R155: OR, AND and XOR act bit by bit. -/
def Obligations.LogicActsBitwise : Prop :=
  DsRule .or 0x3 "or".toList (fun d s => BitVec.ofFnLE fun k => d.getLsbD k || s.getLsbD k) ∧
    DsRule .and 0x4 "and".toList (fun d s => BitVec.ofFnLE fun k => d.getLsbD k && s.getLsbD k) ∧
    DsRule .xor 0x5 "xor".toList fun d s => BitVec.ofFnLE fun k => (d.getLsbD k) ^^ (s.getLsbD k)

/-- R150, R156, R157: SHL multiplies by a power of two modulo 256, SHR divides by one, the amount being the whole source byte. -/
def Obligations.ShiftsAreLogical : Prop :=
  DsRule .shl 0x6 "shl".toList (fun d n => BitVec.ofNat 8 (d.toNat * 2 ^ n.toNat % 256)) ∧
    DsRule .shr 0x7 "shr".toList fun d n => BitVec.ofNat 8 (d.toNat / 2 ^ n.toNat)

/-- R158: every amount from 8 to 255 gives 0, for SHL and SHR and for every kind of amount operand, and the amount is only
read. -/
def Obligations.ShiftByEightOrMoreGivesZero : Prop :=
  ∀ (op : DsOp) (dst : Loc) (amount : Operand) (s : State), op = .shl ∨ op = .shr →
    ∃ t, exec (.ds op dst amount) s = .next t ∧ ReturnedOk t ∧
      (8 ≤ (valueOf amount s).toNat → valueAt dst t = 0) ∧
      ((∀ r, amount = .reg r → dst ≠ .reg r) → (∀ b, amount = .mem b → dst ≠ .mem b) → valueOf amount t = valueOf amount s)

/-! ### Compare and flags -/

/-- R170: CMP writes the whole of P from an unsigned comparison, in all nine forms, and nothing else but the PC advance. -/
def Obligations.CmpWritesStatus : Prop :=
  ∀ u w,
    encode (.cmp u w) =
        [BitVec.ofNat 8 (0x80 + 4 * (operandCode u).1 + (operandCode w).1), (operandCode u).2, (operandCode w).2] ∧
      (∀ labels p1 p2, classify p1 = .ok u → classify p2 = .ok w →
        decodeRecord labels ⟨"cmp".toList, p1, p2⟩ = .ok (.cmp u w)) ∧
      TextualErrorsAmong "cmp".toList [.invalidToken, .invalidOperand] ∧
      (∀ labels p1 p2, (p1 ∈ privilegedNames ∨ classify p1 = .ok u ∧ p2 ∈ privilegedNames) →
        decodeRecord labels ⟨"cmp".toList, p1, p2⟩ = .error .invalidOperand) ∧
      BinaryErrorsAmong (.cmp u w) [.outOfRange, .invalidOperand] ∧
      ∀ s, ∃ t, exec (.cmp u w) s = .next t ∧
        t = { s with p := t.p, pc := pcAdvanced s, stepResult := .ok (pcAdvanced s) } ∧
        ((valueOf u s).toNat = (valueOf w s).toNat → t.p = 0x02) ∧
        ((valueOf u s).toNat < (valueOf w s).toNat → t.p = 0x04) ∧
        ((valueOf w s).toNat < (valueOf u s).toNat → t.p = 0x08) ∧
        flagNegative t.p = false ∧ flagReserved t.p = 0

/-- R171: after CMP exactly one of equal, lower and greater is set, as unsigned comparison gives, whatever P was before. -/
def Obligations.CompareIsUnsigned : Prop :=
  ∀ u w s, ∃ t, exec (.cmp u w) s = .next t ∧
    (flagEqual t.p = true ↔ (valueOf u s).toNat = (valueOf w s).toNat) ∧
    (flagLower t.p = true ↔ (valueOf u s).toNat < (valueOf w s).toNat) ∧
    (flagGreater t.p = true ↔ (valueOf w s).toNat < (valueOf u s).toNat) ∧
    (flagEqual t.p, flagLower t.p, flagGreater t.p) ∈ [(true, false, false), (false, true, false), (false, false, true)]

/-! ### Stack -/

/-- R61, R180: PUSH stores at S and raises S by one below 255, and raises StackOverflow at 255 with nothing written. -/
def Obligations.PushStoresAtStackPointer : Prop :=
  ∀ src,
    encode (.push src) = [BitVec.ofNat 8 (0x90 + 4 * (operandCode src).1), (operandCode src).2] ∧
      (∀ labels p1, classify p1 = .ok src →
        decodeRecord labels ⟨"push".toList, p1, []⟩ = .ok (.push src) ∧
          ∀ p2, p2 ≠ [] → decodeRecord labels ⟨"push".toList, p1, p2⟩ = .error .invalidOperand) ∧
      TextualErrorsAmong "push".toList [.invalidToken, .invalidOperand] ∧
      (∀ labels p1 p2, p1 ∈ privilegedNames → decodeRecord labels ⟨"push".toList, p1, p2⟩ = .error .invalidOperand) ∧
      BinaryErrorsAmong (.push src) [.outOfRange, .invalidOperand] ∧
      ∀ s,
        (s.sp.toNat < 255 → ∃ t, exec (.push src) s = .next t ∧
          t.stk.read s.sp.toNat = valueOf src s ∧ t.sp.toNat = s.sp.toNat + 1 ∧
          (∀ k, k ≠ s.sp.toNat → t.stk.read k = s.stk.read k) ∧ (∀ r, t.reg r = s.reg r) ∧
          (∀ addr, t.ram.read addr = s.ram.read addr) ∧ t.p = s.p ∧ SameProgram s t ∧ t.pc = pcAdvanced s ∧ ReturnedOk t) ∧
        (s.sp.toNat = 255 → exec (.push src) s = .next { s with stepResult := .err .stackOverflow })

/-- R62, R181: POP lowers S by one and writes the byte there to its destination, and raises StackUnderflow at S = 0 with nothing
written; the popped slot keeps its byte. -/
def Obligations.PopReadsBelowStackPointer : Prop :=
  ∀ dst,
    encode (.pop dst) = [BitVec.ofNat 8 (0xA0 + 4 * (locCode dst).1), (locCode dst).2] ∧
      (∀ labels p1, classifyLocation p1 = .ok dst →
        decodeRecord labels ⟨"pop".toList, p1, []⟩ = .ok (.pop dst) ∧
          ∀ p2, p2 ≠ [] → decodeRecord labels ⟨"pop".toList, p1, p2⟩ = .error .invalidOperand) ∧
      TextualErrorsAmong "pop".toList [.invalidToken, .invalidOperand] ∧
      (∀ labels p1 p2, p1 ∈ privilegedNames ∨ IsLiteral p1 →
        decodeRecord labels ⟨"pop".toList, p1, p2⟩ = .error .invalidOperand) ∧
      BinaryErrorsAmong (.pop dst) [.outOfRange, .invalidOperand] ∧
      ∀ s,
        (0 < s.sp.toNat → ∃ t, exec (.pop dst) s = .next t ∧
          valueAt dst t = s.stk.read (s.sp.toNat - 1) ∧ t.sp.toNat = s.sp.toNat - 1 ∧ t.stk = s.stk ∧
          (∀ r, dst ≠ .reg r → t.reg r = s.reg r) ∧
          (∀ addr, locAddress? dst ≠ some addr → t.ram.read addr = s.ram.read addr) ∧
          t.p = s.p ∧ SameProgram s t ∧ t.pc = pcAdvanced s ∧ ReturnedOk t) ∧
        (s.sp.toNat = 0 → exec (.pop dst) s = .next { s with stepResult := .err .stackUnderflow })

/-- R182: pushing values and popping as many times yields them in reverse order and restores S; the stack holds 255 bytes and
no more, and an empty stack cannot be popped. -/
def Obligations.StackReversesPushes : Prop :=
  ∀ (vs : List Byte) (s : State), s.sp.toNat + vs.length ≤ 255 →
    ∃ t, execAll (vs.map .pushI) s = some t ∧ t.sp.toNat = s.sp.toNat + vs.length ∧
      (∀ k v, vs.reverse[k]? = some v →
        ∃ u, execAll (List.replicate (k + 1) (.popR .a)) t = some u ∧ u.a = v ∧ u.sp.toNat = t.sp.toNat - (k + 1)) ∧
      (s.sp.toNat + vs.length = 255 → ∀ v, exec (.pushI v) t = .next { t with stepResult := .err .stackOverflow }) ∧
      (s.sp.toNat + vs.length = 0 → ∀ r, exec (.popR r) t = .next { t with stepResult := .err .stackUnderflow })

/-- R212: a step raises StackOverflow exactly when it decodes a PUSH with S = 255, and StackUnderflow exactly when it decodes a
POP with S = 0, and then nothing but the PC that fetches have moved is changed. -/
def Obligations.StackErrorsOnlyAtTheBounds : Prop :=
  ∀ s, ∃ t, step s = .next t ∧
    (t.stepResult = .err .stackOverflow ↔ s.sp.toNat = 255 ∧ ∃ src, (decodePhase s).1 = .ok (.push src)) ∧
    (t.stepResult = .err .stackUnderflow ↔ s.sp.toNat = 0 ∧ ∃ dst, (decodePhase s).1 = .ok (.pop dst)) ∧
    (t.stepResult = .err .stackOverflow ∨ t.stepResult = .err .stackUnderflow →
      t = { s with pc := t.pc, stepResult := t.stepResult })

/-! ### Control transfer -/

/-- R190: JMP writes its target to PC, whatever P is, and changes nothing else. -/
def Obligations.JmpGoesToTarget : Prop := JumpRule .always

/-- R191 to R196: each conditional jump tests its own flags, writes PC alone, and otherwise advances. -/
def Obligations.ConditionalJumpsTestFlags : Prop :=
  JumpRule .equal ∧ JumpRule .notEqual ∧ JumpRule .lower ∧ JumpRule .lowerEqual ∧ JumpRule .greater ∧ JumpRule .greaterEqual

/-- R198: in a step, a jump not taken leaves PC two bytes (binary) or one record (textual) further; a taken jump may go to or
beyond `len`, and then the run has ended and a further step raises OutOfRange. -/
def Obligations.JumpStepMovesPc : Prop :=
  ∀ (c : Cond) (s : State) (t next : Word16),
    ((∃ bytes b, s.rom = .binary bytes ∧ bytes.length ≤ 65535 ∧ bytes[s.pc.toNat]? = some (jumpByte c) ∧
        bytes[s.pc.toNat + 1]? = some b ∧ t = b.setWidth 16 ∧ next = s.pc + 2) ∨
      ∃ records p1, s.rom = .textual records ∧ records[s.pc.toNat]? = some ⟨jumpWord c, p1, []⟩ ∧
        classifyTarget s.labels p1 = .ok t ∧ next = s.pc + 1) →
    ∃ q, (Taken c s.p → q = t) ∧ (¬Taken c s.p → q = next) ∧ step s = .next { s with pc := q, stepResult := .ok q } ∧
      (s.len ≤ q.toNat → State.ended { s with pc := q } = true ∧
        step { s with pc := q, stepResult := .ok q } = .next { s with pc := q, stepResult := .err .outOfRange })

/-- R197: CALL consumes its operand byte and does nothing else; in text there is no `call`. -/
def Obligations.CallDoesNothing : Prop :=
  ∀ b,
    (∀ rest, decode (0xB7 :: b :: rest) = .instr (.call b) 2) ∧ decode [0xB7] = .error .outOfRange 1 ∧ BinaryErrorsAmong (.call b) [.outOfRange] ∧
      (∀ labels p1 p2, decodeRecord labels ⟨"call".toList, p1, p2⟩ = .error .invalidOpcode) ∧
      ∀ s bytes, s.rom = .binary bytes →
        exec (.call b) s = .next { s with stepResult := .ok s.pc } ∧
        (bytes.length ≤ 65535 → bytes[s.pc.toNat]? = some 0xB7 → bytes[s.pc.toNat + 1]? = some b →
          step s = .next { s with pc := s.pc + 2, stepResult := .ok (s.pc + 2) })

/-! ### The step and its errors -/

/-- A step of the binary front end runs the decoded instruction, with PC moved past its bytes. -/
def Obligations.StepRunsDecodedBytes : Prop :=
  ∀ (s : State) (bytes : List Byte) (i : Instr) (n : Nat), s.rom = .binary bytes → bytes.length ≤ 65535 →
    decode (bytes.drop s.pc.toNat) = .instr i n → step s = exec i { s with pc := s.pc + BitVec.ofNat 16 n }

/-- A step of the textual front end runs the decoded record. -/
def Obligations.StepRunsDecodedRecord : Prop :=
  ∀ (s : State) (records : List InstrRecord) (r : InstrRecord) (i : Instr), s.rom = .textual records →
    records[s.pc.toNat]? = some r → decodeRecord s.labels r = .ok i → step s = exec i s

/-- R99: a binary decode error leaves PC just past the last byte fetched, and writes nothing else: PC0 for OutOfRange on the
opcode byte, PC0 + 1 for InvalidOpcode, `len` for OutOfRange on an operand byte, PC0 + length for InvalidOperand. -/
def Obligations.BinaryDecodeErrorLeavesPc : Prop :=
  ∀ (s : State) (bytes : List Byte), s.rom = .binary bytes → bytes.length ≤ 65535 →
    (bytes.length ≤ s.pc.toNat → step s = .next { s with stepResult := .err .outOfRange }) ∧
    ∀ op, bytes[s.pc.toNat]? = some op →
      (opcode? op = none → step s = .next { s with pc := s.pc + 1, stepResult := .err .invalidOpcode }) ∧
      ∀ o, opcode? op = some o →
        (bytes.length < s.pc.toNat + o.size →
          step s = .next { s with pc := BitVec.ofNat 16 bytes.length, stepResult := .err .outOfRange }) ∧
        ∀ b1 b2, s.pc.toNat + o.size ≤ bytes.length → bytes[s.pc.toNat + 1]? = some b1 →
          (o.size = 3 → bytes[s.pc.toNat + 2]? = some b2) → ∀ e, resolveOperands o b1 b2 = .error e →
          e = .invalidOperand ∧
            step s = .next { s with pc := s.pc + BitVec.ofNat 16 o.size, stepResult := .err .invalidOperand }

/-- R118: a textual decode error writes nothing, not even PC; a record fetched at PC >= len is OutOfRange (R117). -/
def Obligations.TextualDecodeErrorWritesNothing : Prop :=
  ∀ (s : State) (records : List InstrRecord), s.rom = .textual records →
    (records.length ≤ s.pc.toNat → step s = .next { s with stepResult := .err .outOfRange }) ∧
      ∀ r e, records[s.pc.toNat]? = some r → decodeRecord s.labels r = .error e →
        step s = .next { s with stepResult := .err e }

/-- R211: a step raises OutOfRange exactly when an opcode byte, an operand byte or a record is fetched at PC >= len. -/
def Obligations.OutOfRangeExactlyBeyondProgram : Prop :=
  ∀ s : State, s.len ≤ 65535 → ∃ t, step s = .next t ∧
    (t.stepResult = .err .outOfRange ↔
      s.len ≤ s.pc.toNat ∨
        ∃ bytes op o, s.rom = .binary bytes ∧ bytes[s.pc.toNat]? = some op ∧ opcode? op = some o ∧
          bytes.length < s.pc.toNat + o.size)

/-- R220: errors are precise: after an error the state is the one before the step but for the PC advance that binary fetches
have made; the textual front end has made none. -/
def Obligations.ErrorsArePrecise : Prop :=
  ∀ s t e, step s = .next t → t.stepResult = .err e →
    t = { s with pc := t.pc, stepResult := .err e } ∧
      (s.frontEnd = .textual → t.pc = s.pc) ∧
      (s.frontEnd = .binary → s.len ≤ 65535 → s.pc.toNat ≤ t.pc.toNat ∧ t.pc.toNat ≤ s.pc.toNat + 3)

/-- Every step answers a next state and returns either `Ok(PC)` with the PC it leaves or one of the errors a step can raise
(R210, R234): a duplicate label is none of them (R215). That an error is a next state is DEDUCED, log entry 1. -/
def Obligations.EveryStepReturns : Prop :=
  ∀ s, ∃ t, step s = .next t ∧ (t.stepResult = .ok t.pc ∨ ∃ e, e ≠ .duplicateLabel ∧ t.stepResult = .err e)

/-- R223, textual front end: after an error the same step raises the same error again. -/
def Obligations.TextualErrorRecurs : Prop :=
  ∀ s t e, s.frontEnd = .textual → step s = .next t → t.stepResult = .err e → step t = .next t

/-- R257: a step at PC >= len raises OutOfRange and changes nothing. -/
def Obligations.StepAtEndChangesNothing : Prop :=
  ∀ s : State, s.len ≤ s.pc.toNat → step s = .next { s with stepResult := .err .outOfRange }

/-- R30: PC never wraps: a step from inside the program moves PC forward within it, by at most three, or to the target of the
jump it decoded. -/
def Obligations.PcNeverWraps : Prop :=
  ∀ s : State, s.len ≤ 65535 → s.pc.toNat < s.len → ∃ t, step s = .next t ∧
    ((s.pc.toNat ≤ t.pc.toNat ∧ t.pc.toNat ≤ s.pc.toNat + 3 ∧ t.pc.toNat ≤ s.len) ∨
      ∃ c, (decodePhase s).1 = .ok (.jump c t.pc))

/-! ### Whole-machine rules -/

/-- R21, R22, R26, R32, R33, R51, R56: which instructions can change which state. P is written by CMP alone, S by PUSH and POP
alone, the stack buffer by PUSH alone, general registers and RAM by destinations alone, ROM, labels and video memory by none. -/
def Obligations.WhoWritesWhat : Prop :=
  ∀ (i : Instr) (s : State), ∃ t, exec i s = .next t ∧
    ((∀ u w, i ≠ .cmp u w) → t.p = s.p) ∧
    ((∀ src, i ≠ .push src) → (∀ dst, i ≠ .pop dst) → t.sp = s.sp) ∧
    ((∀ src, i ≠ .push src) → t.stk = s.stk) ∧
    (∀ r, (∀ op src, i ≠ .ds op (.reg r) src) → i ≠ .pop (.reg r) → t.reg r = s.reg r) ∧
    (∀ addr, (∀ op dst src, locAddress? dst = some addr → i ≠ .ds op dst src) →
      (∀ dst, locAddress? dst = some addr → i ≠ .pop dst) → t.ram.read addr = s.ram.read addr) ∧
    t.rom = s.rom ∧ t.labels = s.labels ∧ t.video = s.video

/-- What the last step returned is never read: it is the model's own field (log entry 13), and a step from states that differ in
it gives one outcome. -/
def Obligations.StepResultIsNeverRead : Prop := ∀ (s : State) (r : StepResult), step { s with stepResult := r } = step s

/-- R34: stack bytes at indices >= S cannot be observed: states that differ only there step to states that differ only there. -/
def Obligations.DeadStackBytesUnobservable : Prop :=
  ∀ s t, AgreeOnLive s t → ∃ s' t', step s = .next s' ∧ step t = .next t' ∧ AgreeOnLive s' t'

/-- R53: no step can observe or change a RAM byte from 256 up. -/
def Obligations.HighRamUnobservable : Prop :=
  ∀ s t, AgreeOnLowRam s t → ∃ s' t', step s = .next s' ∧ step t = .next t' ∧ AgreeOnLowRam s' t' ∧
    ∀ k, 256 ≤ k → s'.ram.read k = s.ram.read k

/-- R56: no step reads or writes video memory. -/
def Obligations.VideoUnobservable : Prop :=
  ∀ (s : State) (v : Memory), ∃ t, step s = .next t ∧ t.video = s.video ∧
    step { s with video := v } = .next { t with video := v }

/-- R20: no instruction treats A, X or Y differently: renaming the registers of instruction and state alike commutes with
execution. -/
def Obligations.RegistersAreInterchangeable : Prop :=
  ∀ f g : Reg → Reg, (∀ r, g (f r) = r) → (∀ r, f (g r) = r) → ∀ i s, ∃ t, exec i s = .next t ∧
    exec (renameInstr f i) (permuteState g s) = .next (permuteState g t)

/-! ### The textual resolver -/

/-- R112: one or more digits of any of the three bases are their exact value modulo 256, however many there are; malformed digit
sequences are InvalidToken. -/
def Obligations.LiteralsAreTruncated : Prop :=
  (∀ ds : List Nat, ds ≠ [] →
    ((∀ d ∈ ds, d < 10) →
      classify (ds.map Nat.digitChar) = .ok (.imm (BitVec.ofNat 8 (Nat.ofDigits 10 ds.reverse % 256)))) ∧
    ((∀ d ∈ ds, d < 16) →
      classify ('0' :: 'x' :: ds.map Nat.digitChar) = .ok (.imm (BitVec.ofNat 8 (Nat.ofDigits 16 ds.reverse % 256)))) ∧
    ((∀ d ∈ ds, d < 2) →
      classify ('0' :: 'b' :: ds.map Nat.digitChar) = .ok (.imm (BitVec.ofNat 8 (Nat.ofDigits 2 ds.reverse % 256))))) ∧
    ∀ t ∈ ["0x", "0b", "0b102", "0xg1", "12a"], classify t.toList = .error .invalidToken

/-- R111: a token is tested as register name, then as `*` and a literal, then as a literal; any other is InvalidToken. -/
def Obligations.ClassifyInOrder : Prop :=
  ∀ t : Token,
    (t = ['a'] → classify t = .ok (.reg .a)) ∧ (t = ['x'] → classify t = .ok (.reg .x)) ∧
      (t = ['y'] → classify t = .ok (.reg .y)) ∧
      (t ∈ privilegedNames → classify t = .error .invalidOperand) ∧
      (∀ lit, t = '*' :: lit → IsLiteral lit → ∃ n, classify lit = .ok (.imm n) ∧ classify t = .ok (.mem n)) ∧
      (IsLiteral t → ∃ n, classify t = .ok (.imm n)) ∧
      (t ∉ registerNames → ¬IsLiteral t → (∀ lit, t = '*' :: lit → ¬IsLiteral lit) → classify t = .error .invalidToken)

/-- R114: a jump target is refused as a register name or memory token, is a literal's 8-bit value, or is its label's PC value; a
label that is not in the table is UndefinedLabel, any other token InvalidToken. A label may be named like a register, but then no
jump reaches it. -/
def Obligations.JumpTargetsAreResolved : Prop :=
  (∀ (labels : LabelTable) (t : Token),
    (t ∈ registerNames → classifyTarget labels t = .error .invalidOperand) ∧
      (∀ lit, t = '*' :: lit → IsLiteral lit → classifyTarget labels t = .error .invalidOperand) ∧
      (IsLiteral t → ∃ n, classify t = .ok (.imm n) ∧ classifyTarget labels t = .ok (n.setWidth 16)) ∧
      (isIdentifier t = true → t ∉ registerNames →
        ((∀ l ∈ labels, l.1 ≠ t) → classifyTarget labels t = .error .undefinedLabel) ∧
          ∀ pc, (labels.map Prod.fst).Nodup → (t, pc) ∈ labels → classifyTarget labels t = .ok pc) ∧
      (t ∉ registerNames → (∀ lit, t = '*' :: lit → ¬IsLiteral lit) → ¬IsLiteral t → isIdentifier t = false →
        classifyTarget labels t = .error .invalidToken)) ∧
    prepass ["x:".toList] = .ok ([], [(['x'], 0)])

/-- R115: each of the 18 mnemonics has its operation; any other, `call` among them, is InvalidOpcode, before any operand
is looked at. -/
def Obligations.OtherMnemonicsAreInvalid : Prop :=
  (textOp? "mov".toList = some (.ds .mov) ∧ textOp? "add".toList = some (.ds .add) ∧ textOp? "sub".toList = some (.ds .sub) ∧
    textOp? "or".toList = some (.ds .or) ∧ textOp? "and".toList = some (.ds .and) ∧ textOp? "xor".toList = some (.ds .xor) ∧
    textOp? "shl".toList = some (.ds .shl) ∧ textOp? "shr".toList = some (.ds .shr) ∧ textOp? "cmp".toList = some .cmp ∧
    textOp? "push".toList = some .push ∧ textOp? "pop".toList = some .pop ∧ ∀ c, textOp? (jumpWord c) = some (.jump c)) ∧
  "call".toList ∉ mnemonics ∧
    ∀ labels m p1 p2, decodeRecord labels ⟨m, p1, p2⟩ = .error .invalidOpcode ↔ m ∉ mnemonics

/-- R116: a missing required operand is InvalidToken; a second operand given to PUSH, POP or a jump is InvalidOperand. -/
def Obligations.OperandCountIsChecked : Prop :=
  ∀ labels m p1 p2,
    (m ∈ mnemonics → decodeRecord labels ⟨m, [], p2⟩ = .error .invalidToken) ∧
      (m ∈ ["mov", "add", "sub", "or", "and", "xor", "shl", "shr"].map String.toList → (∃ l, classifyLocation p1 = .ok l) →
        decodeRecord labels ⟨m, p1, []⟩ = .error .invalidToken) ∧
      (m = "cmp".toList → (∃ o, classify p1 = .ok o) → decodeRecord labels ⟨m, p1, []⟩ = .error .invalidToken) ∧
      (p2 ≠ [] →
        (m = "push".toList ∧ (∃ o, classify p1 = .ok o) ∨ m = "pop".toList ∧ (∃ l, classifyLocation p1 = .ok l) ∨
          (∃ c, m = jumpWord c) ∧ ∃ t, classifyTarget labels p1 = .ok t) →
        decodeRecord labels ⟨m, p1, p2⟩ = .error .invalidOperand)

/-- R114, R216: a jump record whose target is an identifier goes to that label's PC value if the table has it, and is
UndefinedLabel, with nothing written, if it has not; it never silently goes to index 0. A load never raises it. -/
def Obligations.UndefinedLabelIsAnError : Prop :=
  (∀ image s, loadProgram image s ≠ .error .undefinedLabel) ∧
  ∀ (s : State) (records : List InstrRecord) (c : Cond) (name : Token), s.rom = .textual records →
    records[s.pc.toNat]? = some ⟨jumpWord c, name, []⟩ → isIdentifier name = true →
    name ∉ registerNames →
    ((∀ l ∈ s.labels, l.1 ≠ name) → step s = .next { s with stepResult := .err .undefinedLabel }) ∧
      ∀ t, (s.labels.map Prod.fst).Nodup → (name, t) ∈ s.labels → step s = exec (.jump c t) s

/-! ### Loading, reset and the host -/

/-- R250: `reset()` zeroes A, X, Y, P, S, PC, every RAM, stack and video byte, keeps ROM, `len`, labels and FRONTEND, and
cannot fail. -/
def Obligations.ResetZeroesAndKeepsProgram : Prop :=
  ∀ s, ∃ t, transact .reset s = (t, .done) ∧ (∀ r, t.reg r = 0) ∧ t.p = 0 ∧ t.sp = 0 ∧ t.pc = 0 ∧
    (∀ k, t.ram.read k = 0 ∧ t.stk.read k = 0 ∧ t.video.read k = 0) ∧ t.rom = s.rom ∧ t.len = s.len ∧ t.labels = s.labels ∧ t.frontEnd = s.frontEnd

/-- R251: a new instance is in the reset state with an empty binary program, and a step raises OutOfRange. -/
def Obligations.NewInstanceIsEmpty : Prop :=
  resetOp State.reset = State.reset ∧ State.reset.len = 0 ∧ State.reset.labels = [] ∧ State.reset.frontEnd = .binary ∧
    step State.reset = .next { State.reset with stepResult := .err .outOfRange }

/-- R253: a load installs the bytes or the records and labels of the pre-pass, then resets; an image of more than 65535 entries
is OutOfRange. -/
def Obligations.LoadInstallsAndResets : Prop :=
  ∀ s : State,
    (∀ bytes, (bytes.length ≤ 65535 →
        transact (.loadProgram (.binary bytes)) s = ({ State.reset with rom := .binary bytes }, .done)) ∧
      (65535 < bytes.length → transact (.loadProgram (.binary bytes)) s = (s, .err .outOfRange))) ∧
    ∀ lines records table, prepass lines = .ok (records, table) →
      (records.length ≤ 65535 →
        ∃ labels, transact (.loadProgram (.textual lines)) s =
            ({ State.reset with rom := .textual records, labels := labels }, .done) ∧
          labels.map (fun l => (l.1, l.2.toNat)) = table) ∧
      (65535 < records.length → transact (.loadProgram (.textual lines)) s = (s, .err .outOfRange))

/-- R254: a failed load changes no state at all, and the pre-pass fails with DuplicateLabel or InvalidToken only. -/
def Obligations.FailedLoadChangesNothing : Prop :=
  ∀ s : State,
    (∀ image e, (transact (.loadProgram image) s).2 = .err e → (transact (.loadProgram image) s).1 = s) ∧
      ∀ lines e, prepass lines = .error e →
        (e = .duplicateLabel ∨ e = .invalidToken) ∧ transact (.loadProgram (.textual lines)) s = (s, .err e)

/-- R102, R103: a label's value is the number of instruction records before its line, so it names the record right after it. -/
def Obligations.LabelNamesNextRecord : Prop :=
  ∀ before line after name records table, parseLine line = .ok (.label name) →
    prepass (before ++ line :: after) = .ok (records, table) →
    ∃ first table', prepass before = .ok (first, table') ∧ (name, first.length) ∈ table ∧ first <+: records

/-- R104: of lines that each parse, two label lines with the same lower-cased name make the pre-pass, and with it the load, fail
with DuplicateLabel; with no two such lines the pre-pass succeeds (the load may still be too long, R253). Texts with a line that
does not parse are outside this statement: there the first error in line order is returned (R219). -/
def Obligations.TwoLabelsOfOneNameFail : Prop :=
  ∀ lines, (∀ l ∈ lines, ∃ x, parseLine l = .ok x) →
    ((∃ (i j : Nat) (name : Token), i < j ∧ (lines[i]?.map parseLine) = some (.ok (.label name)) ∧
        (lines[j]?.map parseLine) = some (.ok (.label name))) →
      prepass lines = .error .duplicateLabel ∧
        ∀ s, transact (.loadProgram (.textual lines)) s = (s, .err .duplicateLabel)) ∧
    ((∀ (i j : Nat) (name : Token), i < j → (lines[i]?.map parseLine) = some (.ok (.label name)) →
        (lines[j]?.map parseLine) ≠ some (.ok (.label name))) →
      ∃ records table, prepass lines = .ok (records, table))

/-- R101: lines are case-insensitive, and every token of a record is lower-case. -/
def Obligations.CaseIsFoldedOnce : Prop :=
  ∀ line, parseLine (line.map Char.toLower) = parseLine line ∧
    ∀ r, parseLine line = .ok (.record r) → InstrRecordLower r = true

/-- R235: the host reads a, x, y, p and s by name, in either case; `pc` and any other name is InvalidOperand; a read changes
nothing. -/
def Obligations.HostReadsRegisters : Prop :=
  ∀ (name : Token) (s : State), (transact (.register name) s).1 = s ∧
    (name = ['a'] ∨ name = ['A'] → (transact (.register name) s).2 = .value s.a) ∧
    (name = ['x'] ∨ name = ['X'] → (transact (.register name) s).2 = .value s.x) ∧
    (name = ['y'] ∨ name = ['Y'] → (transact (.register name) s).2 = .value s.y) ∧
    (name = ['p'] ∨ name = ['P'] → (transact (.register name) s).2 = .value s.p) ∧
    (name = ['s'] ∨ name = ['S'] → (transact (.register name) s).2 = .value s.sp) ∧
    (name ∉ [['a'], ['A'], ['x'], ['X'], ['y'], ['Y'], ['p'], ['P'], ['s'], ['S']] →
      (transact (.register name) s).2 = .err .invalidOperand)

/-- A file-driven run that ends normally stands at PC >= len (R257, R237) and has run Ok steps only; one that fails has run Ok
steps only before the error its last step returned. That a run stops at its first error is the model's choice, log entry 12: R222
leaves it to the host. -/
def Obligations.BatchRunEndsAtEndOrError : Prop :=
  ∀ (fuel : Nat) (s t : State),
    (batchRun fuel s = .normal t → t.ended = true ∧ ∃ n, n ≤ fuel ∧ RunOk n s t) ∧
      ∀ e, batchRun fuel s = .failed e t →
        t.stepResult = .err e ∧ ∃ n u, n < fuel ∧ RunOk n s u ∧ u.ended = false ∧ step u = .next t

/-! ### Invariants -/

/-- The state of a new instance meets the invariant. -/
def Obligations.ResetMeetsInvariant : Prop := State.reset.Inv

/-- The invariant holds after every step from any state that meets it: P is 0x00, 0x02, 0x04 or 0x08, RAM from 256 up is zero,
the stack buffer has 255 bytes, byte stores are canonical, the program is one a load installs, `Ok` returns the PC. -/
def Obligations.StepKeepsInvariant : Prop := ∀ s t, s.Inv → step s = .next t → t.Inv

/-- The invariant holds after any sequence of host operations, loads, resets and register reads among them. -/
def Obligations.TransactionsKeepInvariant : Prop := ∀ (ops : List HostOp) (s : State), s.Inv → (transactAll ops s).Inv

/-! ### The assembler and the two front ends -/

/-- R108: in an assembled image the bytes at a record's byte address decode to that record's instruction, its labels being byte
addresses. -/
def Obligations.AssembledImageDecodes : Prop :=
  ∀ lines records table image, prepass lines = .ok (records, table) → assemble lines = .ok image →
    ∀ (k : Nat) (r : InstrRecord), records[k]? = some r →
      ∃ i size, recordSize? r = some size ∧ assembleInstr (byteLabels records table) r = .ok i ∧
        decode (image.drop (byteAddress records k)) = .instr i size

/-- R7, R108: the two front ends drive one execute datapath: a program whose jumps use labels runs alike as text and as its
assembled image. The two loads start at the same point, and from the same point the two steps return Ok together, at the same
point again, or the same error. -/
def Obligations.FrontEndsRunAlike : Prop :=
  ∀ lines records table image, prepass lines = .ok (records, table) → assemble lines = .ok image →
    records.length ≤ 65535 → image.length ≤ 65535 → (∀ r ∈ records, JumpsByLabel r ∧ r.mnemonic ≠ "call".toList) →
    (∀ s0, ∃ s b, loadProgram (.textual lines) s0 = .ok s ∧ loadProgram (.binary image) s0 = .ok b ∧
      SamePoint records table image s b) ∧
    ∀ s b, SamePoint records table image s b → s.pc.toNat < records.length →
      ∃ s' b', step s = .next s' ∧ step b = .next b' ∧
        ((ReturnedOk s' ∧ ReturnedOk b' ∧ SamePoint records table image s' b') ∨
          ∃ e, s'.stepResult = .err e ∧ b'.stepResult = .err e)
end

