-- ==== Sys2Proof/Laws/Decode.lean ====
section
/-! SUPPORT. The two views of an instruction are inverse, and the field codes of the encoding read back. -/

namespace Sys2Proof

theorem Instr.ofResolved_resolved (i : Instr) : Instr.ofResolved i.resolved = i := by cases i <;> rfl

theorem Instr.resolved_ofResolved (r : Resolved) : (Instr.ofResolved r).resolved = r := by
  cases r with
  | ds op dst src => cases op <;> cases dst <;> cases src <;> rfl
  | cmp u w => cases u <;> cases w <;> rfl
  | push src => cases src <;> rfl
  | pop dst => cases dst <;> rfl
  | jump c t => cases c <;> rfl
  | call b => rfl

/-- Every instruction is one of the six shapes, so a case split over operations covers all 70 rows. -/
theorem Instr.shapes (i : Instr) :
    (∃ op dst src, i = .ds op dst src) ∨ (∃ u w, i = .cmp u w) ∨ (∃ src, i = .push src) ∨ (∃ dst, i = .pop dst) ∨
      (∃ c t, i = .jump c t) ∨ (∃ b, i = .call b) := by
  rw [← i.ofResolved_resolved]
  cases i.resolved with
  | ds op dst src => exact .inl ⟨op, dst, src, rfl⟩
  | cmp u w => exact .inr (.inl ⟨u, w, rfl⟩)
  | push src => exact .inr (.inr (.inl ⟨src, rfl⟩))
  | pop dst => exact .inr (.inr (.inr (.inl ⟨dst, rfl⟩)))
  | jump c t => exact .inr (.inr (.inr (.inr (.inl ⟨c, t, rfl⟩))))
  | call b => exact .inr (.inr (.inr (.inr (.inr ⟨b, rfl⟩))))

@[simp] theorem Reg.ofId?_id (r : Reg) : Reg.ofId? r.id = some r := by cases r <;> rfl

theorem Reg.id_of_ofId? {b : Byte} {r : Reg} (h : Reg.ofId? b = some r) : r.id = b := by
  revert b r
  decide

@[simp] theorem resolveBinary_kind_byte (o : Operand) : resolveBinary o.kind o.byte = .ok o := by
  cases o <;> simp [resolveBinary, Operand.kind, Operand.byte]

@[simp] theorem resolveBinaryLoc_kind_byte (l : Loc) : resolveBinaryLoc l.kind l.byte = .ok l := by
  cases l <;> simp [resolveBinaryLoc, Loc.kind, Loc.byte]

theorem resolveBinary_ok {k : Kind} {b : Byte} {o : Operand} (h : resolveBinary k b = .ok o) : o.kind = k ∧ o.byte = b := by
  cases k with
  | reg =>
    simp only [resolveBinary] at h
    split at h
    · rename_i r hr
      cases h
      exact ⟨rfl, Reg.id_of_ofId? hr⟩
    · cases h
  | imm => cases h; exact ⟨rfl, rfl⟩
  | mem => cases h; exact ⟨rfl, rfl⟩

theorem resolveBinaryLoc_ok {k : LocKind} {b : Byte} {l : Loc} (h : resolveBinaryLoc k b = .ok l) :
    l.kind = k ∧ l.byte = b := by
  cases k with
  | reg =>
    simp only [resolveBinaryLoc] at h
    split at h
    · rename_i r hr
      cases h
      exact ⟨rfl, Reg.id_of_ofId? hr⟩
    · cases h
  | mem => cases h; exact ⟨rfl, rfl⟩

/-- The opcode byte of an assigned opcode (R84, R92). -/
def Opcode.byte : Opcode → Byte
  | .ds op k1 k2 => opcodeByte op.group k1.bits k2.bits
  | .cmp k1 k2 => opcodeByte 0x8 k1.bits k2.bits
  | .push k => opcodeByte 0x9 k.bits 0
  | .pop k => opcodeByte 0xA k.bits 0
  | .jump c => BitVec.ofNat 8 (0xB0 + c.code)
  | .call => 0xB7

/-- The opcode of a resolved instruction. -/
def Resolved.opcode : Resolved → Opcode
  | .ds op dst src => .ds op dst.kind src.kind
  | .cmp u w => .cmp u.kind w.kind
  | .push src => .push src.kind
  | .pop dst => .pop dst.kind
  | .jump c _ => .jump c
  | .call _ => .call

/-- The encoding is the opcode byte, then one byte per operand (R80, R81). -/
theorem encodeResolved_eq (r : Resolved) :
    ∃ operands, encodeResolved r = r.opcode.byte :: operands ∧ operands.length + 1 = r.opcode.size := by
  cases r <;> exact ⟨_, rfl, rfl⟩

@[simp] theorem opcode?_byte (o : Opcode) : opcode? o.byte = some o := by
  cases o with
  | ds op k1 k2 => cases op <;> cases k1 <;> cases k2 <;> rfl
  | cmp k1 k2 => cases k1 <;> cases k2 <;> rfl
  | push k => cases k <;> rfl
  | pop k => cases k <;> rfl
  | jump c => cases c <;> rfl
  | call => rfl

/-- The opcode map gives no byte two meanings and no meaning two bytes. -/
theorem opcode?_some {b : Byte} {o : Opcode} (h : opcode? b = some o) : o.byte = b := by
  have key : ∀ b : Byte, (opcode? b).all (fun o => o.byte == b) = true := by decide
  simpa [h] using key b

/-! ### Encoding and well-formedness by operation -/

theorem encode_ofResolved (r : Resolved) : encode (Instr.ofResolved r) = encodeResolved r := by
  rw [encode, Instr.resolved_ofResolved]

theorem encode_ds (op : DsOp) (dst : Loc) (src : Operand) : encode (.ds op dst src) = encodeResolved (.ds op dst src) :=
  encode_ofResolved (.ds op dst src)
theorem encode_cmp (u w : Operand) : encode (.cmp u w) = encodeResolved (.cmp u w) := encode_ofResolved (.cmp u w)
theorem encode_push (src : Operand) : encode (.push src) = encodeResolved (.push src) := encode_ofResolved (.push src)
theorem encode_pop (dst : Loc) : encode (.pop dst) = encodeResolved (.pop dst) := encode_ofResolved (.pop dst)
theorem encode_jump (c : Cond) (t : Word16) : encode (.jump c t) = encodeResolved (.jump c t) := encode_ofResolved (.jump c t)

theorem Instr.wf_ds (op : DsOp) (dst : Loc) (src : Operand) : (Instr.ds op dst src).wf .binary = true := by
  cases op <;> cases dst <;> cases src <;> rfl
theorem Instr.wf_cmp (u w : Operand) : (Instr.cmp u w).wf .binary = true := by cases u <;> cases w <;> rfl
theorem Instr.wf_push (src : Operand) : (Instr.push src).wf .binary = true := by cases src <;> rfl
theorem Instr.wf_pop (dst : Loc) : (Instr.pop dst).wf .binary = true := by cases dst <;> rfl
theorem Instr.wf_jump (c : Cond) (t : Word16) : (Instr.jump c t).wf .binary = decide (t.toNat < 256) := by cases c <;> rfl
theorem Instr.target?_jump (c : Cond) (t : Word16) : (Instr.jump c t).target? = some t := by cases c <;> rfl

/-- A target below 256 is its low byte, zero-extended (R89). -/
theorem zext16_setWidth (t : Word16) (h : t.toNat < 256) : zext16 (t.setWidth 8) = t := by
  apply BitVec.eq_of_toNat_eq
  simp only [zext16, BitVec.toNat_setWidth]
  omega

/-! ### Resolving the operand bytes -/

theorem bind_eq_ok {α β : Type} {x : Except Error α} {f : α → Except Error β} {b : β} (h : (x >>= f) = .ok b) :
    ∃ a, x = .ok a ∧ f a = .ok b := by
  cases x with
  | error e => cases h
  | ok a => exact ⟨a, rfl, h⟩

theorem bind_eq_error {α β : Type} {x : Except Error α} {f : α → Except Error β} {e : Error}
    (h : (x >>= f) = .error e) : x = .error e ∨ ∃ a, x = .ok a ∧ f a = .error e := by
  cases x with
  | error e' => cases h; exact .inl rfl
  | ok a => exact .inr ⟨a, rfl, h⟩

theorem Opcode.size_cases (o : Opcode) : o.size = 2 ∨ o.size = 3 := by cases o <;> simp [Opcode.size]

/-- A two-byte instruction does not look at a second operand byte. -/
theorem resolveOperands_size_two {o : Opcode} (h : o.size = 2) (b1 b2 b3 : Byte) :
    resolveOperands o b1 b2 = resolveOperands o b1 b3 := by
  cases o <;> first | rfl | cases h

theorem resolveBinary_error {k : Kind} {b : Byte} {e : Error} (h : resolveBinary k b = .error e) : e = .invalidOperand := by
  cases k with
  | reg =>
    simp only [resolveBinary] at h
    split at h <;> cases h
    rfl
  | imm => cases h
  | mem => cases h

theorem resolveBinaryLoc_error {k : LocKind} {b : Byte} {e : Error} (h : resolveBinaryLoc k b = .error e) :
    e = .invalidOperand := by
  cases k with
  | reg =>
    simp only [resolveBinaryLoc] at h
    split at h <;> cases h
    rfl
  | mem => cases h

/-- Resolving operand bytes raises InvalidOperand or nothing (R98). -/
theorem resolveOperands_error {o : Opcode} {b1 b2 : Byte} {e : Error} (h : resolveOperands o b1 b2 = .error e) :
    e = .invalidOperand := by
  cases o with
  | ds op k1 k2 =>
    obtain h | ⟨_, -, h⟩ := bind_eq_error h
    · exact resolveBinaryLoc_error h
    obtain h | ⟨_, -, h⟩ := bind_eq_error h
    · exact resolveBinary_error h
    cases h
  | cmp k1 k2 =>
    obtain h | ⟨_, -, h⟩ := bind_eq_error h
    · exact resolveBinary_error h
    obtain h | ⟨_, -, h⟩ := bind_eq_error h
    · exact resolveBinary_error h
    cases h
  | push k =>
    obtain h | ⟨_, -, h⟩ := bind_eq_error h
    · exact resolveBinary_error h
    cases h
  | pop k =>
    obtain h | ⟨_, -, h⟩ := bind_eq_error h
    · exact resolveBinaryLoc_error h
    cases h
  | jump c => cases h
  | call => cases h

/-- What operand bytes resolve to is well formed, and its encoding is those bytes after the opcode byte. -/
theorem resolveOperands_ok {o : Opcode} {b1 b2 : Byte} {i : Instr} (h : resolveOperands o b1 b2 = .ok i) :
    i.wf .binary = true ∧ encode i = [o.byte, b1, b2].take o.size := by
  cases o with
  | ds op k1 k2 =>
    obtain ⟨dst, hd, h⟩ := bind_eq_ok h
    obtain ⟨src, hs, h⟩ := bind_eq_ok h
    cases h
    obtain ⟨rfl, rfl⟩ := resolveBinaryLoc_ok hd
    obtain ⟨rfl, rfl⟩ := resolveBinary_ok hs
    exact ⟨Instr.wf_ds .., by rw [encode_ds]; rfl⟩
  | cmp k1 k2 =>
    obtain ⟨u, hu, h⟩ := bind_eq_ok h
    obtain ⟨w, hw, h⟩ := bind_eq_ok h
    cases h
    obtain ⟨rfl, rfl⟩ := resolveBinary_ok hu
    obtain ⟨rfl, rfl⟩ := resolveBinary_ok hw
    exact ⟨Instr.wf_cmp .., by rw [encode_cmp]; rfl⟩
  | push k =>
    obtain ⟨src, hs, h⟩ := bind_eq_ok h
    cases h
    obtain ⟨rfl, rfl⟩ := resolveBinary_ok hs
    exact ⟨Instr.wf_push .., by rw [encode_push]; rfl⟩
  | pop k =>
    obtain ⟨dst, hd, h⟩ := bind_eq_ok h
    cases h
    obtain ⟨rfl, rfl⟩ := resolveBinaryLoc_ok hd
    exact ⟨Instr.wf_pop .., by rw [encode_pop]; rfl⟩
  | jump c =>
    cases h
    have hb : (zext16 b1).setWidth 8 = b1 := by simp [zext16]
    have hlt := b1.isLt
    refine ⟨by rw [Instr.wf_jump]; simp [zext16]; omega, ?_⟩
    rw [encode_jump, encodeResolved, hb]
    rfl
  | call => cases h; exact ⟨rfl, rfl⟩

/-- The operand bytes of an encoding resolve to its instruction. -/
theorem resolveOperands_encodeResolved {r : Resolved} {operands : List Byte}
    (h : encodeResolved r = r.opcode.byte :: operands) (hw : (Instr.ofResolved r).wf .binary = true) :
    resolveOperands r.opcode (operands.getD 0 0) (operands.getD 1 0) = .ok (Instr.ofResolved r) := by
  cases r with
  | ds op dst src => cases h; simp [resolveOperands, Resolved.opcode, Instr.ofResolved]; rfl
  | cmp u w => cases h; simp [resolveOperands, Resolved.opcode, Instr.ofResolved]; rfl
  | push src => cases h; simp [resolveOperands, Resolved.opcode, Instr.ofResolved]
  | pop dst => cases h; simp [resolveOperands, Resolved.opcode, Instr.ofResolved]
  | jump c t =>
    cases h
    rw [Instr.ofResolved, Instr.wf_jump, decide_eq_true_eq] at hw
    simp [resolveOperands, Resolved.opcode, Instr.ofResolved, zext16_setWidth t hw]
    rfl
  | call b => cases h; rfl

/-! ### decode -/

/-- With every byte of the instruction there, decode is what the operand bytes resolve to (R97). -/
theorem decode_of_opcode {op : Byte} {o : Opcode} (h : opcode? op = some o) (operands : List Byte)
    (hl : o.size ≤ operands.length + 1) :
    decode (op :: operands) =
      match resolveOperands o (operands.getD 0 0) (operands.getD 1 0) with
      | .ok i => .instr i o.size
      | .error e => .error e o.size := by
  have hn : ¬operands.length + 1 < o.size := by omega
  cases hr : resolveOperands o (operands.getD 0 0) (operands.getD 1 0) <;> simp only [decode, h, if_neg hn, hr]

/-- An unassigned opcode byte (R94). -/
theorem decode_of_unassigned {op : Byte} (h : opcode? op = none) (operands : List Byte) :
    decode (op :: operands) = .error .invalidOpcode 1 := by simp [decode, h]

/-- How many bytes decode reads: two or three for an instruction, at most three before an error, never more than there are. -/
theorem decode_bounds (bytes : List Byte) :
    (∀ i n, decode bytes = .instr i n → 2 ≤ n ∧ n ≤ 3 ∧ n ≤ bytes.length) ∧
      ∀ e n, decode bytes = .error e n → n ≤ 3 ∧ n ≤ bytes.length := by
  cases bytes with
  | nil => simp [decode]
  | cons op operands =>
    cases ho : opcode? op with
    | none => simp [decode, ho]
    | some o =>
      have hs := o.size_cases
      simp only [decode, ho]
      split
      · simp; omega
      · split <;> simp <;> omega

end Sys2Proof
end

