-- ==== Sys2Proof/Laws/Textual.lean ====
section
/-! SUPPORT. The textual resolver: the literals a digit sequence spells, the errors each classification can raise, the shape of
what each operation resolves to, and label lookup. -/

namespace Sys2Proof.Machine

/-! ### Digits -/

theorem digitsFrom?_append (base : Nat) (xs ys : Token) (acc : Nat) :
    digitsFrom? base acc (xs ++ ys) = (digitsFrom? base acc xs).bind fun n => digitsFrom? base n ys := by
  induction xs generalizing acc with
  | nil => rfl
  | cons c cs ih =>
    simp only [List.cons_append, digitsFrom?]
    cases digitValue? c with
    | none => rfl
    | some d =>
      simp only
      split
      · exact ih _
      · rfl

theorem digitValue?_digitChar : ∀ d < 16, digitValue? (Nat.digitChar d) = some d := by decide

/-- Reading the digits of a number gives the number. -/
theorem digitsFrom?_toDigits {base : Nat} (hb : 1 < base) (hb' : base ≤ 16) (n : Nat) :
    digitsFrom? base 0 (Nat.toDigits base n) = some n := by
  induction n using Nat.strong_induction_on with
  | _ n ih =>
    rw [Nat.toDigits_eq_if hb]
    split
    · simp [digitsFrom?, digitValue?_digitChar n (by omega), *]
    · have hmod : n % base < base := Nat.mod_lt _ (by omega)
      rw [digitsFrom?_append, ih _ (Nat.div_lt_self (by omega) hb)]
      simp only [Option.bind_some, digitsFrom?, digitValue?_digitChar (n % base) (by omega), hmod, if_true,
        Nat.div_add_mod']

theorem toDigits_ne_nil {base : Nat} (hb : 1 < base) (n : Nat) : Nat.toDigits base n ≠ [] := by
  rw [Nat.toDigits_eq_if hb]
  split <;> simp

theorem digits?_toDigits {base : Nat} (hb : 1 < base) (hb' : base ≤ 16) (n : Nat) :
    digits? base (Nat.toDigits base n) = some n := by
  rw [digits?, if_neg (toDigits_ne_nil hb n), digitsFrom?_toDigits hb hb']

/-- A character that is a digit of a base. -/
abbrev IsDigit (base : Nat) (c : Char) : Prop := ∃ d, digitValue? c = some d ∧ d < base

theorem digitsFrom?_isSome (base : Nat) (cs : Token) (acc : Nat) :
    (∃ n, digitsFrom? base acc cs = some n) ↔ ∀ c ∈ cs, IsDigit base c := by
  induction cs generalizing acc with
  | nil => simp [digitsFrom?]
  | cons c cs ih =>
    simp only [digitsFrom?, List.mem_cons, forall_eq_or_imp]
    rcases hd : digitValue? c with _ | d
    · simp [hd]
    · simp only
      split
      · rename_i h
        rw [ih]
        exact ⟨fun h' => ⟨⟨d, hd, h⟩, h'⟩, And.right⟩
      · rename_i h
        constructor
        · simp
        · rintro ⟨⟨d', h1, h2⟩, -⟩
          rw [hd] at h1
          cases h1
          exact absurd h2 h

/-- A digit sequence is one or more digits of its base (R112). -/
theorem digits?_isSome (base : Nat) (cs : Token) :
    (∃ n, digits? base cs = some n) ↔ cs ≠ [] ∧ ∀ c ∈ cs, IsDigit base c := by
  unfold digits?
  by_cases h : cs = []
  · simp [h]
  · simp only [h, if_false, ne_eq, not_false_eq_true, true_and]
    exact digitsFrom?_isSome base cs 0

/-! ### Classification -/

theorem regToken?_eq_none {t : Token} (ha : t ≠ ['a']) (hx : t ≠ ['x']) (hy : t ≠ ['y']) : regToken? t = none := by
  unfold regToken?
  split <;> first | rfl | contradiction

/-- A token in a value position raises InvalidToken or InvalidOperand or nothing (R111). -/
theorem classify_error {t : Token} {e : Error} (h : classify t = .error e) : e = .invalidToken ∨ e = .invalidOperand := by
  unfold classify at h
  split at h
  · cases h
  · split at h
    · cases h; exact .inr rfl
    · split at h
      · cases h
      · split at h <;> cases h
        exact .inl rfl

/-- A token in a location position raises InvalidToken or InvalidOperand or nothing (R113). -/
theorem classifyLocation_error {t : Token} {e : Error} (h : classifyLocation t = .error e) :
    e = .invalidToken ∨ e = .invalidOperand := by
  unfold classifyLocation at h
  split at h <;> cases h
  · exact .inr rfl
  · exact classify_error ‹_›

/-- A jump target raises InvalidToken, InvalidOperand or UndefinedLabel or nothing (R114). -/
theorem classifyTarget_error {labels : LabelTable} {t : Token} {e : Error} (h : classifyTarget labels t = .error e) :
    e = .invalidToken ∨ e = .invalidOperand ∨ e = .undefinedLabel := by
  unfold classifyTarget at h
  split at h
  · cases h; simp
  · split at h
    · cases h; simp
    · split at h
      · cases h
      · split at h
        · split at h <;> cases h
          simp
        · cases h; simp

theorem noSecondOperand_error {t : Token} {e : Error} (h : noSecondOperand t = .error e) : e = .invalidOperand := by
  unfold noSecondOperand at h
  split at h <;> cases h
  rfl

/-- Decoding a record raises one of four errors or nothing (R117). -/
theorem decodeRecord_error {labels : LabelTable} {r : InstrRecord} {e : Error} (h : decodeRecord labels r = .error e) :
    (textOp? r.mnemonic = none ∧ e = .invalidOpcode) ∨
      (textOp? r.mnemonic ≠ none ∧ (e = .invalidToken ∨ e = .invalidOperand)) ∨
      ((∃ c, textOp? r.mnemonic = some (.jump c)) ∧ e = .undefinedLabel) := by
  unfold decodeRecord at h
  cases ho : textOp? r.mnemonic with
  | none => rw [ho] at h; cases h; exact .inl ⟨rfl, rfl⟩
  | some op =>
    rw [ho] at h
    simp only at h
    suffices (e = .invalidToken ∨ e = .invalidOperand) ∨ (∃ c, op = .jump c) ∧ e = .undefinedLabel by
      obtain he | ⟨⟨c, rfl⟩, he⟩ := this
      · exact .inr (.inl ⟨by simp, he⟩)
      · exact .inr (.inr ⟨⟨c, rfl⟩, he⟩)
    cases op with
    | ds d =>
      obtain h | ⟨_, -, h⟩ := bind_eq_error h
      · exact .inl (classifyLocation_error h)
      obtain h | ⟨_, -, h⟩ := bind_eq_error h
      · exact .inl (classify_error h)
      cases h
    | cmp =>
      obtain h | ⟨_, -, h⟩ := bind_eq_error h
      · exact .inl (classify_error h)
      obtain h | ⟨_, -, h⟩ := bind_eq_error h
      · exact .inl (classify_error h)
      cases h
    | push =>
      obtain h | ⟨_, -, h⟩ := bind_eq_error h
      · exact .inl (classify_error h)
      obtain h | ⟨_, -, h⟩ := bind_eq_error h
      · exact .inl (.inr (noSecondOperand_error h))
      cases h
    | pop =>
      obtain h | ⟨_, -, h⟩ := bind_eq_error h
      · exact .inl (classifyLocation_error h)
      obtain h | ⟨_, -, h⟩ := bind_eq_error h
      · exact .inl (.inr (noSecondOperand_error h))
      cases h
    | jump c =>
      obtain h | ⟨_, -, h⟩ := bind_eq_error h
      · obtain h | h | h := classifyTarget_error h
        · exact .inl (.inl h)
        · exact .inl (.inr h)
        · exact .inr ⟨⟨c, rfl⟩, h⟩
      obtain h | ⟨_, -, h⟩ := bind_eq_error h
      · exact .inl (.inr (noSecondOperand_error h))
      cases h

/-! ### What an operation resolves to -/

theorem resolveRecord_ds {labels : LabelTable} {d : DsOp} {p1 p2 : Token} {i : Instr}
    (h : resolveRecord labels (.ds d) p1 p2 = .ok i) : ∃ dst src, i = .ds d dst src := by
  obtain ⟨dst, -, h⟩ := bind_eq_ok h
  obtain ⟨src, -, h⟩ := bind_eq_ok h
  cases h
  exact ⟨dst, src, rfl⟩

theorem resolveRecord_cmp {labels : LabelTable} {p1 p2 : Token} {i : Instr}
    (h : resolveRecord labels .cmp p1 p2 = .ok i) : ∃ u w, i = .cmp u w := by
  obtain ⟨u, -, h⟩ := bind_eq_ok h
  obtain ⟨w, -, h⟩ := bind_eq_ok h
  cases h
  exact ⟨u, w, rfl⟩

theorem resolveRecord_push {labels : LabelTable} {p1 p2 : Token} {i : Instr}
    (h : resolveRecord labels .push p1 p2 = .ok i) : ∃ src, i = .push src := by
  obtain ⟨src, -, h⟩ := bind_eq_ok h
  obtain ⟨_, -, h⟩ := bind_eq_ok h
  cases h
  exact ⟨src, rfl⟩

theorem resolveRecord_pop {labels : LabelTable} {p1 p2 : Token} {i : Instr}
    (h : resolveRecord labels .pop p1 p2 = .ok i) : ∃ dst, i = .pop dst := by
  obtain ⟨dst, -, h⟩ := bind_eq_ok h
  obtain ⟨_, -, h⟩ := bind_eq_ok h
  cases h
  exact ⟨dst, rfl⟩

theorem resolveRecord_jump {labels : LabelTable} {c : Cond} {p1 p2 : Token} {i : Instr}
    (h : resolveRecord labels (.jump c) p1 p2 = .ok i) :
    ∃ t, i = .jump c t ∧ classifyTarget labels p1 = .ok t ∧ noSecondOperand p2 = .ok () := by
  obtain ⟨t, h1, h⟩ := bind_eq_ok h
  obtain ⟨_, h2, h⟩ := bind_eq_ok h
  cases h
  exact ⟨t, rfl, h1, h2⟩

/-! ### Lookup -/

theorem lookupMnemonic?_eq_none (table : List (Token × TextOp)) (m : Token) :
    lookupMnemonic? table m = none ↔ m ∉ table.map Prod.fst := by
  induction table with
  | nil => simp [lookupMnemonic?]
  | cons entry table ih =>
    obtain ⟨name, op⟩ := entry
    by_cases h : name = m
    · simp [lookupMnemonic?, h]
    · simp [lookupMnemonic?, h, ih, Ne.symm h]

theorem lookupLabel?_eq_none {labels : LabelTable} {name : Token} (h : ∀ l ∈ labels, l.1 ≠ name) :
    lookupLabel? labels name = none := by
  induction labels with
  | nil => rfl
  | cons entry labels ih =>
    obtain ⟨n, t⟩ := entry
    simp only [lookupLabel?]
    rw [if_neg (h (n, t) (by simp)), ih fun l hl => h l (by simp [hl])]

theorem lookupLabel?_of_mem {labels : LabelTable} {name : Token} {t : Word16} (hn : (labels.map Prod.fst).Nodup)
    (h : (name, t) ∈ labels) : lookupLabel? labels name = some t := by
  induction labels with
  | nil => cases h
  | cons entry labels ih =>
    obtain ⟨n, q⟩ := entry
    simp only [List.map_cons, List.nodup_cons] at hn
    simp only [lookupLabel?]
    obtain h | h := List.mem_cons.1 h
    · cases h; simp
    · rw [if_neg, ih hn.2 h]
      rintro rfl
      exact hn.1 (List.mem_map.2 ⟨_, h, rfl⟩)

end Sys2Proof.Machine
end

