-- ==== Sys2Proof/Laws/Load.lean ====
section
/-! SUPPORT. Loading: case folding, the tokens a line can give, what the pre-pass keeps, and where the assembler puts a record. -/

namespace Sys2Proof.Machine

/-! ### Case folding (R101) -/

/-- A character is left as it is by case folding, or is one of `A` to `Z`. -/
theorem toLower_cases (c : Char) :
    (c.isUpper = false ∧ c.toLower = c) ∨ ∃ n, 65 ≤ n ∧ n ≤ 90 ∧ c = Char.ofNat n := by
  by_cases h : 65 ≤ c.toNat ∧ c.toNat ≤ 90
  · exact .inr ⟨c.toNat, h.1, h.2, (Char.ofNat_toNat c).symm⟩
  · have hv : ¬(65 ≤ c.val ∧ c.val ≤ 90) := by rw [UInt32.le_iff_toNat_le, UInt32.le_iff_toNat_le]; exact h
    refine .inl ⟨?_, ?_⟩
    · simp only [Char.isUpper, ge_iff_le, decide_eq_false_iff_not]
      exact hv
    · unfold Char.toLower
      split
      · rename_i h'
        exact absurd h' hv
      · rfl

theorem isUpper_toLower (c : Char) : c.toLower.isUpper = false := by
  obtain ⟨h, hc⟩ | ⟨n, h1, h2, rfl⟩ := toLower_cases c
  · rw [hc, h]
  · interval_cases n <;> decide

theorem toLower_toLower (c : Char) : c.toLower.toLower = c.toLower := by
  obtain ⟨-, hc⟩ | ⟨n, h1, h2, rfl⟩ := toLower_cases c
  · rw [hc, hc]
  · interval_cases n <;> decide

theorem toLower_semicolon (c : Char) : (c.toLower != ';') = (c != ';') := by
  obtain ⟨-, hc⟩ | ⟨n, h1, h2, rfl⟩ := toLower_cases c
  · rw [hc]
  · interval_cases n <;> decide

theorem isBlank_toLower (c : Char) : isBlank c.toLower = isBlank c := by
  obtain ⟨-, hc⟩ | ⟨n, h1, h2, rfl⟩ := toLower_cases c
  · rw [hc]
  · interval_cases n <;> decide

theorem takeWhile_map_of {p : Char → Bool} {f : Char → Char} (h : ∀ c, p (f c) = p c) (t : Token) :
    (t.map f).takeWhile p = (t.takeWhile p).map f := by
  rw [List.takeWhile_map]
  congr 2
  funext c
  exact h c

theorem dropWhile_map_of {p : Char → Bool} {f : Char → Char} (h : ∀ c, p (f c) = p c) (t : Token) :
    (t.map f).dropWhile p = (t.dropWhile p).map f := by
  rw [List.dropWhile_map]
  congr 2
  funext c
  exact h c

theorem trim_map_toLower (t : Token) : trim (t.map Char.toLower) = (trim t).map Char.toLower := by
  unfold trim
  rw [dropWhile_map_of isBlank_toLower, ← List.map_reverse, dropWhile_map_of isBlank_toLower, List.map_reverse]

theorem stripComment_map_toLower (t : Token) : stripComment (t.map Char.toLower) = (stripComment t).map Char.toLower :=
  takeWhile_map_of toLower_semicolon t

theorem foldCase_map_toLower (t : Token) : foldCase (t.map Char.toLower) = foldCase t := by
  unfold foldCase
  rw [List.map_map]
  congr 1
  funext c
  exact toLower_toLower c

theorem foldCase_not_upper (t : Token) : ∀ c ∈ foldCase t, c.isUpper = false := by
  intro c hc
  obtain ⟨d, -, rfl⟩ := List.mem_map.1 hc
  exact isUpper_toLower d

/-! ### The characters of a line's tokens -/

theorem mem_of_mem_trim {c : Char} {t : Token} (h : c ∈ trim t) : c ∈ t := by
  unfold trim at h
  have h1 := (List.dropWhile_suffix _).subset (List.mem_reverse.1 h)
  exact (List.dropWhile_suffix _).subset (List.mem_reverse.1 h1)

theorem mem_of_mem_takeWhile {p : Char → Bool} {c : Char} {t : Token} (h : c ∈ t.takeWhile p) : c ∈ t :=
  (List.takeWhile_prefix _).subset h

theorem mem_of_mem_dropWhile {p : Char → Bool} {c : Char} {t : Token} (h : c ∈ t.dropWhile p) : c ∈ t :=
  (List.dropWhile_suffix _).subset h

/-- Operand tokens hold characters of the text they are split from. -/
theorem splitOperands_mem {t p1 p2 : Token} (h : splitOperands t = .ok (p1, p2)) :
    (∀ c ∈ p1, c ∈ t) ∧ ∀ c ∈ p2, c ∈ t := by
  unfold splitOperands at h
  simp only at h
  split at h
  · cases h
    exact ⟨fun c hc => mem_of_mem_trim hc, by simp⟩
  · rename_i hd
    split at h
    · cases h
      refine ⟨fun c hc => mem_of_mem_takeWhile (mem_of_mem_trim hc), fun c hc => ?_⟩
      apply mem_of_mem_dropWhile (p := fun c => c != ',')
      rw [hd]
      exact List.mem_cons_of_mem _ (mem_of_mem_trim hc)
    · cases h

/-- The record of an instruction line holds characters of that line. -/
theorem parseInstruction_record_mem {t : Token} {r : InstrRecord} (h : parseInstruction t = .ok (.record r)) :
    (∀ c ∈ r.mnemonic, c ∈ t) ∧ (∀ c ∈ r.param1, c ∈ t) ∧ ∀ c ∈ r.param2, c ∈ t := by
  unfold parseInstruction at h
  simp only at h
  split at h
  · rename_i hs
    cases h
    obtain ⟨h1, h2⟩ := splitOperands_mem hs
    exact ⟨fun c hc => mem_of_mem_takeWhile hc, fun c hc => mem_of_mem_dropWhile (h1 c hc),
      fun c hc => mem_of_mem_dropWhile (h2 c hc)⟩
  · cases h

theorem parseInstruction_ne_label (t name : Token) : parseInstruction t ≠ .ok (.label name) := by
  unfold parseInstruction
  simp only
  split <;> simp

theorem parseInstruction_error {t : Token} {e : Error} (h : parseInstruction t = .error e) : e = .invalidToken := by
  unfold parseInstruction at h
  simp only at h
  split at h
  · cases h
  · rename_i hs
    cases h
    unfold splitOperands at hs
    simp only at hs
    split at hs
    · cases hs
    · split at hs <;> cases hs
      rfl

/-- A line is refused with InvalidToken alone (R103, R213). -/
theorem parseLine_error {line : Token} {e : Error} (h : parseLine line = .error e) : e = .invalidToken := by
  unfold parseLine at h
  simp only at h
  split at h
  · cases h
  · split at h
    · split at h <;> cases h
      rfl
    · exact parseInstruction_error h
  · exact parseInstruction_error h

/-- A label is an identifier (R102). -/
theorem parseLine_label {line name : Token} (h : parseLine line = .ok (.label name)) : isIdentifier name = true := by
  unfold parseLine at h
  simp only at h
  split at h
  · cases h
  · split at h
    · split at h <;> cases h
      assumption
    · exact absurd h (parseInstruction_ne_label _ _)
  · exact absurd h (parseInstruction_ne_label _ _)

/-- No character of a record is upper-case (R101). -/
theorem parseLine_record {line : Token} {r : InstrRecord} (h : parseLine line = .ok (.record r)) :
    (∀ c ∈ r.mnemonic, c.isUpper = false) ∧ (∀ c ∈ r.param1, c.isUpper = false) ∧ ∀ c ∈ r.param2, c.isUpper = false := by
  have hlow := foldCase_not_upper (trim (stripComment line))
  have key : parseInstruction (foldCase (trim (stripComment line))) = .ok (.record r) := by
    unfold parseLine at h
    simp only at h
    split at h
    · cases h
    · split at h
      · split at h <;> cases h
      · exact h
    · exact h
  obtain ⟨h1, h2, h3⟩ := parseInstruction_record_mem key
  exact ⟨fun c hc => hlow c (h1 c hc), fun c hc => hlow c (h2 c hc), fun c hc => hlow c (h3 c hc)⟩

/-! ### The pre-pass -/

/-- The pre-pass fails with DuplicateLabel or InvalidToken. -/
theorem prepassFrom_error (lines : List Token) (n : Nat) (table : LabelCounts) (e : Error)
    (h : prepassFrom lines n table = .error e) : e = .duplicateLabel ∨ e = .invalidToken := by
  induction lines generalizing n table e with
  | nil => cases h
  | cons line lines ih =>
    simp only [prepassFrom] at h
    split at h
    · rename_i hp
      cases h
      exact .inr (parseLine_error hp)
    · exact ih _ _ _ h
    · split at h
      · cases h; exact .inl rfl
      · exact ih _ _ _ h
    · split at h
      · cases h
      · rename_i hp
        cases h
        exact ih _ _ _ hp

/-- The labels found first stay first. -/
theorem prepassFrom_table {lines : List Token} {n : Nat} {table table' : LabelCounts} {records : List InstrRecord}
    (h : prepassFrom lines n table = .ok (records, table')) : table <+: table' := by
  induction lines generalizing n table table' records with
  | nil => cases h; exact List.prefix_rfl
  | cons line lines ih =>
    simp only [prepassFrom] at h
    split at h
    · cases h
    · exact ih h
    · split at h
      · cases h
      · exact (List.prefix_append _ _).trans (ih h)
    · split at h
      · rename_i hp; cases h; exact ih hp
      · cases h

/-- No label's value is beyond the number of records (R103). -/
theorem prepassFrom_bound {lines : List Token} {n : Nat} {table table' : LabelCounts} {records : List InstrRecord}
    (h : prepassFrom lines n table = .ok (records, table')) (hb : ∀ l ∈ table, l.2 ≤ n) :
    ∀ l ∈ table', l.2 ≤ n + records.length := by
  induction lines generalizing n table table' records with
  | nil => cases h; simpa using hb
  | cons line lines ih =>
    simp only [prepassFrom] at h
    split at h
    · cases h
    · exact ih h hb
    · split at h
      · cases h
      · refine ih h fun l hl => ?_
        obtain hl | rfl : l ∈ table ∨ l = _ := by simpa using hl
        · exact hb l hl
        · exact le_rfl
    · split at h
      · rename_i hp
        cases h
        intro l hl
        have := ih hp (fun l hl => (hb l hl).trans (Nat.le_succ _)) l hl
        simp only [List.length_cons]
        omega
      · cases h

/-- Labels are identifiers, each defined once (R104). -/
theorem prepassFrom_labels {lines : List Token} {n : Nat} {table table' : LabelCounts} {records : List InstrRecord}
    (h : prepassFrom lines n table = .ok (records, table'))
    (hb : (table.map Prod.fst).Nodup ∧ ∀ l ∈ table, isIdentifier l.1 = true) :
    (table'.map Prod.fst).Nodup ∧ ∀ l ∈ table', isIdentifier l.1 = true := by
  induction lines generalizing n table table' records with
  | nil => cases h; exact hb
  | cons line lines ih =>
    simp only [prepassFrom] at h
    split at h
    · cases h
    · exact ih h hb
    · rename_i name hl
      split at h
      · cases h
      · rename_i hc
        have hc' : name ∉ table.map Prod.fst := by simpa using hc
        refine ih h ⟨?_, fun l hl' => ?_⟩
        · rw [List.map_append, List.nodup_append]
          refine ⟨hb.1, by simp, ?_⟩
          rintro a ha b hb' rfl
          obtain rfl : a = name := by simpa using hb'
          exact hc' ha
        · obtain hl' | rfl : l ∈ table ∨ l = (name, n) := by simpa using hl'
          · exact hb.2 l hl'
          · exact parseLine_label hl
    · split at h
      · rename_i hp; cases h; exact ih hp hb
      · cases h

/-- Every record of the pre-pass is a line's. -/
theorem prepassFrom_records {lines : List Token} {n : Nat} {table table' : LabelCounts} {records : List InstrRecord}
    (h : prepassFrom lines n table = .ok (records, table')) :
    ∀ r ∈ records, ∃ line ∈ lines, parseLine line = .ok (.record r) := by
  induction lines generalizing n table table' records with
  | nil => cases h; simp
  | cons line lines ih =>
    have lift : ∀ {r : InstrRecord}, (∃ l ∈ lines, parseLine l = .ok (.record r)) →
        ∃ l ∈ line :: lines, parseLine l = .ok (.record r) :=
      fun ⟨l, hl, hr⟩ => ⟨l, List.mem_cons_of_mem _ hl, hr⟩
    simp only [prepassFrom] at h
    split at h
    · cases h
    · exact fun r hr => lift (ih h r hr)
    · split at h
      · cases h
      · exact fun r hr => lift (ih h r hr)
    · rename_i r hl
      split at h
      · rename_i hp
        cases h
        intro r' hr'
        obtain rfl | hr' := List.mem_cons.1 hr'
        · exact ⟨line, by simp, hl⟩
        · exact lift (ih hp r' hr')
      · cases h

/-- The pre-pass of lines followed by others is the pre-pass of the first, then of the rest with its count and its labels. -/
theorem prepassFrom_append {first rest : List Token} {n : Nat} {table table' : LabelCounts} {records : List InstrRecord}
    (h : prepassFrom (first ++ rest) n table = .ok (records, table')) :
    ∃ records1 records2 table1, prepassFrom first n table = .ok (records1, table1) ∧
      prepassFrom rest (n + records1.length) table1 = .ok (records2, table') ∧ records = records1 ++ records2 := by
  induction first generalizing n table table' records with
  | nil => exact ⟨[], _, _, rfl, h, rfl⟩
  | cons line lines ih =>
    simp only [List.cons_append, prepassFrom] at h ⊢
    split at h
    · cases h
    · exact ih h
    · split at h
      · cases h
      · rename_i hc
        rw [if_neg hc]
        exact ih h
    · split at h
      · rename_i hp
        cases h
        obtain ⟨r1, r2, t1, h1, h2, h3⟩ := ih hp
        rw [h1]
        refine ⟨_ :: r1, r2, t1, rfl, ?_, by rw [h3]; rfl⟩
        rw [List.length_cons, show n + (r1.length + 1) = n + 1 + r1.length by omega]
        exact h2
      · cases h

/-! ### The assembler (R108) -/

/-- A record's size is the length of its encoding. -/
theorem recordSize?_of_assembleInstr {labels : LabelTable} {r : InstrRecord} {i : Instr}
    (h : assembleInstr labels r = .ok i) : recordSize? r = some (encode i).length := by
  unfold assembleInstr at h
  unfold recordSize?
  split at h
  · rename_i hc
    rw [if_pos hc]
    split at h
    · split at h
      · split at h
        · cases h; rfl
        · cases h
      · cases h
    · cases h
  · rename_i hc
    rw [if_neg hc]
    unfold decodeRecord at h
    cases ho : textOp? r.mnemonic with
    | none => rw [ho] at h; cases h
    | some op =>
      rw [ho] at h
      simp only at h
      cases op with
      | ds d => obtain ⟨dst, src, rfl⟩ := resolveRecord_ds h; rw [encode_ds]; rfl
      | cmp => obtain ⟨u, w, rfl⟩ := resolveRecord_cmp h; rw [encode_cmp]; rfl
      | push => obtain ⟨src, rfl⟩ := resolveRecord_push h; rw [encode_push]; rfl
      | pop => obtain ⟨dst, rfl⟩ := resolveRecord_pop h; rw [encode_pop]; rfl
      | jump c => obtain ⟨t, rfl, -⟩ := resolveRecord_jump h; rw [encode_jump]; rfl

/-- Where the assembler puts a record: at its byte address stands its encoding, and the next record's address follows it. -/
theorem assembleRecords_at {labels : LabelTable} {records : List InstrRecord} {image : List Byte}
    (h : assembleRecords labels records = .ok image) {k : Nat} {r : InstrRecord} (hk : records[k]? = some r) :
    ∃ i rest, assembleInstr labels r = .ok i ∧ i.wf .binary = true ∧
      image.drop (byteAddress records k) = encode i ++ rest ∧
      byteAddress records (k + 1) = byteAddress records k + (encode i).length ∧
      byteAddress records k + (encode i).length ≤ image.length := by
  induction records generalizing image k r with
  | nil => simp at hk
  | cons r0 records ih =>
    simp only [assembleRecords] at h
    split at h
    · rename_i bytes hb
      split at h
      · rename_i rest hrest
        cases h
        unfold assembleRecord at hb
        split at hb
        · rename_i i hi
          split at hb
          · rename_i hw
            cases hb
            have hsize := recordSize?_of_assembleInstr hi
            have hstep : ∀ k, byteAddress (r0 :: records) (k + 1) = (encode i).length + byteAddress records k := by
              intro k
              simp [byteAddress, hsize]
            cases k with
            | zero =>
              obtain rfl : r0 = r := by simpa using hk
              exact ⟨i, rest, hi, hw, by simp [byteAddress], by simp [byteAddress, hsize], by simp [byteAddress]⟩
            | succ k =>
              obtain ⟨i', rest', h1, h2, h3, h4, h5⟩ := ih hrest (by simpa using hk)
              refine ⟨i', rest', h1, h2, ?_, ?_, ?_⟩
              · rw [hstep, List.drop_append]
                simp [h3]
              · rw [hstep, hstep, h4]
                omega
              · rw [hstep, List.length_append]
                omega
          · cases hb
        · cases hb
      · cases h
    · cases h

end Sys2Proof.Machine
end

