-- ==== Sys2Proof/Laws/Memory.lean ====
section
/-! SUPPORT. The laws of byte stores: reading after a write, and the canonical form every operation keeps. The reading laws hold
for every list, canonical or not. -/

namespace Sys2Proof.Machine

@[simp] theorem Memory.read_nil (addr : Nat) : Memory.read [] addr = Memory.unlisted := rfl

/-! ### Reading -/

theorem Memory.read_erase (m : Memory) (addr k : Nat) :
    (m.erase addr).read k = if k = addr then Memory.unlisted else m.read k := by
  induction m with
  | nil => simp [Memory.erase]
  | cons c m ih =>
    obtain ⟨key, v⟩ := c
    by_cases h : key = addr
    · rw [show Memory.erase ((key, v) :: m) addr = Memory.erase m addr by simp [Memory.erase, h], ih]
      by_cases hk : k = addr
      · simp [hk]
      · simp [hk, Memory.read, h, Ne.symm hk]
    · rw [show Memory.erase ((key, v) :: m) addr = (key, v) :: Memory.erase m addr by simp [Memory.erase, h]]
      simp only [Memory.read, ih]
      by_cases hk : key = k
      · subst hk; simp [h]
      · simp [hk]

/-- No entry of an address is left by `erase`. -/
theorem Memory.erase_ne (m : Memory) (addr : Nat) : ∀ c ∈ m.erase addr, c.1 ≠ addr := by
  induction m with
  | nil => simp [Memory.erase]
  | cons c m ih =>
    obtain ⟨key, v⟩ := c
    by_cases h : key = addr
    · simpa [Memory.erase, h] using ih
    · simpa [Memory.erase, h] using ih

theorem Memory.read_insert (m : Memory) (addr k : Nat) (b : Byte) (hm : ∀ c ∈ m, c.1 ≠ addr) :
    (m.insert addr b).read k = if k = addr then b else m.read k := by
  induction m with
  | nil => simp only [Memory.insert, Memory.read, eq_comm]
  | cons c m ih =>
    obtain ⟨key, v⟩ := c
    have hkey : key ≠ addr := hm (key, v) (by simp)
    have ih' := ih fun c hc => hm c (by simp [hc])
    by_cases h : addr < key
    · simp only [Memory.insert, if_pos h, Memory.read, eq_comm]
    · simp only [Memory.insert, if_neg h, Memory.read, ih']
      by_cases hk : key = k
      · subst hk; simp [hkey]
      · simp [hk]

/-- Reading after a write: the byte written at its address, every other address as before. -/
theorem Memory.read_write (m : Memory) (addr k : Nat) (b : Byte) :
    (m.write addr b).read k = if k = addr then b else m.read k := by
  by_cases h : b = Memory.unlisted
  · simp [Memory.write, h, Memory.read_erase]
  · simp only [Memory.write, if_neg h]
    rw [Memory.read_insert _ _ _ _ (m.erase_ne addr), Memory.read_erase]
    by_cases hk : k = addr <;> simp [hk]

@[simp] theorem Memory.read_write_same (m : Memory) (addr : Nat) (b : Byte) : (m.write addr b).read addr = b := by
  simp [Memory.read_write]

theorem Memory.read_write_other (m : Memory) (addr k : Nat) (b : Byte) (h : k ≠ addr) :
    (m.write addr b).read k = m.read k := by
  simp [Memory.read_write, h]

/-! ### The canonical form -/

theorem Memory.erase_sublist (m : Memory) (addr : Nat) : (m.erase addr).Sublist m := by
  induction m with
  | nil => simp [Memory.erase]
  | cons c m ih =>
    obtain ⟨key, v⟩ := c
    by_cases h : key = addr
    · simpa [Memory.erase, h] using ih.cons (key, v)
    · simpa [Memory.erase, h] using ih

theorem Memory.wf_erase (m : Memory) (addr : Nat) (h : m.wf) : (m.erase addr).wf :=
  ⟨h.1.sublist (m.erase_sublist addr), fun c hc => h.2 c ((m.erase_sublist addr).subset hc)⟩

theorem Memory.mem_insert (m : Memory) (addr : Nat) (b : Byte) (c : Host.Cell) :
    c ∈ m.insert addr b ↔ c = (addr, b) ∨ c ∈ m := by
  induction m with
  | nil => simp [Memory.insert]
  | cons d m ih =>
    obtain ⟨key, v⟩ := d
    by_cases h : addr < key
    · simp [Memory.insert, h]
    · simp only [Memory.insert, if_neg h, List.mem_cons, ih]
      tauto

theorem Memory.wf_insert (m : Memory) (addr : Nat) (b : Byte) (h : m.wf) (hm : ∀ c ∈ m, c.1 ≠ addr)
    (hb : b ≠ Memory.unlisted) : (m.insert addr b).wf := by
  refine ⟨?_, fun c hc => ?_⟩
  · have hs := h.1
    clear h
    induction m with
    | nil => simp [Memory.insert]
    | cons d m ih =>
      obtain ⟨key, v⟩ := d
      have hkey : key ≠ addr := hm (key, v) (by simp)
      rw [List.pairwise_cons] at hs
      by_cases hlt : addr < key
      · simp only [Memory.insert, if_pos hlt, List.pairwise_cons, List.mem_cons]
        refine ⟨?_, hs⟩
        rintro c (rfl | hc)
        · exact hlt
        · exact hlt.trans (hs.1 c hc)
      · simp only [Memory.insert, if_neg hlt, List.pairwise_cons, Memory.mem_insert]
        refine ⟨?_, ih (fun c hc => hm c (by simp [hc])) hs.2⟩
        rintro c (rfl | hc)
        · show key < addr
          omega
        · exact hs.1 c hc
  · rcases (Memory.mem_insert m addr b c).1 hc with rfl | hc'
    · exact hb
    · exact h.2 c hc'

/-- A write keeps the canonical form. -/
theorem Memory.wf_write (m : Memory) (addr : Nat) (b : Byte) (h : m.wf) : (m.write addr b).wf := by
  by_cases hb : b = Memory.unlisted
  · simpa only [Memory.write, if_pos hb] using m.wf_erase addr h
  · simpa only [Memory.write, if_neg hb] using
      (m.erase addr).wf_insert addr b (m.wf_erase addr h) (m.erase_ne addr) hb

/-- A write lists no address but its own and those listed before. -/
theorem Memory.write_lists (m : Memory) (addr : Nat) (b : Byte) : ∀ c ∈ m.write addr b, c.1 = addr ∨ c ∈ m := by
  intro c hc
  by_cases hb : b = Memory.unlisted
  · rw [Memory.write, if_pos hb] at hc
    exact .inr ((m.erase_sublist addr).subset hc)
  · rw [Memory.write, if_neg hb] at hc
    rcases (Memory.mem_insert _ _ _ _).1 hc with rfl | hc'
    · exact .inl rfl
    · exact .inr ((m.erase_sublist addr).subset hc')

/-- An empty store is in canonical form. -/
theorem Memory.wf_nil : Memory.wf [] := by decide

end Sys2Proof.Machine
end

