-- ==== Sys2Proof/Laws/State.lean ====
section
/-! SUPPORT. What each update of State leaves in each field: one simp lemma per field per update. -/

namespace Sys2Proof.Machine

/-! ### `setPc` -/

@[simp] theorem State.setPc_a (s : State) (t : Word16) : (s.setPc t).a = s.a := rfl
@[simp] theorem State.setPc_x (s : State) (t : Word16) : (s.setPc t).x = s.x := rfl
@[simp] theorem State.setPc_y (s : State) (t : Word16) : (s.setPc t).y = s.y := rfl
@[simp] theorem State.setPc_p (s : State) (t : Word16) : (s.setPc t).p = s.p := rfl
@[simp] theorem State.setPc_pc (s : State) (t : Word16) : (s.setPc t).pc = t := rfl
@[simp] theorem State.setPc_sp (s : State) (t : Word16) : (s.setPc t).sp = s.sp := rfl
@[simp] theorem State.setPc_stk (s : State) (t : Word16) : (s.setPc t).stk = s.stk := rfl
@[simp] theorem State.setPc_ram (s : State) (t : Word16) : (s.setPc t).ram = s.ram := rfl
@[simp] theorem State.setPc_video (s : State) (t : Word16) : (s.setPc t).video = s.video := rfl
@[simp] theorem State.setPc_rom (s : State) (t : Word16) : (s.setPc t).rom = s.rom := rfl
@[simp] theorem State.setPc_labels (s : State) (t : Word16) : (s.setPc t).labels = s.labels := rfl
@[simp] theorem State.setPc_stepResult (s : State) (t : Word16) : (s.setPc t).stepResult = s.stepResult := rfl
@[simp] theorem State.setPc_frontEnd (s : State) (t : Word16) : (s.setPc t).frontEnd = s.frontEnd := rfl
@[simp] theorem State.setPc_len (s : State) (t : Word16) : (s.setPc t).len = s.len := rfl
@[simp] theorem State.setPc_reg (s : State) (t : Word16) (r : Reg) : (s.setPc t).reg r = s.reg r := rfl

/-! ### `setP` -/

@[simp] theorem State.setP_a (s : State) (v : Byte) : (s.setP v).a = s.a := rfl
@[simp] theorem State.setP_x (s : State) (v : Byte) : (s.setP v).x = s.x := rfl
@[simp] theorem State.setP_y (s : State) (v : Byte) : (s.setP v).y = s.y := rfl
@[simp] theorem State.setP_p (s : State) (v : Byte) : (s.setP v).p = v := rfl
@[simp] theorem State.setP_pc (s : State) (v : Byte) : (s.setP v).pc = s.pc := rfl
@[simp] theorem State.setP_sp (s : State) (v : Byte) : (s.setP v).sp = s.sp := rfl
@[simp] theorem State.setP_stk (s : State) (v : Byte) : (s.setP v).stk = s.stk := rfl
@[simp] theorem State.setP_ram (s : State) (v : Byte) : (s.setP v).ram = s.ram := rfl
@[simp] theorem State.setP_video (s : State) (v : Byte) : (s.setP v).video = s.video := rfl
@[simp] theorem State.setP_rom (s : State) (v : Byte) : (s.setP v).rom = s.rom := rfl
@[simp] theorem State.setP_labels (s : State) (v : Byte) : (s.setP v).labels = s.labels := rfl
@[simp] theorem State.setP_stepResult (s : State) (v : Byte) : (s.setP v).stepResult = s.stepResult := rfl
@[simp] theorem State.setP_frontEnd (s : State) (v : Byte) : (s.setP v).frontEnd = s.frontEnd := rfl
@[simp] theorem State.setP_len (s : State) (v : Byte) : (s.setP v).len = s.len := rfl
@[simp] theorem State.setP_reg (s : State) (v : Byte) (r : Reg) : (s.setP v).reg r = s.reg r := rfl

/-! ### `setResult` -/

@[simp] theorem State.setResult_a (s : State) (q : StepResult) : (s.setResult q).a = s.a := rfl
@[simp] theorem State.setResult_x (s : State) (q : StepResult) : (s.setResult q).x = s.x := rfl
@[simp] theorem State.setResult_y (s : State) (q : StepResult) : (s.setResult q).y = s.y := rfl
@[simp] theorem State.setResult_p (s : State) (q : StepResult) : (s.setResult q).p = s.p := rfl
@[simp] theorem State.setResult_pc (s : State) (q : StepResult) : (s.setResult q).pc = s.pc := rfl
@[simp] theorem State.setResult_sp (s : State) (q : StepResult) : (s.setResult q).sp = s.sp := rfl
@[simp] theorem State.setResult_stk (s : State) (q : StepResult) : (s.setResult q).stk = s.stk := rfl
@[simp] theorem State.setResult_ram (s : State) (q : StepResult) : (s.setResult q).ram = s.ram := rfl
@[simp] theorem State.setResult_video (s : State) (q : StepResult) : (s.setResult q).video = s.video := rfl
@[simp] theorem State.setResult_rom (s : State) (q : StepResult) : (s.setResult q).rom = s.rom := rfl
@[simp] theorem State.setResult_labels (s : State) (q : StepResult) : (s.setResult q).labels = s.labels := rfl
@[simp] theorem State.setResult_stepResult (s : State) (q : StepResult) : (s.setResult q).stepResult = q := rfl
@[simp] theorem State.setResult_frontEnd (s : State) (q : StepResult) : (s.setResult q).frontEnd = s.frontEnd := rfl
@[simp] theorem State.setResult_len (s : State) (q : StepResult) : (s.setResult q).len = s.len := rfl
@[simp] theorem State.setResult_reg (s : State) (q : StepResult) (r : Reg) : (s.setResult q).reg r = s.reg r := rfl

/-! ### `setReg` -/

@[simp] theorem State.setReg_p (s : State) (r : Reg) (v : Byte) : (s.setReg r v).p = s.p := by cases r <;> rfl
@[simp] theorem State.setReg_pc (s : State) (r : Reg) (v : Byte) : (s.setReg r v).pc = s.pc := by cases r <;> rfl
@[simp] theorem State.setReg_sp (s : State) (r : Reg) (v : Byte) : (s.setReg r v).sp = s.sp := by cases r <;> rfl
@[simp] theorem State.setReg_stk (s : State) (r : Reg) (v : Byte) : (s.setReg r v).stk = s.stk := by cases r <;> rfl
@[simp] theorem State.setReg_ram (s : State) (r : Reg) (v : Byte) : (s.setReg r v).ram = s.ram := by cases r <;> rfl
@[simp] theorem State.setReg_video (s : State) (r : Reg) (v : Byte) : (s.setReg r v).video = s.video := by cases r <;> rfl
@[simp] theorem State.setReg_rom (s : State) (r : Reg) (v : Byte) : (s.setReg r v).rom = s.rom := by cases r <;> rfl
@[simp] theorem State.setReg_labels (s : State) (r : Reg) (v : Byte) : (s.setReg r v).labels = s.labels := by cases r <;> rfl
@[simp] theorem State.setReg_stepResult (s : State) (r : Reg) (v : Byte) : (s.setReg r v).stepResult = s.stepResult := by cases r <;> rfl
@[simp] theorem State.setReg_frontEnd (s : State) (r : Reg) (v : Byte) : (s.setReg r v).frontEnd = s.frontEnd := by cases r <;> rfl
@[simp] theorem State.setReg_len (s : State) (r : Reg) (v : Byte) : (s.setReg r v).len = s.len := by cases r <;> rfl

/-- A register reads back what was written to it, and every other register as before. -/
theorem State.reg_setReg (s : State) (r q : Reg) (v : Byte) : (s.setReg r v).reg q = if q = r then v else s.reg q := by
  cases r <;> cases q <;> rfl

@[simp] theorem State.reg_setReg_same (s : State) (r : Reg) (v : Byte) : (s.setReg r v).reg r = v := by
  simp [State.reg_setReg]

theorem State.reg_setReg_other (s : State) (r q : Reg) (v : Byte) (h : q ≠ r) : (s.setReg r v).reg q = s.reg q := by
  simp [State.reg_setReg, h]

/-! ### `memWrite` -/

@[simp] theorem memWrite_a (s : State) (addr v : Byte) : (memWrite s addr v).a = s.a := rfl
@[simp] theorem memWrite_x (s : State) (addr v : Byte) : (memWrite s addr v).x = s.x := rfl
@[simp] theorem memWrite_y (s : State) (addr v : Byte) : (memWrite s addr v).y = s.y := rfl
@[simp] theorem memWrite_p (s : State) (addr v : Byte) : (memWrite s addr v).p = s.p := rfl
@[simp] theorem memWrite_pc (s : State) (addr v : Byte) : (memWrite s addr v).pc = s.pc := rfl
@[simp] theorem memWrite_sp (s : State) (addr v : Byte) : (memWrite s addr v).sp = s.sp := rfl
@[simp] theorem memWrite_stk (s : State) (addr v : Byte) : (memWrite s addr v).stk = s.stk := rfl
@[simp] theorem memWrite_ram (s : State) (addr v : Byte) : (memWrite s addr v).ram = s.ram.write (ramIndex addr) v := rfl
@[simp] theorem memWrite_video (s : State) (addr v : Byte) : (memWrite s addr v).video = s.video := rfl
@[simp] theorem memWrite_rom (s : State) (addr v : Byte) : (memWrite s addr v).rom = s.rom := rfl
@[simp] theorem memWrite_labels (s : State) (addr v : Byte) : (memWrite s addr v).labels = s.labels := rfl
@[simp] theorem memWrite_stepResult (s : State) (addr v : Byte) : (memWrite s addr v).stepResult = s.stepResult := rfl
@[simp] theorem memWrite_frontEnd (s : State) (addr v : Byte) : (memWrite s addr v).frontEnd = s.frontEnd := rfl
@[simp] theorem memWrite_len (s : State) (addr v : Byte) : (memWrite s addr v).len = s.len := rfl
@[simp] theorem memWrite_reg (s : State) (addr v : Byte) (r : Reg) : (memWrite s addr v).reg r = s.reg r := rfl

/-! ### Two updates of one field, and equal writes -/

@[simp] theorem State.setResult_setResult (s : State) (q q' : StepResult) : (s.setResult q).setResult q' = s.setResult q' := rfl
@[simp] theorem State.setPc_setPc (s : State) (t t' : Word16) : (s.setPc t).setPc t' = s.setPc t' := rfl
@[simp] theorem State.setPc_self (s : State) : s.setPc s.pc = s := rfl

end Sys2Proof.Machine
end

