-- ==== Sys2Proof/Laws/Ops.lean ====
section
/-! SUPPORT. What each shared operation can do: operands, the stack, ending a step, and exec as one function of the operation. -/

namespace Sys2Proof.Machine

/-! ### Operands -/

@[simp] theorem ramIndex_eq (addr : Byte) : ramIndex addr = addr.toNat := by
  simp only [ramIndex, zext16, BitVec.toNat_setWidth]
  exact Nat.mod_eq_of_lt (lt_trans addr.isLt (by norm_num))

@[simp] theorem operandValue_setPc (o : Operand) (s : State) (t : Word16) :
    operandValue o (s.setPc t) = operandValue o s := by cases o <;> rfl

/-- What a location write does: it reads back, and touches nothing but that register or byte. -/
theorem locWrite_spec (l : Loc) (v : Byte) (s : State) :
    locValue l (locWrite l v s) = v ∧ (∀ r, l ≠ .reg r → (locWrite l v s).reg r = s.reg r) ∧
      (∀ k, locAddress? l ≠ some k → (locWrite l v s).ram.read k = s.ram.read k) ∧
      locWrite l v s =
        { s with a := (locWrite l v s).a, x := (locWrite l v s).x, y := (locWrite l v s).y,
                 ram := (locWrite l v s).ram } := by
  cases l with
  | reg r =>
    refine ⟨by simp [locWrite, locValue], fun q hq => ?_, fun k _ => by simp [locWrite], by cases r <;> rfl⟩
    exact State.reg_setReg_other s r q v fun h => hq (by rw [h])
  | mem addr =>
    refine ⟨by simp [locWrite, locValue, memRead], fun q _ => rfl, fun k hk => ?_, rfl⟩
    exact Memory.read_write_other _ _ _ _ fun h => hk (by rw [h]; rfl)

theorem locWrite_p (l : Loc) (v : Byte) (s : State) : (locWrite l v s).p = s.p := by cases l <;> simp [locWrite]
theorem locWrite_pc (l : Loc) (v : Byte) (s : State) : (locWrite l v s).pc = s.pc := by cases l <;> simp [locWrite]
theorem locWrite_sp (l : Loc) (v : Byte) (s : State) : (locWrite l v s).sp = s.sp := by cases l <;> simp [locWrite]
theorem locWrite_stk (l : Loc) (v : Byte) (s : State) : (locWrite l v s).stk = s.stk := by cases l <;> simp [locWrite]
theorem locWrite_video (l : Loc) (v : Byte) (s : State) : (locWrite l v s).video = s.video := by
  cases l <;> simp [locWrite]
theorem locWrite_rom (l : Loc) (v : Byte) (s : State) : (locWrite l v s).rom = s.rom := by cases l <;> simp [locWrite]
theorem locWrite_labels (l : Loc) (v : Byte) (s : State) : (locWrite l v s).labels = s.labels := by
  cases l <;> simp [locWrite]

/-! ### The stack -/

/-- `StackPush` (R61): it fails exactly at S = 255; else it stores at S and S goes up by one. -/
theorem stackPush_cases (v : Byte) (s : State) :
    (s.sp.toNat = 255 ∧ stackPush v s = .error .stackOverflow) ∨
      (s.sp.toNat < 255 ∧ stackPush v s = .ok { s with stk := s.stk.write s.sp.toNat v, sp := s.sp + 1 }) := by
  by_cases h : s.sp.toNat = 255
  · exact .inl ⟨h, if_pos h⟩
  · exact .inr ⟨by have := s.sp.isLt; omega, if_neg h⟩

/-- `StackPop` (R62): it fails exactly at S = 0; else S goes down by one and the byte there is returned. -/
theorem stackPop_cases (s : State) :
    (s.sp.toNat = 0 ∧ stackPop s = .error .stackUnderflow) ∨
      (0 < s.sp.toNat ∧ stackPop s = .ok (s.stk.read (s.sp - 1).toNat, { s with sp := s.sp - 1 })) := by
  by_cases h : s.sp.toNat = 0
  · exact .inl ⟨h, if_pos h⟩
  · exact .inr ⟨by omega, if_neg h⟩

/-! ### Ending a step -/

/-- `advance()` moves PC only: not at all in the binary front end, by one in the textual one (R16). -/
theorem advance_eq (s : State) : advance s = s.setPc (if s.frontEnd = .binary then s.pc else s.pc + 1) := by
  unfold advance
  cases s.frontEnd <;> simp

/-- A step that retires returns the PC it leaves. -/
theorem retire_eq (s : State) : retire s = .next (s.setResult (.ok s.pc)) := rfl

/-- A raised error leaves the state as it was but for the returned value. -/
theorem raiseError_eq (e : Error) (s : State) : raiseError e s = .next (s.setResult (.err e)) := rfl

/-! ### exec by operation -/

/-- The function a DS operation applies to the old destination and the source (R140, R151 to R157). -/
def dsFunction : DsOp → Byte → Byte → Byte
  | .mov => fun _ s => s
  | .add => addByte
  | .sub => subByte
  | .or => orByte
  | .and => andByte
  | .xor => xorByte
  | .shl => shlByte
  | .shr => shrByte

/-- Every DS instruction writes its function's value to its destination and advances. -/
theorem exec_ds (op : DsOp) (dst : Loc) (src : Operand) (s : State) :
    exec (.ds op dst src) s =
      retire (advance (locWrite dst (dsFunction op (locValue dst s) (operandValue src s)) s)) := by
  cases op <;> cases dst <;> cases src <;> rfl

theorem exec_cmp (u w : Operand) (s : State) : exec (.cmp u w) s = cmpOp u w s := by
  cases u <;> cases w <;> rfl

theorem exec_push (src : Operand) (s : State) : exec (.push src) s = pushOp src s := by cases src <;> rfl

theorem exec_pop (dst : Loc) (s : State) : exec (.pop dst) s = popOp dst s := by cases dst <;> rfl

theorem exec_jump (c : Cond) (t : Word16) (s : State) : exec (.jump c t) s = jumpOp c t s := by cases c <;> rfl

theorem exec_call (b : Byte) (s : State) : exec (.call b) s = callOp b s := rfl

/-! ### The next state of each shape -/

theorem operandValue_congr (o : Operand) {s t : State} (hr : ∀ r, s.reg r = t.reg r) (hm : ∀ k < 256, s.ram.read k = t.ram.read k) :
    operandValue o s = operandValue o t := by
  cases o with
  | reg r => exact hr r
  | imm v => rfl
  | mem b => simpa [operandValue, memRead] using hm _ b.isLt

theorem locValue_congr (l : Loc) {s t : State} (hr : ∀ r, s.reg r = t.reg r) (hm : ∀ k < 256, s.ram.read k = t.ram.read k) :
    locValue l s = locValue l t := by
  cases l with
  | reg r => exact hr r
  | mem b => simpa [locValue, memRead] using hm _ b.isLt

/-- PC after `advance()` (R16). -/
theorem advance_pc (s : State) : (advance s).pc = if s.frontEnd = .binary then s.pc else s.pc + 1 := by rw [advance_eq]; rfl

/-- A DS instruction always completes: its destination written, PC advanced. -/
theorem exec_ds_next (op : DsOp) (dst : Loc) (src : Operand) (s : State) :
    exec (.ds op dst src) s =
      .next { locWrite dst (dsFunction op (locValue dst s) (operandValue src s)) s with
        pc := (advance s).pc, stepResult := .ok (advance s).pc } := by
  rw [exec_ds, retire_eq, advance_eq, advance_eq, locWrite_pc]
  cases dst with
  | reg r => cases r <;> rfl
  | mem b => rfl

/-- CMP always completes: P written, PC advanced. -/
theorem exec_cmp_next (u w : Operand) (s : State) :
    exec (.cmp u w) s =
      .next { s with p := compareFlags (operandValue u s) (operandValue w s), pc := (advance s).pc,
                     stepResult := .ok (advance s).pc } := by
  rw [exec_cmp, cmpOp, retire_eq, advance_eq, advance_eq]
  rfl

/-- PUSH completes below S = 255, and raises StackOverflow at 255 with nothing written. -/
theorem exec_push_cases (src : Operand) (s : State) :
    (s.sp.toNat = 255 ∧ exec (.push src) s = .next (s.setResult (.err .stackOverflow))) ∨
      (s.sp.toNat < 255 ∧ exec (.push src) s =
        .next { s with stk := s.stk.write s.sp.toNat (operandValue src s), sp := s.sp + 1, pc := (advance s).pc,
                       stepResult := .ok (advance s).pc }) := by
  rw [exec_push, pushOp]
  obtain ⟨h, e⟩ | ⟨h, e⟩ := stackPush_cases (operandValue src s) s <;> rw [e]
  · exact .inl ⟨h, rfl⟩
  · refine .inr ⟨h, ?_⟩
    rw [advance_eq s]
    simp only [retire_eq, advance_eq]
    rfl

/-- POP completes above S = 0, and raises StackUnderflow at 0 with nothing written. -/
theorem exec_pop_cases (dst : Loc) (s : State) :
    (s.sp.toNat = 0 ∧ exec (.pop dst) s = .next (s.setResult (.err .stackUnderflow))) ∨
      (0 < s.sp.toNat ∧ exec (.pop dst) s =
        .next { locWrite dst (s.stk.read (s.sp.toNat - 1)) s with
          sp := s.sp - 1, pc := (advance s).pc, stepResult := .ok (advance s).pc }) := by
  rw [exec_pop, popOp]
  obtain ⟨h, e⟩ | ⟨h, e⟩ := stackPop_cases s <;> rw [e]
  · exact .inl ⟨h, rfl⟩
  · refine .inr ⟨h, ?_⟩
    have hsp : (s.sp - 1).toNat = s.sp.toNat - 1 := by
      have := s.sp.isLt
      simp [BitVec.toNat_sub]
      omega
    simp only [retire_eq, advance_eq, hsp, locWrite_pc]
    cases dst with
    | reg r => cases r <;> rfl
    | mem b => rfl

/-- A jump always completes: at its target where its condition holds, else advanced. -/
theorem exec_jump_next (c : Cond) (t : Word16) (s : State) :
    exec (.jump c t) s =
      .next { s with pc := if condHolds c s.p then t else (advance s).pc,
                     stepResult := .ok (if condHolds c s.p then t else (advance s).pc) } := by
  rw [exec_jump, jumpOp]
  split
  · rfl
  · rw [retire_eq, advance_eq]
    rfl

/-- CALL always completes: PC advanced. -/
theorem exec_call_next (b : Byte) (s : State) :
    exec (.call b) s = .next { s with pc := (advance s).pc, stepResult := .ok (advance s).pc } := by
  rw [exec_call, callOp, retire_eq, advance_eq]
  rfl

/-- Everything an instruction can answer: a next state that returned `Ok(PC)`, or a stack error with nothing written. -/
theorem exec_cases (i : Instr) (s : State) :
    ∃ t, exec i s = .next t ∧
      (t.stepResult = .ok t.pc ∨
        (s.sp.toNat = 255 ∧ (∃ src, i = .push src) ∧ t = s.setResult (.err .stackOverflow)) ∨
        (s.sp.toNat = 0 ∧ (∃ dst, i = .pop dst) ∧ t = s.setResult (.err .stackUnderflow))) := by
  obtain ⟨op, dst, src, rfl⟩ | ⟨u, w, rfl⟩ | ⟨src, rfl⟩ | ⟨dst, rfl⟩ | ⟨c, t, rfl⟩ | ⟨b, rfl⟩ := i.shapes
  · exact ⟨_, exec_ds_next op dst src s, .inl rfl⟩
  · exact ⟨_, exec_cmp_next u w s, .inl rfl⟩
  · obtain ⟨h, e⟩ | ⟨h, e⟩ := exec_push_cases src s
    · exact ⟨_, e, .inr (.inl ⟨h, ⟨_, rfl⟩, rfl⟩)⟩
    · exact ⟨_, e, .inl rfl⟩
  · obtain ⟨h, e⟩ | ⟨h, e⟩ := exec_pop_cases dst s
    · exact ⟨_, e, .inr (.inr ⟨h, ⟨_, rfl⟩, rfl⟩)⟩
    · exact ⟨_, e, .inl rfl⟩
  · exact ⟨_, exec_jump_next c t s, .inl rfl⟩
  · exact ⟨_, exec_call_next b s, .inl rfl⟩

end Sys2Proof.Machine
end

