-- ==== Sys2Proof/Laws/PerInstr.lean ====
section
/-! SUPPORT. Facts about every instruction as a term, one lemma per constructor. -/

namespace Sys2Proof.Laws

/-- The encoding's first byte is an assigned opcode, and its length is the one that opcode byte gives (R85). -/
def EncodedSize.Statement (i : Instr) : Prop :=
  ∃ o, (encode i).head?.bind opcode? = some o ∧ (encode i).length = o.size

/-- By the instruction's resolved view. -/
theorem EncodedSize.of_resolved (i : Instr) : EncodedSize.Statement i := by
  obtain ⟨operands, hbytes, hsize⟩ := encodeResolved_eq i.resolved
  refine ⟨i.resolved.opcode, ?_, ?_⟩
  · simp [encode, hbytes]
  · simp [encode, hbytes, hsize]

theorem EncodedSize.movRR (dst : Reg) (src : Reg) : EncodedSize.Statement (.movRR dst src) := EncodedSize.of_resolved _
theorem EncodedSize.movRI (dst : Reg) (src : Byte) : EncodedSize.Statement (.movRI dst src) := EncodedSize.of_resolved _
theorem EncodedSize.movRM (dst : Reg) (src : Byte) : EncodedSize.Statement (.movRM dst src) := EncodedSize.of_resolved _
theorem EncodedSize.movMR (dst : Byte) (src : Reg) : EncodedSize.Statement (.movMR dst src) := EncodedSize.of_resolved _
theorem EncodedSize.movMI (dst : Byte) (src : Byte) : EncodedSize.Statement (.movMI dst src) := EncodedSize.of_resolved _
theorem EncodedSize.movMM (dst : Byte) (src : Byte) : EncodedSize.Statement (.movMM dst src) := EncodedSize.of_resolved _
theorem EncodedSize.addRR (dst : Reg) (src : Reg) : EncodedSize.Statement (.addRR dst src) := EncodedSize.of_resolved _
theorem EncodedSize.addRI (dst : Reg) (src : Byte) : EncodedSize.Statement (.addRI dst src) := EncodedSize.of_resolved _
theorem EncodedSize.addRM (dst : Reg) (src : Byte) : EncodedSize.Statement (.addRM dst src) := EncodedSize.of_resolved _
theorem EncodedSize.addMR (dst : Byte) (src : Reg) : EncodedSize.Statement (.addMR dst src) := EncodedSize.of_resolved _
theorem EncodedSize.addMI (dst : Byte) (src : Byte) : EncodedSize.Statement (.addMI dst src) := EncodedSize.of_resolved _
theorem EncodedSize.addMM (dst : Byte) (src : Byte) : EncodedSize.Statement (.addMM dst src) := EncodedSize.of_resolved _
theorem EncodedSize.subRR (dst : Reg) (src : Reg) : EncodedSize.Statement (.subRR dst src) := EncodedSize.of_resolved _
theorem EncodedSize.subRI (dst : Reg) (src : Byte) : EncodedSize.Statement (.subRI dst src) := EncodedSize.of_resolved _
theorem EncodedSize.subRM (dst : Reg) (src : Byte) : EncodedSize.Statement (.subRM dst src) := EncodedSize.of_resolved _
theorem EncodedSize.subMR (dst : Byte) (src : Reg) : EncodedSize.Statement (.subMR dst src) := EncodedSize.of_resolved _
theorem EncodedSize.subMI (dst : Byte) (src : Byte) : EncodedSize.Statement (.subMI dst src) := EncodedSize.of_resolved _
theorem EncodedSize.subMM (dst : Byte) (src : Byte) : EncodedSize.Statement (.subMM dst src) := EncodedSize.of_resolved _
theorem EncodedSize.orRR (dst : Reg) (src : Reg) : EncodedSize.Statement (.orRR dst src) := EncodedSize.of_resolved _
theorem EncodedSize.orRI (dst : Reg) (src : Byte) : EncodedSize.Statement (.orRI dst src) := EncodedSize.of_resolved _
theorem EncodedSize.orRM (dst : Reg) (src : Byte) : EncodedSize.Statement (.orRM dst src) := EncodedSize.of_resolved _
theorem EncodedSize.orMR (dst : Byte) (src : Reg) : EncodedSize.Statement (.orMR dst src) := EncodedSize.of_resolved _
theorem EncodedSize.orMI (dst : Byte) (src : Byte) : EncodedSize.Statement (.orMI dst src) := EncodedSize.of_resolved _
theorem EncodedSize.orMM (dst : Byte) (src : Byte) : EncodedSize.Statement (.orMM dst src) := EncodedSize.of_resolved _
theorem EncodedSize.andRR (dst : Reg) (src : Reg) : EncodedSize.Statement (.andRR dst src) := EncodedSize.of_resolved _
theorem EncodedSize.andRI (dst : Reg) (src : Byte) : EncodedSize.Statement (.andRI dst src) := EncodedSize.of_resolved _
theorem EncodedSize.andRM (dst : Reg) (src : Byte) : EncodedSize.Statement (.andRM dst src) := EncodedSize.of_resolved _
theorem EncodedSize.andMR (dst : Byte) (src : Reg) : EncodedSize.Statement (.andMR dst src) := EncodedSize.of_resolved _
theorem EncodedSize.andMI (dst : Byte) (src : Byte) : EncodedSize.Statement (.andMI dst src) := EncodedSize.of_resolved _
theorem EncodedSize.andMM (dst : Byte) (src : Byte) : EncodedSize.Statement (.andMM dst src) := EncodedSize.of_resolved _
theorem EncodedSize.xorRR (dst : Reg) (src : Reg) : EncodedSize.Statement (.xorRR dst src) := EncodedSize.of_resolved _
theorem EncodedSize.xorRI (dst : Reg) (src : Byte) : EncodedSize.Statement (.xorRI dst src) := EncodedSize.of_resolved _
theorem EncodedSize.xorRM (dst : Reg) (src : Byte) : EncodedSize.Statement (.xorRM dst src) := EncodedSize.of_resolved _
theorem EncodedSize.xorMR (dst : Byte) (src : Reg) : EncodedSize.Statement (.xorMR dst src) := EncodedSize.of_resolved _
theorem EncodedSize.xorMI (dst : Byte) (src : Byte) : EncodedSize.Statement (.xorMI dst src) := EncodedSize.of_resolved _
theorem EncodedSize.xorMM (dst : Byte) (src : Byte) : EncodedSize.Statement (.xorMM dst src) := EncodedSize.of_resolved _
theorem EncodedSize.shlRR (dst : Reg) (src : Reg) : EncodedSize.Statement (.shlRR dst src) := EncodedSize.of_resolved _
theorem EncodedSize.shlRI (dst : Reg) (src : Byte) : EncodedSize.Statement (.shlRI dst src) := EncodedSize.of_resolved _
theorem EncodedSize.shlRM (dst : Reg) (src : Byte) : EncodedSize.Statement (.shlRM dst src) := EncodedSize.of_resolved _
theorem EncodedSize.shlMR (dst : Byte) (src : Reg) : EncodedSize.Statement (.shlMR dst src) := EncodedSize.of_resolved _
theorem EncodedSize.shlMI (dst : Byte) (src : Byte) : EncodedSize.Statement (.shlMI dst src) := EncodedSize.of_resolved _
theorem EncodedSize.shlMM (dst : Byte) (src : Byte) : EncodedSize.Statement (.shlMM dst src) := EncodedSize.of_resolved _
theorem EncodedSize.shrRR (dst : Reg) (src : Reg) : EncodedSize.Statement (.shrRR dst src) := EncodedSize.of_resolved _
theorem EncodedSize.shrRI (dst : Reg) (src : Byte) : EncodedSize.Statement (.shrRI dst src) := EncodedSize.of_resolved _
theorem EncodedSize.shrRM (dst : Reg) (src : Byte) : EncodedSize.Statement (.shrRM dst src) := EncodedSize.of_resolved _
theorem EncodedSize.shrMR (dst : Byte) (src : Reg) : EncodedSize.Statement (.shrMR dst src) := EncodedSize.of_resolved _
theorem EncodedSize.shrMI (dst : Byte) (src : Byte) : EncodedSize.Statement (.shrMI dst src) := EncodedSize.of_resolved _
theorem EncodedSize.shrMM (dst : Byte) (src : Byte) : EncodedSize.Statement (.shrMM dst src) := EncodedSize.of_resolved _
theorem EncodedSize.cmpRR (u : Reg) (w : Reg) : EncodedSize.Statement (.cmpRR u w) := EncodedSize.of_resolved _
theorem EncodedSize.cmpRI (u : Reg) (w : Byte) : EncodedSize.Statement (.cmpRI u w) := EncodedSize.of_resolved _
theorem EncodedSize.cmpRM (u : Reg) (w : Byte) : EncodedSize.Statement (.cmpRM u w) := EncodedSize.of_resolved _
theorem EncodedSize.cmpIR (u : Byte) (w : Reg) : EncodedSize.Statement (.cmpIR u w) := EncodedSize.of_resolved _
theorem EncodedSize.cmpII (u : Byte) (w : Byte) : EncodedSize.Statement (.cmpII u w) := EncodedSize.of_resolved _
theorem EncodedSize.cmpIM (u : Byte) (w : Byte) : EncodedSize.Statement (.cmpIM u w) := EncodedSize.of_resolved _
theorem EncodedSize.cmpMR (u : Byte) (w : Reg) : EncodedSize.Statement (.cmpMR u w) := EncodedSize.of_resolved _
theorem EncodedSize.cmpMI (u : Byte) (w : Byte) : EncodedSize.Statement (.cmpMI u w) := EncodedSize.of_resolved _
theorem EncodedSize.cmpMM (u : Byte) (w : Byte) : EncodedSize.Statement (.cmpMM u w) := EncodedSize.of_resolved _
theorem EncodedSize.pushR (src : Reg) : EncodedSize.Statement (.pushR src) := EncodedSize.of_resolved _
theorem EncodedSize.pushI (src : Byte) : EncodedSize.Statement (.pushI src) := EncodedSize.of_resolved _
theorem EncodedSize.pushM (src : Byte) : EncodedSize.Statement (.pushM src) := EncodedSize.of_resolved _
theorem EncodedSize.popR (dst : Reg) : EncodedSize.Statement (.popR dst) := EncodedSize.of_resolved _
theorem EncodedSize.popM (dst : Byte) : EncodedSize.Statement (.popM dst) := EncodedSize.of_resolved _
theorem EncodedSize.jmp (t : Word16) : EncodedSize.Statement (.jmp t) := EncodedSize.of_resolved _
theorem EncodedSize.je (t : Word16) : EncodedSize.Statement (.je t) := EncodedSize.of_resolved _
theorem EncodedSize.jne (t : Word16) : EncodedSize.Statement (.jne t) := EncodedSize.of_resolved _
theorem EncodedSize.jl (t : Word16) : EncodedSize.Statement (.jl t) := EncodedSize.of_resolved _
theorem EncodedSize.jle (t : Word16) : EncodedSize.Statement (.jle t) := EncodedSize.of_resolved _
theorem EncodedSize.jg (t : Word16) : EncodedSize.Statement (.jg t) := EncodedSize.of_resolved _
theorem EncodedSize.jge (t : Word16) : EncodedSize.Statement (.jge t) := EncodedSize.of_resolved _
theorem EncodedSize.call (b : Byte) : EncodedSize.Statement (.call b) := EncodedSize.of_resolved _

end Sys2Proof.Laws
end

