-- ==== Sys2Proof/Laws/Step.lean ====
section
/-! SUPPORT. What fetching and the decode phase can do: they read ROM, labels and PC alone and move PC alone, and in the binary
front end they are `decode` on the bytes from PC on. -/

namespace Sys2Proof.Machine

/-! ### Fetch -/

theorem fetch_some {s : State} {bytes : List Byte} {b : Byte} (hr : s.rom = .binary bytes)
    (h : bytes[s.pc.toNat]? = some b) : fetch s = (.ok b, s.setPc (s.pc + 1)) := by simp [fetch, hr, h]

theorem fetch_none {s : State} {bytes : List Byte} (hr : s.rom = .binary bytes) (h : bytes[s.pc.toNat]? = none) :
    fetch s = (.error .outOfRange, s) := by simp only [fetch, hr, h]

/-- A fetch moves PC and writes nothing else. -/
theorem fetch_state (s : State) : ∃ p, (fetch s).2 = s.setPc p := by
  unfold fetch
  split
  · split
    · exact ⟨_, rfl⟩
    · exact ⟨s.pc, rfl⟩
  · exact ⟨s.pc, rfl⟩

/-- A fetch raises OutOfRange or nothing (R82). -/
theorem fetch_error {s s' : State} {e : Error} (h : fetch s = (.error e, s')) : e = .outOfRange := by
  unfold fetch at h
  split at h
  · split at h <;> cases h
    rfl
  · cases h; rfl

theorem toNat_succ_pc {p : Word16} (h : p.toNat < 65535) : (p + 1).toNat = p.toNat + 1 := by
  simp [BitVec.toNat_add]
  omega

theorem drop_of_getElem? {bytes : List Byte} {k : Nat} {b : Byte} (h : bytes[k]? = some b) :
    bytes.drop k = b :: bytes.drop (k + 1) := by
  obtain ⟨hlt, rfl⟩ := List.getElem?_eq_some_iff.1 h
  exact List.drop_eq_getElem_cons hlt

/-! ### The decode phase -/

/-- What a decoding answers, with the state it leaves: PC past the bytes it read. -/
def Decoded.outcome (d : Decoded) (s : State) : Except Error Instr × State :=
  match d with
  | .instr i n => (.ok i, s.setPc (s.pc + BitVec.ofNat 16 n))
  | .error e n => (.error e, s.setPc (s.pc + BitVec.ofNat 16 n))

/-- The spec's `decode_binary` with its `Fetch()` (R97) is `decode` on the bytes from PC on. -/
theorem decodePhase_binary {s : State} {bytes : List Byte} (hr : s.rom = .binary bytes) (hl : bytes.length ≤ 65535) :
    decodePhase s = Decoded.outcome (decode (bytes.drop s.pc.toNat)) s := by
  simp only [decodePhase, hr]
  unfold decodeBinary
  cases h0 : bytes[s.pc.toNat]? with
  | none =>
    rw [fetch_none hr h0, List.drop_of_length_le (List.getElem?_eq_none_iff.1 h0)]
    simp [decode, Decoded.outcome]
  | some op =>
    have hlt := (List.getElem?_eq_some_iff.1 h0).1
    have hp1 := toNat_succ_pc (p := s.pc) (by omega)
    rw [fetch_some hr h0, drop_of_getElem? h0]
    simp only
    cases ho : opcode? op with
    | none => simp [decode, ho, Decoded.outcome]
    | some o =>
      have hsize := o.size_cases
      simp only [decode, ho, decodeBinaryOperands]
      cases h1 : bytes[s.pc.toNat + 1]? with
      | none =>
        rw [fetch_none (s := s.setPc (s.pc + 1)) hr (by rw [State.setPc_pc, hp1]; exact h1),
          List.drop_of_length_le (List.getElem?_eq_none_iff.1 h1), if_pos (by simp only [List.length_nil]; omega)]
        rfl
      | some b1 =>
        have hlt1 := (List.getElem?_eq_some_iff.1 h1).1
        have e2 : (s.setPc (s.pc + 1)).setPc ((s.setPc (s.pc + 1)).pc + 1) = s.setPc (s.pc + 2) := by
          rw [State.setPc_setPc, State.setPc_pc, BitVec.add_assoc]
          rfl
        have hp2 : (s.pc + 2).toNat = s.pc.toNat + 2 := by
          have : s.pc + 2 = s.pc + 1 + 1 := by rw [BitVec.add_assoc]; rfl
          rw [this, toNat_succ_pc (by omega), hp1]
        rw [fetch_some (s := s.setPc (s.pc + 1)) hr (by rw [State.setPc_pc, hp1]; exact h1), drop_of_getElem? h1]
        simp only [e2]
        obtain hs | hs := hsize
        · rw [if_neg (by omega), if_neg (by simp [hs])]
          simp only [List.getD_cons_zero]
          rw [resolveOperands_size_two hs b1 ((b1 :: bytes.drop (s.pc.toNat + 1 + 1)).getD 1 0) 0]
          cases resolveOperands o b1 0 <;> simp [Decoded.outcome, hs]
        · rw [if_pos hs]
          cases h2 : bytes[s.pc.toNat + 2]? with
          | none =>
            rw [fetch_none (s := s.setPc (s.pc + 2)) hr (by rw [State.setPc_pc, hp2]; exact h2),
              List.drop_of_length_le (List.getElem?_eq_none_iff.1 h2), if_pos (by simp; omega)]
            simp [Decoded.outcome]
          | some b2 =>
            have hlt2 := (List.getElem?_eq_some_iff.1 h2).1
            have e3 : (s.setPc (s.pc + 2)).setPc ((s.setPc (s.pc + 2)).pc + 1) = s.setPc (s.pc + 3) := by
              rw [State.setPc_setPc, State.setPc_pc, BitVec.add_assoc]
              rfl
            rw [fetch_some (s := s.setPc (s.pc + 2)) hr (by rw [State.setPc_pc, hp2]; exact h2), drop_of_getElem? h2,
              if_neg (by simp; omega)]
            simp only [e3, List.getD_cons_zero, List.getD_cons_succ]
            cases resolveOperands o b1 b2 <;> simp [Decoded.outcome, hs]

/-- The decode phase moves PC, in the binary front end only, and writes nothing else (R119). -/
theorem decodePhase_state (s : State) :
    ∃ p, (decodePhase s).2 = s.setPc p ∧ (s.frontEnd = .textual → p = s.pc) := by
  unfold decodePhase
  cases hr : s.rom with
  | textual records => exact ⟨s.pc, rfl, fun _ => rfl⟩
  | binary bytes =>
    have hfe : s.frontEnd ≠ .textual := by simp [State.frontEnd, hr, Rom.frontEnd]
    suffices ∃ p, (decodeBinary s).2 = s.setPc p from this.imp fun p hp => ⟨hp, fun h => absurd h hfe⟩
    unfold decodeBinary
    obtain ⟨p0, h0⟩ := fetch_state s
    rcases hf : fetch s with ⟨_ | op, s1⟩ <;> rw [hf] at h0 <;> simp only at h0 ⊢
    · exact ⟨_, h0⟩
    · split
      · exact ⟨_, h0⟩
      · unfold decodeBinaryOperands
        obtain ⟨p1, h1⟩ := fetch_state s1
        rcases hf1 : fetch s1 with ⟨_ | b1, s2⟩ <;> rw [hf1] at h1 <;> simp only at h1 ⊢
        · exact ⟨p1, by rw [h1, h0, State.setPc_setPc]⟩
        · split
          · obtain ⟨p2, h2⟩ := fetch_state s2
            rcases hf2 : fetch s2 with ⟨_ | b2, s3⟩ <;> rw [hf2] at h2 <;> simp only at h2 ⊢ <;>
              exact ⟨p2, by rw [h2, h1, h0, State.setPc_setPc, State.setPc_setPc]⟩
          · exact ⟨p1, by rw [h1, h0, State.setPc_setPc]⟩

theorem fetch_congr {s t : State} (hr : s.rom = t.rom) (hp : s.pc = t.pc) :
    (fetch s).1 = (fetch t).1 ∧ (fetch s).2.pc = (fetch t).2.pc ∧ (fetch s).2.rom = s.rom := by
  unfold fetch
  rw [hr, hp]
  cases ht : t.rom with
  | textual records => exact ⟨rfl, hp, hr.trans ht⟩
  | binary bytes =>
    simp only
    cases bytes[t.pc.toNat]? with
    | none => exact ⟨rfl, hp, hr.trans ht⟩
    | some b => exact ⟨rfl, rfl, hr.trans ht⟩

/-- The decode phase reads ROM, PC and labels alone. -/
theorem decodePhase_congr {s t : State} (hr : s.rom = t.rom) (hp : s.pc = t.pc) (hl : s.labels = t.labels) :
    (decodePhase s).1 = (decodePhase t).1 ∧ (decodePhase s).2.pc = (decodePhase t).2.pc := by
  unfold decodePhase
  rw [hr]
  cases ht : t.rom with
  | textual records => exact ⟨by simp [decodeTextual, hp, hl], hp⟩
  | binary bytes =>
    simp only [decodeBinary]
    have h0 := fetch_congr hr hp
    have g0 := fetch_congr hr.symm hp.symm
    rcases e1 : fetch s with ⟨r0, s1⟩
    rcases e2 : fetch t with ⟨q0, t1⟩
    rw [e1, e2] at h0 g0
    simp only at h0 g0
    obtain ⟨rfl, hp1, hs1⟩ := h0
    cases r0 with
    | error e => exact ⟨rfl, hp1⟩
    | ok op =>
      simp only
      cases opcode? op with
      | none => exact ⟨rfl, hp1⟩
      | some o =>
        simp only [decodeBinaryOperands]
        have hr1 : s1.rom = t1.rom := by rw [hs1, g0.2.2, hr]
        have h1 := fetch_congr hr1 hp1
        have g1 := fetch_congr hr1.symm hp1.symm
        rcases f1 : fetch s1 with ⟨r1, s2⟩
        rcases f2 : fetch t1 with ⟨q1, t2⟩
        rw [f1, f2] at h1 g1
        simp only at h1 g1
        obtain ⟨rfl, hp2, hs2⟩ := h1
        cases r1 with
        | error e => exact ⟨rfl, hp2⟩
        | ok b1 =>
          simp only
          split
          · have h2 := fetch_congr (s := s2) (t := t2) (by rw [hs2, g1.2.2, hr1]) hp2
            rcases k1 : fetch s2 with ⟨r2, s3⟩
            rcases k2 : fetch t2 with ⟨q2, t3⟩
            rw [k1, k2] at h2
            simp only at h2
            obtain ⟨rfl, hp3, -⟩ := h2
            cases r2 <;> exact ⟨rfl, hp3⟩
          · exact ⟨rfl, hp2⟩

/-! ### The step -/

theorem step_eq (s : State) :
    step s = match decodePhase s with
      | (.ok i, s') => exec i s'
      | (.error e, s') => raiseError e s' := rfl

/-- Two states that hold one program, one PC and one label table decode alike: their steps are exec of one instruction, or one
error, on the two states with one PC. -/
theorem step_pair {s t : State} (hr : s.rom = t.rom) (hp : s.pc = t.pc) (hl : s.labels = t.labels) :
    ∃ p,
      (step s = match (decodePhase s).1 with
        | .ok i => exec i (s.setPc p)
        | .error e => raiseError e (s.setPc p)) ∧
      (step t = match (decodePhase s).1 with
        | .ok i => exec i (t.setPc p)
        | .error e => raiseError e (t.setPc p)) := by
  obtain ⟨p, hs, -⟩ := decodePhase_state s
  obtain ⟨q, ht, -⟩ := decodePhase_state t
  obtain ⟨h1, h2⟩ := decodePhase_congr hr hp hl
  rw [hs, ht] at h2
  obtain rfl : p = q := h2
  refine ⟨p, ?_, ?_⟩
  · rw [step_eq]
    rcases hd : decodePhase s with ⟨e | i, s'⟩ <;> rw [hd] at hs <;> simp only at hs ⊢ <;> subst hs <;> rfl
  · rw [step_eq, h1]
    rcases hd : decodePhase t with ⟨e | i, s'⟩ <;> rw [hd] at ht <;> simp only at ht ⊢ <;> subst ht <;> rfl

end Sys2Proof.Machine
end

