-- ==== Sys2Proof/Tests/Slice0.lean ====
section
/-! SUPPORT. Tests. Every expected value is the spec's: words written out from spec/30_encoding.md R83 to R93, results from the
vectors of spec/95_test_vectors.md (W1, V20, ...) or by hand from the rule named. Then, for every statement with hypotheses, a
state and operands that meet them. -/

namespace Sys2Proof.Tests

open Sys2Proof Sys2Proof.Machine Sys2Proof.Claims

/-- The state after one step. -/
def stepped (s : State) : State :=
  match step s with
  | .next t => t
  | .fault f => nomatch f
  | .refused _ => s

/-- A new state with a binary program. -/
def bin (bytes : List Byte) : State := { State.reset with rom := .binary bytes }

/-- A record from its three tokens. -/
def rec3 (m p1 p2 : String) : InstrRecord := ⟨m.toList, p1.toList, p2.toList⟩

/-- A new state with a textual program of one record. -/
def text (m p1 p2 : String) : State := { State.reset with rom := .textual [rec3 m p1 p2] }

/-! ### Well-formedness: an ill-formed term for each check -/

theorem test_wf_refuses_binary_target_256 :
    (Instr.jmp 256).wf .binary = false ∧ (Instr.jge 0xFFFF).wf .binary = false ∧ (Instr.jmp 255).wf .binary = true ∧
      (Instr.jmp 256).wf .textual = true := by decide

theorem test_wf_refuses_textual_call : (Instr.call 5).wf .textual = false ∧ (Instr.call 5).wf .binary = true := by decide

theorem test_wf_legal_states_refuse :
    ¬StatusLegal 0x01 ∧ ¬StatusLegal 0x06 ∧ ¬Memory.wf [(2, 1), (1, 1)] ∧ ¬Memory.wf [(1, 0)] ∧
      ¬Memory.wfBelow [(256, 1)] 256 ∧ (Rom.textual [rec3 "MOV" "a" "1"]).lowerCase = false ∧
      ¬LabelTable.Legal [("loop".toList, 1)] (.binary [0xB0, 1]) ∧ ¬LabelTable.Legal [("1x".toList, 0)] (.textual []) := by
  decide

/-! ### Decoding: every row of the opcode map, its word written out (R83 to R93) -/

theorem test_decode_mov :
    decode [0b00000000, 0x01, 0x02] = .instr (.movRR .x .y) 3 ∧
      decode [0b00000001, 0x00, 0x01] = .instr (.movRI .a 0x01) 3 ∧
      decode [0b00000010, 0x02, 0xFF] = .instr (.movRM .y 0xFF) 3 ∧
      decode [0b00001000, 0x0A, 0x02] = .instr (.movMR 0x0A .y) 3 ∧
      decode [0b00001001, 0x2A, 0x01] = .instr (.movMI 0x2A 0x01) 3 ∧
      decode [0b00001010, 0x7F, 0xFF] = .instr (.movMM 0x7F 0xFF) 3 := by decide

theorem test_decode_add :
    decode [0b00010000, 0x01, 0x02] = .instr (.addRR .x .y) 3 ∧
      decode [0b00010001, 0x00, 0x01] = .instr (.addRI .a 0x01) 3 ∧
      decode [0b00010010, 0x02, 0xFF] = .instr (.addRM .y 0xFF) 3 ∧
      decode [0b00011000, 0x0A, 0x02] = .instr (.addMR 0x0A .y) 3 ∧
      decode [0b00011001, 0x2A, 0x01] = .instr (.addMI 0x2A 0x01) 3 ∧
      decode [0b00011010, 0x7F, 0xFF] = .instr (.addMM 0x7F 0xFF) 3 := by decide

theorem test_decode_sub :
    decode [0b00100000, 0x01, 0x02] = .instr (.subRR .x .y) 3 ∧
      decode [0b00100001, 0x00, 0x01] = .instr (.subRI .a 0x01) 3 ∧
      decode [0b00100010, 0x02, 0xFF] = .instr (.subRM .y 0xFF) 3 ∧
      decode [0b00101000, 0x0A, 0x02] = .instr (.subMR 0x0A .y) 3 ∧
      decode [0b00101001, 0x2A, 0x01] = .instr (.subMI 0x2A 0x01) 3 ∧
      decode [0b00101010, 0x7F, 0xFF] = .instr (.subMM 0x7F 0xFF) 3 := by decide

theorem test_decode_or :
    decode [0b00110000, 0x01, 0x02] = .instr (.orRR .x .y) 3 ∧
      decode [0b00110001, 0x00, 0x01] = .instr (.orRI .a 0x01) 3 ∧
      decode [0b00110010, 0x02, 0xFF] = .instr (.orRM .y 0xFF) 3 ∧
      decode [0b00111000, 0x0A, 0x02] = .instr (.orMR 0x0A .y) 3 ∧
      decode [0b00111001, 0x2A, 0x01] = .instr (.orMI 0x2A 0x01) 3 ∧
      decode [0b00111010, 0x7F, 0xFF] = .instr (.orMM 0x7F 0xFF) 3 := by decide

theorem test_decode_and :
    decode [0b01000000, 0x01, 0x02] = .instr (.andRR .x .y) 3 ∧
      decode [0b01000001, 0x00, 0x01] = .instr (.andRI .a 0x01) 3 ∧
      decode [0b01000010, 0x02, 0xFF] = .instr (.andRM .y 0xFF) 3 ∧
      decode [0b01001000, 0x0A, 0x02] = .instr (.andMR 0x0A .y) 3 ∧
      decode [0b01001001, 0x2A, 0x01] = .instr (.andMI 0x2A 0x01) 3 ∧
      decode [0b01001010, 0x7F, 0xFF] = .instr (.andMM 0x7F 0xFF) 3 := by decide

theorem test_decode_xor :
    decode [0b01010000, 0x01, 0x02] = .instr (.xorRR .x .y) 3 ∧
      decode [0b01010001, 0x00, 0x01] = .instr (.xorRI .a 0x01) 3 ∧
      decode [0b01010010, 0x02, 0xFF] = .instr (.xorRM .y 0xFF) 3 ∧
      decode [0b01011000, 0x0A, 0x02] = .instr (.xorMR 0x0A .y) 3 ∧
      decode [0b01011001, 0x2A, 0x01] = .instr (.xorMI 0x2A 0x01) 3 ∧
      decode [0b01011010, 0x7F, 0xFF] = .instr (.xorMM 0x7F 0xFF) 3 := by decide

theorem test_decode_shl :
    decode [0b01100000, 0x01, 0x02] = .instr (.shlRR .x .y) 3 ∧
      decode [0b01100001, 0x00, 0x01] = .instr (.shlRI .a 0x01) 3 ∧
      decode [0b01100010, 0x02, 0xFF] = .instr (.shlRM .y 0xFF) 3 ∧
      decode [0b01101000, 0x0A, 0x02] = .instr (.shlMR 0x0A .y) 3 ∧
      decode [0b01101001, 0x2A, 0x01] = .instr (.shlMI 0x2A 0x01) 3 ∧
      decode [0b01101010, 0x7F, 0xFF] = .instr (.shlMM 0x7F 0xFF) 3 := by decide

theorem test_decode_shr :
    decode [0b01110000, 0x01, 0x02] = .instr (.shrRR .x .y) 3 ∧
      decode [0b01110001, 0x00, 0x01] = .instr (.shrRI .a 0x01) 3 ∧
      decode [0b01110010, 0x02, 0xFF] = .instr (.shrRM .y 0xFF) 3 ∧
      decode [0b01111000, 0x0A, 0x02] = .instr (.shrMR 0x0A .y) 3 ∧
      decode [0b01111001, 0x2A, 0x01] = .instr (.shrMI 0x2A 0x01) 3 ∧
      decode [0b01111010, 0x7F, 0xFF] = .instr (.shrMM 0x7F 0xFF) 3 := by decide

theorem test_decode_cmp :
    decode [0b10000000, 0x01, 0x02] = .instr (.cmpRR .x .y) 3 ∧
      decode [0b10000001, 0x00, 0x01] = .instr (.cmpRI .a 0x01) 3 ∧
      decode [0b10000010, 0x02, 0xFF] = .instr (.cmpRM .y 0xFF) 3 ∧
      decode [0b10000100, 0x0A, 0x02] = .instr (.cmpIR 0x0A .y) 3 ∧
      decode [0b10000101, 0x2A, 0x01] = .instr (.cmpII 0x2A 0x01) 3 ∧
      decode [0b10000110, 0x7F, 0xFF] = .instr (.cmpIM 0x7F 0xFF) 3 ∧
      decode [0b10001000, 0x0A, 0x02] = .instr (.cmpMR 0x0A .y) 3 ∧
      decode [0b10001001, 0x2A, 0x01] = .instr (.cmpMI 0x2A 0x01) 3 ∧
      decode [0b10001010, 0x7F, 0xFF] = .instr (.cmpMM 0x7F 0xFF) 3 := by decide

theorem test_decode_push :
    decode [0b10010000, 0x01] = .instr (.pushR .x) 2 ∧
      decode [0b10010100, 0x80] = .instr (.pushI 0x80) 2 ∧
      decode [0b10011000, 0x2A] = .instr (.pushM 0x2A) 2 := by decide

theorem test_decode_pop :
    decode [0b10100000, 0x01] = .instr (.popR .x) 2 ∧
      decode [0b10101000, 0x7F] = .instr (.popM 0x7F) 2 := by decide

theorem test_decode_jumps_and_call :
    decode [0b10110000, 0xC8] = .instr (.jmp 200) 2 ∧
      decode [0b10110001, 0xC8] = .instr (.je 200) 2 ∧
      decode [0b10110010, 0xC8] = .instr (.jne 200) 2 ∧
      decode [0b10110011, 0xC8] = .instr (.jl 200) 2 ∧
      decode [0b10110100, 0xC8] = .instr (.jle 200) 2 ∧
      decode [0b10110101, 0xC8] = .instr (.jg 200) 2 ∧
      decode [0b10110110, 0xC8] = .instr (.jge 200) 2 ∧
      decode [0b10110111, 0xC8] = .instr (.call 200) 2 := by decide

/-- V11, V12, V59, V69, V89, V91, V92. -/
theorem test_decode_errors :
    decode [0x05, 0x00, 0x00] = .error .invalidOpcode 1 ∧ decode [0x00, 0x03, 0x00] = .error .invalidOperand 3 ∧
      decode [0x83, 0x00, 0x00] = .error .invalidOpcode 1 ∧ decode [0xA4, 0x05] = .error .invalidOpcode 1 ∧
      decode [0xB8, 0x00] = .error .invalidOpcode 1 ∧ decode [0x01, 0x00] = .error .outOfRange 2 ∧
      decode [0xC0, 0x00] = .error .invalidOpcode 1 ∧ decode [] = .error .outOfRange 0 := by decide

/-- The host's words: byte i of the instruction in bits 8i+7 to 8i, zeros above. -/
theorem test_table_words :
    decodeTableWord 24 0x2A0A09 = some (.movMI 10 0x2A) ∧ decodeTableWord 8 0x88 = some (.cmpMR 0 .a) ∧
      decodeTableWord 16 0x06B0 = some (.jmp 6) ∧ decodeTableWord 8 0xC0 = none := by decide

theorem test_fetch_word_is_next :
    stepped (State.reset.withFetchWord 24 0x2A0A09) =
        { State.reset with rom := .binary [0x09, 0x0A, 0x2A], ram := [(10, 0x2A)], pc := 3, stepResult := .ok 3 } ∧
      (stepped (State.withFetchWord { bin [1, 2, 3] with pc := 65535 } 16 0x06B0)).pc = 6 ∧
      (stepped (State.withFetchWord { text "mov" "a" "1" with pc := 1 } 8 0xB7)).stepResult = .ok 3 := by decide

/-! ### One step of each instruction -/

/-- V2, V5, V7. -/
theorem test_mov :
    (stepped { bin [0x00, 0x02, 0x01] with x := 0x33 }).y = 0x33 ∧
      (stepped { bin [0x0A, 0x02, 0x01] with ram := [(1, 0x44)] }).ram = [(1, 0x44), (2, 0x44)] ∧
      (stepped { bin [0x01, 0x00, 0x01] with p := 0x04 }).p = 0x04 := by decide

/-- V8, V10, V13, V15, V16. -/
theorem test_mov_text :
    (stepped (text "mov" "a" "300")).a = 44 ∧ (stepped (text "mov" "5" "a")).stepResult = .err .invalidOperand ∧
      (stepped (text "mov" "a" "")).stepResult = .err .invalidToken ∧
      (stepped (text "mov" "a" "* 10")).stepResult = .err .invalidToken ∧
      (stepped (text "mov" "a" "loop")).stepResult = .err .invalidToken := by decide

/-- V20, V22. -/
theorem test_add :
    (stepped { bin [0x10, 0x00, 0x01] with a := 200, x := 100, p := 0x02 }).a = 44 ∧
      (stepped { bin [0x1A, 0x05, 0x05] with ram := [(5, 0x90)] }).ram = [(5, 0x20)] := by decide

/-- V23, V25. -/
theorem test_sub :
    (stepped { bin [0x21, 0x00, 0x05] with a := 3 }).a = 254 ∧ (stepped { bin [0x20, 0x02, 0x02] with y := 0x42 }).y = 0 := by
  decide

/-- V26. -/
theorem test_or : (stepped { bin [0x31, 0x00, 0xF0] with a := 0x0F }).a = 0xFF := by decide

/-- V27. -/
theorem test_and : (stepped { bin [0x41, 0x00, 0x0F] with a := 0xB6 }).a = 0x06 := by decide

/-- V28, V29. -/
theorem test_xor :
    (stepped { bin [0x51, 0x00, 0xFF] with a := 0xB6 }).a = 0x49 ∧ (stepped { bin [0x50, 0x00, 0x00] with a := 0x5A }).a = 0 := by
  decide

/-- V31, V32, V37, V38. -/
theorem test_shl :
    (stepped { bin [0x61, 0x00, 0x07] with a := 1 }).a = 0x80 ∧ (stepped { bin [0x61, 0x01, 0x08] with x := 0xFF }).x = 0 ∧
      (stepped { bin [0x62, 0x00, 0x03] with a := 3, ram := [(3, 2)] }).a = 12 ∧
      (stepped { bin [0x60, 0x00, 0x00] with a := 2 }).a = 8 := by decide

/-- V34, V35, V36. -/
theorem test_shr :
    (stepped { bin [0x71, 0x00, 0x07] with a := 0x80 }).a = 1 ∧ (stepped { bin [0x71, 0x00, 0x08] with a := 0xFF }).a = 0 ∧
      (stepped { bin [0x71, 0x00, 0x00] with a := 0x37 }).a = 0x37 := by decide

/-- V51, V52, V53, V54, V56. -/
theorem test_cmp :
    (stepped (bin [0x85, 0x00, 0xFF])).p = 0x04 ∧ (stepped (bin [0x85, 0xFF, 0x00])).p = 0x08 ∧
      (stepped (bin [0x85, 0x80, 0x7F])).p = 0x08 ∧ (stepped { bin [0x80, 0x01, 0x01] with p := 0x04, x := 9 }).p = 0x02 ∧
      (stepped { bin [0x84, 0x09, 0x02] with y := 7 }).p = 0x08 := by decide

/-- V62, V64. -/
theorem test_push :
    (stepped { bin [0x98, 0x09] with ram := [(9, 0x12)], sp := 3 }).stk = [(3, 0x12)] ∧
      (stepped { bin [0x94, 0x01] with sp := 255 }) = { bin [0x94, 0x01] with sp := 255, pc := 2, stepResult := .err .stackOverflow } ∧
      (stepped { text "push" "1" "" with sp := 255 }).pc = 0 := by decide

/-- V66, V67. -/
theorem test_pop :
    (stepped { bin [0xA8, 0x05] with stk := [(1, 0xAB)], sp := 2 }).ram = [(5, 0xAB)] ∧
      (stepped { bin [0xA0, 0x02] with y := 3 }).stepResult = .err .stackUnderflow ∧
      (stepped { bin [0xA0, 0x02] with y := 3 }).y = 3 := by decide

/-- V80, V85, V86, V87, V88. -/
theorem test_jmp :
    (stepped (bin [0xB0, 0x00])).pc = 0 ∧ (stepped (text "jmp" "a" "")).stepResult = .err .invalidOperand ∧
      (stepped (text "jmp" "*5" "")).stepResult = .err .invalidOperand ∧
      (stepped (text "jmp" "-1" "")).stepResult = .err .invalidToken ∧
      (stepped (text "jmp" "3" "4")).stepResult = .err .invalidOperand := by decide

/-- The table of section 2.5 of spec/95_test_vectors.md: P down, JMP, JE, JNE, JL, JLE, JG, JGE across; 3 taken, 12 not. -/
theorem test_jump_table :
    ([0x00, 0x02, 0x04, 0x08].map fun p : Byte => [0xB0, 0xB1, 0xB2, 0xB3, 0xB4, 0xB5, 0xB6].map fun op : Byte =>
        (stepped { bin (List.replicate 10 0 ++ [op, 3]) with p := p, pc := 10 }).pc) =
      [[3, 12, 3, 12, 12, 12, 12], [3, 3, 12, 12, 3, 12, 3], [3, 12, 3, 3, 3, 12, 12], [3, 12, 3, 12, 12, 3, 3]] := by decide

/-- V83, V84. -/
theorem test_call :
    stepped { bin [0, 0, 0, 0, 0xB7, 0x40] with pc := 4 } =
        { bin [0, 0, 0, 0, 0xB7, 0x40] with pc := 6, stepResult := .ok 6 } ∧
      (stepped (text "call" "5" "")).stepResult = .err .invalidOpcode := by decide

/-! ### Loading and the host -/

/-- The source's programs as the tests load them. -/
def lines (ls : List String) : List Token := ls.map String.toList

/-- W10, W13, V95, V100. -/
theorem test_prepass :
    prepass (lines ["mov a, 0", "loop:", " add A,1 ; count", "jmp loop"]) =
        .ok ([rec3 "mov" "a" "0", rec3 "add" "a" "1", rec3 "jmp" "loop" ""], [("loop".toList, 1)]) ∧
      prepass (lines ["x1:", "mov a, 1", "X1:"]) = .error .duplicateLabel ∧
      prepass (lines ["loop: add a, 1"]) = .error .invalidToken ∧
      prepass (lines ["mov a, 1", "", "; note", "end:"]) = .ok ([rec3 "mov" "a" "1"], [("end".toList, 1)]) :=
  ⟨by decide, by decide, by decide, by decide⟩

/-- V90, V97, V98, W11. -/
theorem test_host :
    (transact .step State.reset).2 = .stepped (.err .outOfRange) ∧
      (transact (.register "P".toList) { State.reset with p := 0x02 }).2 = .value 0x02 ∧
      (transact (.register "pc".toList) State.reset).2 = .err .invalidOperand ∧
      (transact .step (text "jmp" "nowhere" "")).2 = .stepped (.err .undefinedLabel) := by decide

/-- The codes of R210. -/
theorem test_error_codes :
    [Error.outOfRange, .stackOverflow, .stackUnderflow, .invalidToken, .invalidOperand, .duplicateLabel, .undefinedLabel,
      .invalidOpcode].map errorCode = [1, 2, 3, 4, 5, 6, 7, 8] := by decide

/-- The image of program P3 of spec/95_test_vectors.md, with a forward label past the end. -/
theorem test_assemble :
    assemble (lines ["shr x, 4", "and a, 0x0f", "je done", "mov a, 0xff", "done:"]) =
      .ok [0x71, 0x01, 0x04, 0x41, 0x00, 0x0F, 0xB1, 0x0B, 0x01, 0x00, 0xFF] := by decide

/-! ### Witnesses: for every statement with hypotheses, a state and operands that meet them, each clause at a boundary value -/

theorem witness_DecodeInvertsEncode : (Instr.jmp 255).wf .binary = true ∧ (Instr.call 255).wf .binary = true := by decide

theorem witness_EncodeInvertsDecode : decode [0x8A, 0xFF, 0x00, 0xC0] = .instr (.cmpMM 0xFF 0) 3 := by decide

theorem witness_DecodeRecordInvertsRender :
    (Instr.jge 255).wf .textual = true ∧ ∀ t, (Instr.jge 255).target? = some t → t.toNat < 256 :=
  ⟨by decide, fun t h => by cases h; decide⟩

theorem witness_UnassignedOpcodesAreInvalid :
    (∀ b ∈ ([0x03, 0x07, 0x0B, 0x7F, 0x83, 0x87, 0x8B, 0x91, 0x9C, 0xA4, 0xAF, 0xB8, 0xC0, 0xFF] : List Byte), Unassigned b) ∧
      (∀ b ∈ ([0x00, 0x02, 0x08, 0x7A, 0x84, 0x8A, 0x90, 0x98, 0xA0, 0xA8, 0xB7] : List Byte), ¬Unassigned b) ∧
      decode [0xB8] = .error .invalidOpcode 1 := by
  and_intros <;> decide

theorem witness_LengthFromOpcodeByte :
    ¬Unassigned 0x8A ∧ decode [0x8A, 1, 2] = .instr (.cmpMM 1 2) 3 ∧ ¬Unassigned 0x90 ∧ decode [0x90, 2] = .instr (.pushR .y) 2 ∧
      decode [0x00, 0, 3] = .error .invalidOperand 3 ∧ decode [0x90, 3, 0] = .error .invalidOperand 2 ∧ Unassigned 0xC0 := by
  and_intros <;> decide

theorem witness_RegisterIdsAboveTwoAreInvalid :
    (¬Unassigned 0x00 ∧ namesRegister1 0x00 ∧ 2 < (3 : Byte).toNat) ∧ (¬Unassigned 0x88 ∧ namesRegister2 0x88) ∧
      (¬Unassigned 0xB0 ∧ ¬namesRegister1 0xB0 ∧ ¬namesRegister2 0xB0) ∧
      decode [0x08, 3, 2] = .instr (.movMR 3 .y) 3 := by
  and_intros <;> decide

theorem isLiteral_5 : IsLiteral ['5'] := .inl ⟨by simp, by simp⟩

theorem witness_MovCopiesValue :
    classifyLocation "*255".toList = .ok (.mem 255) ∧ classify "y".toList = .ok (.reg .y) ∧ IsLiteral ['5'] ∧
      ['p', 'c'] ∈ privilegedNames ∧ decode ((encode (.movRR .a .y)).take 1 ++ [0, 3]) = .error .invalidOperand 3 ∧
      decodeRecord [] (rec3 "mov" "a" "") = .error .invalidToken :=
  ⟨by decide, by decide, isLiteral_5, by decide, by decide, by decide⟩

theorem witness_AddAndSubWrap :
    classifyLocation "a".toList = .ok (.reg .a) ∧ classify "0xff".toList = .ok (.imm 0xFF) ∧ IsLiteral ['5'] ∧
      ['p'] ∈ privilegedNames ∧ decode ((encode (.addRI .a 255)).take 1 ++ [0]) = .error .outOfRange 2 ∧
      decode ((encode (.subRI .a 255)).take 1 ++ [3, 0]) = .error .invalidOperand 3 ∧
      decodeRecord [] (rec3 "add" "a" "12a") = .error .invalidToken ∧
      decodeRecord [] (rec3 "sub" "pc" "1") = .error .invalidOperand :=
  ⟨by decide, by decide, isLiteral_5, by decide, by decide, by decide, by decide, by decide⟩

theorem witness_LogicActsBitwise :
    classifyLocation "x".toList = .ok (.reg .x) ∧ classify "*0".toList = .ok (.mem 0) ∧ IsLiteral ['5'] ∧
      ['s'] ∈ privilegedNames ∧ decode ((encode (.orRM .x 0)).take 1 ++ [3, 0]) = .error .invalidOperand 3 ∧
      decode ((encode (.andRM .x 0)).take 1 ++ [3]) = .error .outOfRange 2 ∧
      decode ((encode (.xorRM .x 0)).take 1 ++ []) = .error .outOfRange 1 ∧
      decodeRecord [] (rec3 "xor" "1" "1") = .error .invalidOperand :=
  ⟨by decide, by decide, isLiteral_5, by decide, by decide, by decide, by decide, by decide⟩

theorem witness_ShiftsAreLogical :
    classifyLocation "*7".toList = .ok (.mem 7) ∧ classify "0b111".toList = .ok (.imm 7) ∧ IsLiteral ['5'] ∧
      ['s'] ∈ privilegedNames ∧ decode ((encode (.shlMR 7 .a)).take 1 ++ [0, 0xFF]) = .error .invalidOperand 3 ∧
      decode ((encode (.shrMR 7 .a)).take 1 ++ [0]) = .error .outOfRange 2 ∧
      decodeRecord [] (rec3 "shr" "a" "p") = .error .invalidOperand :=
  ⟨by decide, by decide, isLiteral_5, by decide, by decide, by decide, by decide⟩

theorem witness_MovImmediateReadsBack : [2, 5, 6] ≠ ([] : List Nat) ∧ ∀ d ∈ [2, 5, 6], d < 10 := by decide

theorem witness_ShiftByEightOrMoreGivesZero :
    8 ≤ (valueOf (.imm 8) State.reset).toNat ∧ 8 ≤ (valueOf (.mem 3) { State.reset with ram := [(3, 255)] }).toNat ∧
      (∀ r, Operand.reg .a = .reg r → Loc.reg .x ≠ .reg r) ∧ ∀ b, Operand.mem 3 = .mem b → Loc.mem 4 ≠ .mem b :=
  ⟨by decide, by decide, fun r h => by cases h; decide, fun b h => by cases h; decide⟩

theorem witness_CmpWritesStatus :
    classify "a".toList = .ok (.reg .a) ∧ classify "255".toList = .ok (.imm 255) ∧ ['p'] ∈ privilegedNames ∧
      (valueOf (.reg .a) State.reset).toNat = (valueOf (.mem 255) State.reset).toNat ∧
      (valueOf (.imm 0) State.reset).toNat < (valueOf (.imm 255) State.reset).toNat ∧
      decode ((encode (.cmpRR .a .a)).take 1 ++ [0, 3]) = .error .invalidOperand 3 ∧
      decodeRecord [] (rec3 "cmp" "a" "") = .error .invalidToken := by decide

theorem witness_PushStoresAtStackPointer :
    ({ State.reset with sp := 254 } : State).sp.toNat < 255 ∧ ({ State.reset with sp := 255 } : State).sp.toNat = 255 ∧
      classify "255".toList = .ok (.imm 255) ∧ "x".toList ≠ [] ∧
      decode ((encode (.pushR .a)).take 1 ++ [3]) = .error .invalidOperand 2 ∧
      decodeRecord [] (rec3 "push" "s" "") = .error .invalidOperand := by decide

theorem witness_PopReadsBelowStackPointer :
    0 < ({ State.reset with sp := 1 } : State).sp.toNat ∧ State.reset.sp.toNat = 0 ∧
      classifyLocation "y".toList = .ok (.reg .y) ∧ decode ((encode (.popR .a)).take 1 ++ []) = .error .outOfRange 1 ∧
      decodeRecord [] (rec3 "pop" "5" "") = .error .invalidOperand := by decide

theorem witness_StackReversesPushes :
    ({ State.reset with sp := 253 } : State).sp.toNat + [(1 : Byte), 2].length = 255 ∧ [(1 : Byte), 2].reverse[1]? = some 1 ∧
      State.reset.sp.toNat + ([] : List Byte).length = 0 := by decide

theorem witness_StackErrorsOnlyAtTheBounds :
    (stepped { bin [0x94, 1] with sp := 255 }).stepResult = .err .stackOverflow ∧
      (stepped (bin [0xA8, 255])).stepResult = .err .stackUnderflow ∧ (stepped { bin [0x94, 1] with sp := 254 }).stepResult = .ok 2 := by
  decide

theorem witness_JmpGoesToTarget :
    Taken .always 0 ∧ State.reset.len ≤ (0 : Word16).toNat ∧ classifyTarget [("loop".toList, 65535)] "loop".toList = .ok 65535 ∧
      ['a'] ∈ registerNames ∧ (∃ lit, "*5".toList = '*' :: lit ∧ IsLiteral lit) ∧
      (∃ t, classifyTarget [] "255".toList = .ok t) ∧ decode ((encode (.jmp 0)).take 1 ++ []) = .error .outOfRange 1 ∧
      decodeRecord [] (rec3 "jmp" "nowhere" "") = .error .undefinedLabel :=
  ⟨trivial, by decide, by decide, by decide, ⟨['5'], by decide, isLiteral_5⟩, ⟨255, by decide⟩, by decide, by decide⟩

theorem witness_ConditionalJumpsTestFlags :
    (Taken .equal 0x02 ∧ ¬Taken .equal 0x04) ∧ (Taken .notEqual 0x00 ∧ ¬Taken .notEqual 0x02) ∧
      (Taken .lower 0x04 ∧ ¬Taken .lower 0x02) ∧ (Taken .lowerEqual 0x02 ∧ Taken .lowerEqual 0x04 ∧ ¬Taken .lowerEqual 0x08) ∧
      (Taken .greater 0x08 ∧ ¬Taken .greater 0x02) ∧
      (Taken .greaterEqual 0x02 ∧ Taken .greaterEqual 0x08 ∧ ¬Taken .greaterEqual 0x04) ∧
      (∃ t, classifyTarget [] "255".toList = .ok t) ∧ decode ((encode (.je 0)).take 1 ++ []) = .error .outOfRange 1 := by
  refine ⟨?_, ?_, ?_, ?_, ?_, ?_, ⟨255, by decide⟩, by decide⟩ <;> simp only [Taken] <;> decide

theorem witness_JumpStepMovesPc :
    ((bin [0xB1, 0xFF]).rom = .binary [0xB1, 0xFF] ∧ ([0xB1, 0xFF] : List Byte)[0]? = some (jumpByte .equal) ∧
        ([0xB1, 0xFF] : List Byte)[1]? = some 0xFF ∧ (bin [0xB1, 0xFF]).len ≤ (255 : Word16).toNat) ∧
      (text "jge" "end" "").rom = .textual [⟨jumpWord .greaterEqual, "end".toList, []⟩] ∧
      classifyTarget [("end".toList, 1)] "end".toList = .ok 1 := by decide

theorem witness_CallDoesNothing :
    (bin [0xB7, 0x40]).rom = .binary [0xB7, 0x40] ∧ ([0xB7, 0x40] : List Byte)[0]? = some 0xB7 ∧
      ([0xB7, 0x40] : List Byte)[1]? = some 0x40 := by decide

theorem witness_StepRunsDecodedBytes :
    ({ bin [0, 0x08, 0xFF, 0x02] with pc := 1 } : State).rom = .binary [0, 0x08, 0xFF, 0x02] ∧
      decode (([0, 0x08, 0xFF, 0x02] : List Byte).drop 1) = .instr (.movMR 0xFF .y) 3 := by decide

theorem witness_StepRunsDecodedRecord :
    (text "mov" "a" "1").rom = .textual [rec3 "mov" "a" "1"] ∧ decodeRecord [] (rec3 "mov" "a" "1") = .ok (.movRI .a 1) := by decide

theorem witness_BinaryDecodeErrorLeavesPc :
    ([] : List Byte).length ≤ (bin []).pc.toNat ∧ opcode? 0xB8 = none ∧ opcode? 0x01 = some (.ds .mov .reg .imm) ∧
      ([0x01, 0x00] : List Byte).length < 0 + (Opcode.ds .mov .reg .imm).size ∧
      resolveOperands (.ds .mov .reg .imm) 3 0 = .error .invalidOperand ∧
      0 + (Opcode.ds .mov .reg .imm).size ≤ ([0x01, 0x03, 0x00] : List Byte).length := by decide

theorem witness_TextualDecodeErrorWritesNothing :
    ([] : List InstrRecord).length ≤ State.reset.pc.toNat ∧ (text "nop" "1" "").rom = .textual [rec3 "nop" "1" ""] ∧
      decodeRecord [] (rec3 "nop" "1" "") = .error .invalidOpcode := by decide

theorem witness_OutOfRangeExactlyBeyondProgram :
    (bin [0x01, 0x00]).len ≤ 65535 ∧ (stepped (bin [0x01, 0x00])).stepResult = .err .outOfRange ∧
      (stepped (bin [0x01, 0x00, 0x05])).stepResult = .ok 3 := by decide

theorem witness_ErrorsArePrecise :
    (stepped (bin [0x00, 0x03, 0x00])).stepResult = .err .invalidOperand ∧ (stepped (bin [0x00, 0x03, 0x00])).pc = 3 ∧
      (stepped (text "mov" "5" "a")).stepResult = .err .invalidOperand ∧ (text "mov" "5" "a").frontEnd = .textual := by decide

theorem witness_TextualErrorRecurs :
    (text "pop" "x" "").frontEnd = .textual ∧ (stepped (text "pop" "x" "")).stepResult = .err .stackUnderflow := by decide

theorem witness_StepAtEndChangesNothing :
    ({ bin [0x01, 0x00, 0x05] with pc := 3 } : State).len ≤ ({ bin [0x01, 0x00, 0x05] with pc := 3 } : State).pc.toNat := by decide

theorem witness_PcNeverWraps :
    (bin [0xB0, 0xFF]).len ≤ 65535 ∧ (bin [0xB0, 0xFF]).pc.toNat < (bin [0xB0, 0xFF]).len ∧
      (decodePhase (bin [0xB0, 0xFF])).1 = .ok (.jump .always 255) := by decide

theorem witness_WhoWritesWhat :
    (∀ u w, Instr.call 0 ≠ .cmp u w) ∧ (∀ src, Instr.call 0 ≠ .push src) ∧ (∀ dst, Instr.call 0 ≠ .pop dst) ∧
      ∀ op dst src, Instr.call 0 ≠ .ds op dst src := by
  refine ⟨fun u w => ?_, fun src => ?_, fun dst => ?_, fun op dst src => ?_⟩
  · cases u <;> cases w <;> simp [Instr.cmp]
  · cases src <;> simp [Instr.push]
  · cases dst <;> simp [Instr.pop]
  · cases op <;> cases dst <;> cases src <;> simp [Instr.ds]

theorem witness_DeadStackBytesUnobservable :
    AgreeOnLive { State.reset with sp := 1, stk := [(0, 7)] } { State.reset with sp := 1, stk := [(0, 7), (1, 9)] } :=
  ⟨rfl, by decide⟩

theorem witness_HighRamUnobservable :
    AgreeOnLowRam { State.reset with ram := [(255, 7)] } { State.reset with ram := [(255, 7), (256, 9)] } :=
  ⟨rfl, fun k hk => by
    simp only [Memory.read]
    rw [if_neg (show 256 ≠ k by omega)]⟩

theorem witness_RegistersAreInterchangeable :
    ∃ f g : Reg → Reg, f .a = .x ∧ (∀ r, g (f r) = r) ∧ ∀ r, f (g r) = r :=
  ⟨fun | .a => .x | .x => .y | .y => .a, fun | .x => .a | .y => .x | .a => .y, rfl, fun r => by cases r <;> rfl,
    fun r => by cases r <;> rfl⟩

theorem witness_LiteralsAreTruncated :
    [0, 0, 2, 5, 6] ≠ ([] : List Nat) ∧ (∀ d ∈ [0, 0, 2, 5, 6], d < 10) ∧ (∀ d ∈ [1, 15, 15], d < 16) ∧ ∀ d ∈ [1, 0, 1], d < 2 := by
  decide

theorem not_isLiteral_cons {c : Char} {cs : Token} (h : c ∉ "0123456789".toList) : ¬IsLiteral (c :: cs) := by
  rintro (⟨-, hl⟩ | ⟨ds, he, -⟩ | ⟨ds, he, -⟩)
  · exact h (hl c (by simp))
  · cases he; exact h (by decide)
  · cases he; exact h (by decide)

theorem witness_ClassifyInOrder :
    ['p', 'c'] ∈ privilegedNames ∧ IsLiteral ['5'] ∧ "*5".toList = '*' :: ['5'] ∧
      ("-1".toList ∉ registerNames ∧ ¬IsLiteral "-1".toList ∧ ∀ lit, "-1".toList = '*' :: lit → ¬IsLiteral lit) ∧
      "*".toList ∉ registerNames ∧ ¬IsLiteral "*".toList ∧ ∀ lit, "*".toList = '*' :: lit → ¬IsLiteral lit := by
  refine ⟨by decide, isLiteral_5, by decide, ⟨by decide, not_isLiteral_cons (by decide), fun lit h => ?_⟩, by decide,
    not_isLiteral_cons (by decide), fun lit h => ?_⟩
  · exact absurd (List.cons.inj h).1 (by decide)
  · obtain rfl : lit = [] := (List.cons.inj h).2.symm
    rintro (⟨h, -⟩ | ⟨ds, h, -⟩ | ⟨ds, h, -⟩)
    · exact h rfl
    · cases h
    · cases h

theorem witness_JumpTargetsAreResolved :
    ['x'] ∈ registerNames ∧ IsLiteral ['5'] ∧ isIdentifier "_l1".toList = true ∧ "_l1".toList ∉ registerNames ∧
      (([("_l1".toList, 65535)] : LabelTable).map Prod.fst).Nodup ∧ ("_l1".toList, 65535) ∈ ([("_l1".toList, 65535)] : LabelTable) ∧
      (∀ l ∈ ([("end".toList, 1)] : LabelTable), l.1 ≠ "_l1".toList) ∧ isIdentifier "-1".toList = false ∧
      ¬IsLiteral "-1".toList := by
  refine ⟨by decide, isLiteral_5, by decide, by decide, by decide, by decide, by decide, by decide, ?_⟩
  exact not_isLiteral_cons (by decide)

theorem witness_OperandCountIsChecked :
    "jge".toList ∈ mnemonics ∧ (∃ l, classifyLocation ['a'] = .ok l) ∧ (∃ o, classify "1".toList = .ok o) ∧ "x".toList ≠ [] ∧
      ∃ t, classifyTarget [] "0".toList = .ok t :=
  ⟨by decide, ⟨.reg .a, by decide⟩, ⟨.imm 1, by decide⟩, by decide, ⟨0, by decide⟩⟩

theorem witness_UndefinedLabelIsAnError :
    (text "jmp" "loop" "").rom = .textual [⟨jumpWord .always, "loop".toList, []⟩] ∧ isIdentifier "loop".toList = true ∧
      "loop".toList ∉ registerNames ∧ (∀ l ∈ (text "jmp" "loop" "").labels, l.1 ≠ "loop".toList) ∧
      (([("loop".toList, 0)] : LabelTable).map Prod.fst).Nodup := by decide

theorem witness_LoadInstallsAndResets :
    (∃ bytes : List Byte, bytes.length = 65535) ∧ (∃ bytes : List Byte, bytes.length = 65536) ∧
      prepass (lines ["loop:", "jmp loop"]) = .ok ([rec3 "jmp" "loop" ""], [("loop".toList, 0)]) ∧
      ([rec3 "jmp" "loop" ""] : List InstrRecord).length ≤ 65535 :=
  ⟨⟨_, List.length_replicate (a := 0)⟩, ⟨_, List.length_replicate (a := 0)⟩, by decide, by decide⟩

/-- The one clause whose input is too long to write out: 65536 lines give 65536 records (V96's bound, for text). -/
theorem witness_LoadInstallsAndResets_too_long :
    ∃ ls records table, prepass ls = .ok (records, table) ∧ 65535 < records.length := by
  have key : ∀ n k, prepassFrom (List.replicate n "nop".toList) k [] = .ok (List.replicate n (rec3 "nop" "" ""), []) := by
    intro n
    induction n with
    | zero => exact fun k => rfl
    | succ n ih =>
      intro k
      have hl : parseLine "nop".toList = .ok (.record (rec3 "nop" "" "")) := by decide
      simp only [List.replicate_succ, prepassFrom, hl, ih]
  refine ⟨_, _, _, key 65536 0, ?_⟩
  rw [List.length_replicate]
  norm_num

theorem witness_FailedLoadChangesNothing :
    prepass (lines ["x1:", "X1:"]) = .error .duplicateLabel ∧ prepass (lines ["l: mov a, 1"]) = .error .invalidToken ∧
      (transact (.loadProgram (.textual (lines ["x1:", "X1:"]))) State.reset).2 = .err .duplicateLabel :=
  ⟨by decide, by decide, by decide⟩

theorem witness_LabelNamesNextRecord :
    parseLine "Loop:".toList = .ok (.label "loop".toList) ∧
      prepass (lines ["mov a, 0"] ++ "Loop:".toList :: lines ["jmp loop"]) =
        .ok ([rec3 "mov" "a" "0", rec3 "jmp" "loop" ""], [("loop".toList, 1)]) := ⟨by decide, by decide⟩

theorem witness_TwoLabelsOfOneNameFail :
    (∀ l ∈ lines ["x1:", "X1:"], ∃ x, parseLine l = .ok x) ∧
      ((lines ["x1:", "X1:"])[0]?.map parseLine) = some (.ok (.label "x1".toList)) ∧
      ((lines ["x1:", "X1:"])[1]?.map parseLine) = some (.ok (.label "x1".toList)) ∧
      ∀ (i j : Nat) (name : Token), i < j → ((lines ["x1:"])[i]?.map parseLine) = some (.ok (.label name)) →
        ((lines ["x1:"])[j]?.map parseLine) ≠ some (.ok (.label name)) := by
  refine ⟨?_, by decide, by decide, fun i j name hij _ h => ?_⟩
  · intro l hl
    refine ⟨.label "x1".toList, ?_⟩
    revert l
    decide
  · rw [List.getElem?_eq_none (by simp [lines]; omega)] at h
    cases h

theorem witness_CaseIsFoldedOnce : parseLine " MOV A , 0X2A ; X".toList = .ok (.record (rec3 "mov" "a" "0x2a")) := by decide

theorem witness_HostReadsRegisters : "pc".toList ∉ [['a'], ['A'], ['x'], ['X'], ['y'], ['Y'], ['p'], ['P'], ['s'], ['S']] := by decide

theorem witness_BatchRunEndsAtEndOrError :
    batchRun 1 (bin [0x01, 0x00, 0x05]) = .normal { bin [0x01, 0x00, 0x05] with a := 5, pc := 3, stepResult := .ok 3 } ∧
      batchRun 1 (bin [0xA0, 0x00]) = .failed .stackUnderflow { bin [0xA0, 0x00] with pc := 2, stepResult := .err .stackUnderflow } := by
  decide

/-- A state that meets the invariant with every part of it in use, and its step. -/
theorem witness_StepKeepsInvariant :
    State.Inv { bin [0x94, 0x05] with p := 0x08, sp := 254, ram := [(255, 1)], stk := [(0, 1), (253, 2)] } ∧
      (stepped { bin [0x94, 0x05] with p := 0x08, sp := 254, ram := [(255, 1)], stk := [(0, 1), (253, 2)] }).stk =
        [(0, 1), (253, 2), (254, 5)] :=
  ⟨⟨by decide, by decide, by decide, rfl, by decide, by decide, rfl⟩, by decide⟩

theorem witness_TransactionsKeepInvariant :
    State.Inv { text "jmp" "loop" "" with labels := [("loop".toList, 0)] } :=
  ⟨by decide, by decide, by decide, rfl, by decide, by decide, rfl⟩

theorem witness_AssembledImageDecodes :
    prepass (lines ["mov a, 1", "l:", "je l"]) = .ok ([rec3 "mov" "a" "1", rec3 "je" "l" ""], [("l".toList, 1)]) ∧
      assemble (lines ["mov a, 1", "l:", "je l"]) = .ok [0x01, 0x00, 0x01, 0xB1, 0x03] := ⟨by decide, by decide⟩

theorem witness_FrontEndsRunAlike :
    prepass (lines ["mov a, 1", "l:", "je l"]) = .ok ([rec3 "mov" "a" "1", rec3 "je" "l" ""], [("l".toList, 1)]) ∧
      assemble (lines ["mov a, 1", "l:", "je l"]) = .ok [0x01, 0x00, 0x01, 0xB1, 0x03] ∧
      (∀ r ∈ [rec3 "mov" "a" "1", rec3 "je" "l" ""], JumpsByLabel r ∧ r.mnemonic ≠ "call".toList) ∧
      SamePoint [rec3 "mov" "a" "1", rec3 "je" "l" ""] [("l".toList, 1)] [0x01, 0x00, 0x01, 0xB1, 0x03]
        { State.reset with rom := .textual [rec3 "mov" "a" "1", rec3 "je" "l" ""], labels := [("l".toList, 1)], pc := 1 }
        { bin [0x01, 0x00, 0x01, 0xB1, 0x03] with pc := 3 } := by
  refine ⟨by decide, by decide, fun r hr => ?_, rfl, rfl, rfl, by decide, by decide, ⟨rfl, rfl, rfl⟩, rfl, ⟨rfl, rfl⟩, rfl, rfl⟩
  simp only [List.mem_cons, List.not_mem_nil, or_false] at hr
  obtain rfl | rfl := hr
  · exact ⟨fun c h => by cases c <;> revert h <;> decide, by decide⟩
  · exact ⟨fun _ _ => by decide, by decide⟩

end Sys2Proof.Tests
end

section
/-! PROOFS. The family of spec/10_state.md: where a step leaves PC (R30). -/

namespace Sys2Proof.Proofs

open Sys2Proof Sys2Proof.Machine Sys2Proof.Claims

/-! ### Where PC can be after an instruction and after the decode phase -/

/-- An instruction leaves PC as it is (a stack error), advances it, or is a jump to the PC it leaves. -/
theorem exec_pc_cases (i : Instr) (s : State) :
    ∃ t, exec i s = .next t ∧ (t.pc = s.pc ∨ t.pc = (advance s).pc ∨ ∃ c, i = .jump c t.pc) := by
  obtain ⟨op, dst, src, rfl⟩ | ⟨u, w, rfl⟩ | ⟨src, rfl⟩ | ⟨dst, rfl⟩ | ⟨c, target, rfl⟩ | ⟨b, rfl⟩ := i.shapes
  · exact ⟨_, exec_ds_next op dst src s, .inr (.inl rfl)⟩
  · exact ⟨_, exec_cmp_next u w s, .inr (.inl rfl)⟩
  · obtain ⟨-, he⟩ | ⟨-, he⟩ := exec_push_cases src s
    · exact ⟨_, he, .inl rfl⟩
    · exact ⟨_, he, .inr (.inl rfl)⟩
  · obtain ⟨-, he⟩ | ⟨-, he⟩ := exec_pop_cases dst s
    · exact ⟨_, he, .inl rfl⟩
    · exact ⟨_, he, .inr (.inl rfl)⟩
  · refine ⟨_, exec_jump_next c target s, ?_⟩
    by_cases htaken : condHolds c s.p = true
    · exact .inr (.inr ⟨c, by simp only [if_pos htaken]⟩)
    · exact .inr (.inl (if_neg htaken))
  · exact ⟨_, exec_call_next b s, .inr (.inl rfl)⟩

/-- A PC that a step reaches without jumping (R30): not behind the old PC, at most three further, and not past the end. -/
def ForwardPc (s : State) (p : Word16) : Prop :=
  s.pc.toNat ≤ p.toNat ∧ p.toNat ≤ s.pc.toNat + 3 ∧ p.toNat ≤ s.len

/-- Moving PC past `n ≤ 3` entries that the program holds does not wrap. -/
theorem forwardPc_add {s : State} (hlen : s.len ≤ 65535) {n : Nat} (hn : n ≤ 3) (hfit : s.pc.toNat + n ≤ s.len) :
    ForwardPc s (s.pc + BitVec.ofNat 16 n) := by
  have hadd : (s.pc + BitVec.ofNat 16 n).toNat = s.pc.toNat + n := by
    rw [BitVec.toNat_add, BitVec.toNat_ofNat, Nat.add_mod_mod, Nat.mod_eq_of_lt (by omega)]
  unfold ForwardPc
  omega

/-- What decoding answers leaves PC past the bytes it read, at most three and never more than there are. -/
theorem outcome_decode_state (bytes : List Byte) (s : State) :
    ∃ n, (Decoded.outcome (decode bytes) s).2 = s.setPc (s.pc + BitVec.ofNat 16 n) ∧ n ≤ 3 ∧ n ≤ bytes.length := by
  obtain ⟨hinstr, herror⟩ := decode_bounds bytes
  cases hd : decode bytes with
  | instr i n =>
    obtain ⟨-, hn⟩ := hinstr i n hd
    exact ⟨n, rfl, hn⟩
  | error e n => exact ⟨n, rfl, herror e n hd⟩

/-- From inside the program the decode phase leaves PC forward, and so does an `advance()` after it. -/
theorem decodePhase_forwardPc {s : State} (hlen : s.len ≤ 65535) (hpc : s.pc.toNat < s.len) :
    ∃ p, (decodePhase s).2 = s.setPc p ∧ ForwardPc s p ∧ ForwardPc s (advance (s.setPc p)).pc := by
  cases hr : s.rom with
  | binary bytes =>
    have hbytes : s.len = bytes.length := by simp only [State.len, hr, Rom.len]
    have hbinary : s.frontEnd = .binary := by simp only [State.frontEnd, hr, Rom.frontEnd]
    obtain ⟨n, hstate, hn, hle⟩ := outcome_decode_state (bytes.drop s.pc.toNat) s
    rw [List.length_drop] at hle
    have hforward := forwardPc_add hlen hn (by omega)
    refine ⟨_, by rw [decodePhase_binary hr (by omega), hstate], hforward, ?_⟩
    rwa [advance_pc, State.setPc_frontEnd, if_pos hbinary]
  | textual records =>
    have htextual : s.frontEnd = .textual := by simp only [State.frontEnd, hr, Rom.frontEnd]
    obtain ⟨p, hstate, hp⟩ := decodePhase_state s
    obtain rfl := hp htextual
    refine ⟨_, hstate, ⟨le_rfl, by omega, by omega⟩, ?_⟩
    rw [advance_pc, State.setPc_self, if_neg (by simp [htextual])]
    exact forwardPc_add hlen (n := 1) (by omega) hpc

/-! ### The statement -/

/-- Settles O34: PC is forward after the decode phase and after an `advance()`, and an instruction that leaves it anywhere else is
a jump to there. -/
theorem pcNeverWraps : Obligations.PcNeverWraps := by
  intro s hlen hpc
  obtain ⟨p, hstate, hdecoded, hadvanced⟩ := decodePhase_forwardPc hlen hpc
  rw [step_eq]
  rcases hd : decodePhase s with ⟨result, s'⟩
  obtain rfl : s' = s.setPc p := by rw [← hstate, hd]
  cases result with
  | error e => exact ⟨_, raiseError_eq e _, .inl hdecoded⟩
  | ok i =>
    obtain ⟨t, ht, hsame | hadv | ⟨c, rfl⟩⟩ := exec_pc_cases i (s.setPc p)
    · exact ⟨t, ht, .inl (by rw [hsame]; exact hdecoded)⟩
    · exact ⟨t, ht, .inl (by rw [hadv]; exact hadvanced)⟩
    · exact ⟨t, ht, .inr ⟨c, rfl⟩⟩

end Sys2Proof.Proofs
end

section
/-! PROOFS. What ties the statements' own terms to the model: operand values and codes, PC after `advance()`, the tokens named by
their form, and the errors that decoding an instruction or a record can raise. -/

namespace Sys2Proof.Proofs

open Sys2Proof Sys2Proof.Machine Sys2Proof.Claims

/-! ### Operands, locations and PC -/

theorem valueOf_eq_operandValue (o : Operand) (s : State) : valueOf o s = operandValue o s := by
  cases o with
  | reg r => cases r <;> rfl
  | imm v => rfl
  | mem b => simp only [valueOf, operandValue, memRead, ramIndex_eq]

theorem valueAt_eq_locValue (l : Loc) (s : State) : valueAt l s = locValue l s := by
  cases l with
  | reg r => cases r <;> rfl
  | mem b => simp only [valueAt, locValue, memRead, ramIndex_eq]

theorem operandCode_eq (o : Operand) : operandCode o = (o.kind.bits, o.byte) := by
  cases o with
  | reg r => cases r <;> rfl
  | imm v => rfl
  | mem b => rfl

theorem locCode_eq (l : Loc) : locCode l = (l.kind.bits, l.byte) := by
  cases l with
  | reg r => cases r <;> rfl
  | mem b => rfl

theorem pcAdvanced_eq_advance_pc (s : State) : pcAdvanced s = (advance s).pc := by
  rw [advance_pc, pcAdvanced, State.frontEnd]
  cases s.rom <;> rfl

/-! ### Tokens by their form -/

/-- The characters of a base's digit alphabet are digits of that base (R112). -/
theorem isDigit_of_mem {base : Nat} {alphabet : List Char}
    (halphabet : (alphabet.all fun c => (digitValue? c).any (· < base)) = true) {t : Token} (ht : ∀ c ∈ t, c ∈ alphabet) :
    ∀ c ∈ t, IsDigit base c := by
  intro c hc
  simpa [Option.any_eq_true] using List.all_eq_true.1 halphabet c (ht c hc)

/-- A literal begins with a decimal digit, so it is neither a register name nor a memory token. -/
theorem isLiteral_head_mem {t : Token} (h : IsLiteral t) : ∃ c cs, t = c :: cs ∧ c ∈ "0123456789".toList := by
  obtain ⟨hne, hdigits⟩ | ⟨ds, rfl, -⟩ | ⟨ds, rfl, -⟩ := h
  · obtain ⟨c, cs, rfl⟩ := List.exists_cons_of_ne_nil hne
    exact ⟨c, cs, rfl, hdigits c List.mem_cons_self⟩
  · exact ⟨_, _, rfl, by decide⟩
  · exact ⟨_, _, rfl, by decide⟩

/-- Decimal digits alone never begin with `0x` or `0b`. -/
theorem numLit?_of_decimal {t : Token} (hdigits : ∀ c ∈ t, c ∈ "0123456789".toList) : numLit? t = digits? 10 t := by
  unfold numLit?
  split
  · exact absurd (hdigits 'x' (by simp)) (by decide)
  · exact absurd (hdigits 'b' (by simp)) (by decide)
  · rfl

/-- `NumLit` reads every literal (R112). -/
theorem numLit?_of_isLiteral {t : Token} (h : IsLiteral t) : ∃ n, numLit? t = some n := by
  obtain ⟨hne, hdigits⟩ | ⟨ds, rfl, hne, hdigits⟩ | ⟨ds, rfl, hne, hdigits⟩ := h
  · rw [numLit?_of_decimal hdigits]
    exact (digits?_isSome 10 t).2 ⟨hne, isDigit_of_mem (by decide) hdigits⟩
  · exact (digits?_isSome 16 ds).2 ⟨hne, isDigit_of_mem (by decide) hdigits⟩
  · exact (digits?_isSome 2 ds).2 ⟨hne, isDigit_of_mem (by decide) hdigits⟩

/-- A literal is classified as an immediate (R111, R112). -/
theorem classify_of_isLiteral {t : Token} (h : IsLiteral t) : ∃ v, classify t = .ok (.imm v) := by
  obtain ⟨n, hn⟩ := numLit?_of_isLiteral h
  obtain ⟨c, cs, rfl, hc⟩ := isLiteral_head_mem h
  have hne (d : Char) (hd : d ∉ "0123456789".toList) : c ≠ d := ne_of_mem_of_not_mem hc hd
  have hreg : regToken? (c :: cs) = none :=
    regToken?_eq_none (by simp [hne 'a']) (by simp [hne 'x']) (by simp [hne 'y'])
  have hprivileged : isPrivilegedToken (c :: cs) = false := by simp [isPrivilegedToken, hne 'p', hne 's']
  have hmem : memToken? (c :: cs) = none := by
    unfold memToken?
    split
    · exact absurd (List.cons.inj ‹_›).1 (hne '*' (by decide))
    · rfl
  exact ⟨trunc8 n, by simp [classify, hreg, hprivileged, hmem, num?, hn]⟩

/-- No operand may name `p`, `s` or `pc` (R111). -/
theorem classify_privileged {t : Token} (h : t ∈ privilegedNames) : classify t = .error .invalidOperand := by
  revert t
  decide

/-- A destination is neither `p`, `s`, `pc` nor an immediate (R111, R113). -/
theorem classifyLocation_privileged_or_literal {t : Token} (h : t ∈ privilegedNames ∨ IsLiteral t) :
    classifyLocation t = .error .invalidOperand := by
  obtain h | h := h
  · rw [classifyLocation, classify_privileged h]
  · obtain ⟨v, hv⟩ := classify_of_isLiteral h
    rw [classifyLocation, hv]

/-- A one-operand record's second operand is refused (R116). -/
theorem noSecondOperand_of_ne_nil {t : Token} (h : t ≠ []) : noSecondOperand t = .error .invalidOperand := if_neg h

/-! ### The errors of decode -/

/-- A mnemonic that is no jump raises InvalidToken or InvalidOperand or nothing (R117). -/
theorem textualErrorsAmong_of_not_jump {m : Token} {op : TextOp} (hop : textOp? m = some op) (hjump : ∀ c, op ≠ .jump c) :
    TextualErrorsAmong m [.invalidToken, .invalidOperand] := by
  intro labels p1 p2 e h
  obtain ⟨hnone, -⟩ | ⟨-, he⟩ | ⟨⟨c, hc⟩, -⟩ := decodeRecord_error h
  · simp [hop] at hnone
  · simpa using he
  · rw [hop, Option.some.injEq] at hc
    exact absurd hc (hjump c)

/-- After an assigned opcode byte decode can only miss an operand byte or refuse one (R97, R98). -/
theorem decode_error_of_opcode {b : Byte} {o : Opcode} (ho : opcode? b = some o) {operands : List Byte} {e : Error} {n : Nat}
    (h : decode (b :: operands) = .error e n) : e = .outOfRange ∨ e = .invalidOperand := by
  by_cases hshort : operands.length + 1 < o.size
  · simp only [decode, ho, if_pos hshort] at h
    cases h
    exact .inl rfl
  · rw [decode_of_opcode ho operands (by omega)] at h
    split at h
    · cases h
    · rename_i e' hr
      cases h
      exact .inr (resolveOperands_error hr)

/-- Bytes that begin with an instruction's opcode byte decode, or raise OutOfRange or InvalidOperand. -/
theorem binaryErrorsAmong (i : Instr) : BinaryErrorsAmong i [.outOfRange, .invalidOperand] := by
  intro rest e n h
  obtain ⟨operands, hbytes, -⟩ := encodeResolved_eq i.resolved
  rw [encode, hbytes] at h
  simpa using decode_error_of_opcode (opcode?_byte _) h

end Sys2Proof.Proofs
end

section
/-! PROOFS. The family of spec/20_memory.md: PUSH and POP (R61, R62, R180, R181). -/

namespace Sys2Proof.Proofs

open Sys2Proof Sys2Proof.Machine Sys2Proof.Claims

/-! ### The text forms -/

/-- The record of a PUSH (R116, R117). -/
theorem decodeRecord_push (labels : LabelTable) (p1 p2 : Token) :
    decodeRecord labels ⟨"push".toList, p1, p2⟩ =
      (do let src ← classify p1; noSecondOperand p2; return .push src) := rfl

/-- The record of a POP (R116, R117). -/
theorem decodeRecord_pop (labels : LabelTable) (p1 p2 : Token) :
    decodeRecord labels ⟨"pop".toList, p1, p2⟩ =
      (do let dst ← classifyLocation p1; noSecondOperand p2; return .pop dst) := rfl

/-! ### The effects -/

/-- PUSH below S = 255 (R61): the value at `stk[S]`, S one higher, and nothing else but PC. -/
theorem exec_push_stores (src : Operand) {s : State} (hs : s.sp.toNat < 255) :
    ∃ t, exec (.push src) s = .next t ∧
      t.stk.read s.sp.toNat = valueOf src s ∧ t.sp.toNat = s.sp.toNat + 1 ∧
      (∀ k, k ≠ s.sp.toNat → t.stk.read k = s.stk.read k) ∧ (∀ r, t.reg r = s.reg r) ∧
      (∀ addr, t.ram.read addr = s.ram.read addr) ∧
      t.p = s.p ∧ SameProgram s t ∧ t.pc = pcAdvanced s ∧ ReturnedOk t := by
  obtain ⟨hfull, -⟩ | ⟨-, hexec⟩ := exec_push_cases src s
  · omega
  · rw [valueOf_eq_operandValue, pcAdvanced_eq_advance_pc]
    have hsp : (s.sp + 1).toNat = s.sp.toNat + 1 := by bv_omega
    exact ⟨_, hexec, Memory.read_write_same .., hsp, fun k hk => Memory.read_write_other _ _ _ _ hk, fun _ => rfl,
      fun _ => rfl, rfl, ⟨rfl, rfl, rfl⟩, rfl, rfl⟩

/-- POP above S = 0 (R62): the byte at `stk[S-1]` in the destination, S one lower, and nothing else but PC. -/
theorem exec_pop_reads (dst : Loc) {s : State} (hs : 0 < s.sp.toNat) :
    ∃ t, exec (.pop dst) s = .next t ∧
      valueAt dst t = s.stk.read (s.sp.toNat - 1) ∧ t.sp.toNat = s.sp.toNat - 1 ∧ t.stk = s.stk ∧
      (∀ r, dst ≠ .reg r → t.reg r = s.reg r) ∧
      (∀ addr, locAddress? dst ≠ some addr → t.ram.read addr = s.ram.read addr) ∧
      t.p = s.p ∧ SameProgram s t ∧ t.pc = pcAdvanced s ∧ ReturnedOk t := by
  obtain ⟨hempty, -⟩ | ⟨-, hexec⟩ := exec_pop_cases dst s
  · omega
  · obtain ⟨hvalue, hregs, hram, -⟩ := locWrite_spec dst (s.stk.read (s.sp.toNat - 1)) s
    have hsp : (s.sp - 1).toNat = s.sp.toNat - 1 := by bv_omega
    refine ⟨_, hexec, ?_, hsp, locWrite_stk .., hregs, hram, locWrite_p ..,
      ⟨locWrite_rom .., locWrite_labels .., locWrite_video ..⟩, (pcAdvanced_eq_advance_pc s).symm, rfl⟩
    rw [valueAt_eq_locValue]
    exact (locValue_congr dst (fun _ => rfl) fun _ _ => rfl).trans hvalue

/-! ### The statements -/

/-- Settles O17: the encoding and the text form by the kind of the source, the effect by the two cases of `StackPush`. -/
theorem pushStoresAtStackPointer : Obligations.PushStoresAtStackPointer := by
  intro src
  refine ⟨?encoding, ?text, textualErrorsAmong_of_not_jump (op := .push) rfl (by simp), ?privileged, binaryErrorsAmong _,
    fun s => ⟨exec_push_stores src, ?overflow⟩⟩
  case encoding => rw [encode_push, operandCode_eq]; rfl
  case text =>
    intro labels p1 hp1
    refine ⟨by rw [decodeRecord_push, hp1]; rfl, fun p2 hp2 => ?_⟩
    rw [decodeRecord_push, hp1, noSecondOperand_of_ne_nil hp2]
    rfl
  case privileged =>
    intro labels p1 p2 hp1
    rw [decodeRecord_push, classify_privileged hp1]
    rfl
  case overflow =>
    intro hfull
    obtain ⟨-, hexec⟩ | ⟨hlt, -⟩ := exec_push_cases src s
    · exact hexec
    · omega

/-- Settles O18: the encoding and the text form by the kind of the destination, the effect by the two cases of `StackPop`. -/
theorem popReadsBelowStackPointer : Obligations.PopReadsBelowStackPointer := by
  intro dst
  refine ⟨?encoding, ?text, textualErrorsAmong_of_not_jump (op := .pop) rfl (by simp), ?refused, binaryErrorsAmong _,
    fun s => ⟨exec_pop_reads dst, ?underflow⟩⟩
  case encoding => rw [encode_pop, locCode_eq]; rfl
  case text =>
    intro labels p1 hp1
    refine ⟨by rw [decodeRecord_pop, hp1]; rfl, fun p2 hp2 => ?_⟩
    rw [decodeRecord_pop, hp1, noSecondOperand_of_ne_nil hp2]
    rfl
  case refused =>
    intro labels p1 p2 hp1
    rw [decodeRecord_pop, classifyLocation_privileged_or_literal hp1]
    rfl
  case underflow =>
    intro hempty
    obtain ⟨-, hexec⟩ | ⟨hpos, -⟩ := exec_pop_cases dst s
    · exact hexec
    · omega

end Sys2Proof.Proofs
end

section
/-! PROOFS. The family of spec/30_encoding.md, binary part: the opcode map (R93, R94), lengths (R85) and register operands (R87). -/

namespace Sys2Proof.Proofs

open Sys2Proof Sys2Proof.Machine Sys2Proof.Claims

/-! ### What an opcode byte says -/

/-- The unassigned bytes are those R94 lists. -/
theorem opcode?_eq_none_iff (b : Byte) : opcode? b = none ↔ Unassigned b := by
  revert b
  decide

theorem exists_opcode_of_assigned {b : Byte} (h : ¬Unassigned b) : ∃ o, opcode? b = some o :=
  Option.ne_none_iff_exists'.1 (mt (opcode?_eq_none_iff b).1 h)

/-- The length by the group of the opcode byte (R85). -/
theorem size_of_opcode {b : Byte} {o : Opcode} (ho : opcode? b = some o) : o.size = if b.toNat / 16 ≤ 0x8 then 3 else 2 := by
  obtain rfl := opcode?_some ho
  cases o with
  | ds op k1 k2 => cases op <;> cases k1 <;> cases k2 <;> rfl
  | cmp k1 k2 => cases k1 <;> cases k2 <;> rfl
  | push k => cases k <;> rfl
  | pop k => cases k <;> rfl
  | jump c => cases c <;> rfl
  | call => rfl

/-- Whether operand 1 of an opcode is a register ID. -/
abbrev registerOperand1 : Opcode → Prop
  | .ds _ k _ | .pop k => k = .reg
  | .cmp k _ | .push k => k = .reg
  | .jump _ | .call => False

/-- Whether operand 2 of an opcode is a register ID. -/
abbrev registerOperand2 : Opcode → Prop
  | .ds _ _ k | .cmp _ k => k = .reg
  | .push _ | .pop _ | .jump _ | .call => False

/-- One of the operand bytes is a register ID above 2 (R87). -/
abbrev BadRegisterId (o : Opcode) (b1 b2 : Byte) : Prop :=
  registerOperand1 o ∧ 2 < b1.toNat ∨ registerOperand2 o ∧ 2 < b2.toNat

/-- The kind bits of an opcode byte say which operands are register IDs (R86). -/
theorem namesRegister_of_opcode {b : Byte} {o : Opcode} (ho : opcode? b = some o) :
    (namesRegister1 b ↔ registerOperand1 o) ∧ (namesRegister2 b ↔ registerOperand2 o) := by
  obtain rfl := opcode?_some ho
  cases o with
  | ds op k1 k2 => cases op <;> cases k1 <;> cases k2 <;> decide
  | cmp k1 k2 => cases k1 <;> cases k2 <;> decide
  | push k => cases k <;> decide
  | pop k => cases k <;> decide
  | jump c => cases c <;> decide
  | call => decide

/-- The opcode map assigns 70 bytes (R93). -/
theorem assigned_count : ((List.range 256).filter fun k => (opcode? (BitVec.ofNat 8 k)).isSome).length = 70 := by decide

/-- The unassigned bytes are the others (R94). -/
theorem unassigned_count : ((List.range 256).filter fun k => (opcode? (BitVec.ofNat 8 k)).isNone).length = 186 := by
  have hsplit := List.length_eq_length_filter_add (l := List.range 256) fun k => (opcode? (BitVec.ofNat 8 k)).isSome
  simp only [Option.not_isSome, assigned_count, List.length_range] at hsplit
  omega

/-! ### Register operands (R87) -/

theorem registerId_eq_id (r : Reg) : registerId r = r.id := by cases r <;> rfl

theorem ofId?_eq_none_iff (b : Byte) : Reg.ofId? b = none ↔ 2 < b.toNat := by
  revert b
  decide

/-- A value-position byte is refused exactly where it is a register ID above 2. -/
theorem resolveBinary_cases (k : Kind) (b : Byte) :
    ((k = .reg ∧ 2 < b.toNat) ∧ resolveBinary k b = .error .invalidOperand) ∨
      ¬(k = .reg ∧ 2 < b.toNat) ∧ ∃ o, resolveBinary k b = .ok o := by
  cases k with
  | reg =>
    rcases hr : Reg.ofId? b with _ | r
    · exact .inl ⟨⟨rfl, (ofId?_eq_none_iff b).1 hr⟩, by simp [resolveBinary, hr]⟩
    · exact .inr ⟨by simp [← ofId?_eq_none_iff, hr], .reg r, by simp [resolveBinary, hr]⟩
  | imm => exact .inr ⟨by simp, .imm b, rfl⟩
  | mem => exact .inr ⟨by simp, .mem b, rfl⟩

/-- A location byte is refused exactly where it is a register ID above 2. -/
theorem resolveBinaryLoc_cases (k : LocKind) (b : Byte) :
    ((k = .reg ∧ 2 < b.toNat) ∧ resolveBinaryLoc k b = .error .invalidOperand) ∨
      ¬(k = .reg ∧ 2 < b.toNat) ∧ ∃ l, resolveBinaryLoc k b = .ok l := by
  cases k with
  | reg =>
    rcases hr : Reg.ofId? b with _ | r
    · exact .inl ⟨⟨rfl, (ofId?_eq_none_iff b).1 hr⟩, by simp [resolveBinaryLoc, hr]⟩
    · exact .inr ⟨by simp [← ofId?_eq_none_iff, hr], .reg r, by simp [resolveBinaryLoc, hr]⟩
  | mem => exact .inr ⟨by simp, .mem b, rfl⟩

/-- Operand bytes are refused exactly where one of them is a register ID above 2 (R87, R98). -/
theorem resolveOperands_cases (o : Opcode) (b1 b2 : Byte) :
    (BadRegisterId o b1 b2 ∧ resolveOperands o b1 b2 = .error .invalidOperand) ∨
      ¬BadRegisterId o b1 b2 ∧ ∃ i, resolveOperands o b1 b2 = .ok i := by
  cases o with
  | ds op k1 k2 =>
    obtain ⟨h1, e1⟩ | ⟨h1, dst, e1⟩ := resolveBinaryLoc_cases k1 b1
    · exact .inl ⟨.inl h1, by rw [resolveOperands, e1]; rfl⟩
    obtain ⟨h2, e2⟩ | ⟨h2, src, e2⟩ := resolveBinary_cases k2 b2
    · exact .inl ⟨.inr h2, by rw [resolveOperands, e1, e2]; rfl⟩
    · exact .inr ⟨not_or.2 ⟨h1, h2⟩, _, by rw [resolveOperands, e1, e2]; rfl⟩
  | cmp k1 k2 =>
    obtain ⟨h1, e1⟩ | ⟨h1, u, e1⟩ := resolveBinary_cases k1 b1
    · exact .inl ⟨.inl h1, by rw [resolveOperands, e1]; rfl⟩
    obtain ⟨h2, e2⟩ | ⟨h2, w, e2⟩ := resolveBinary_cases k2 b2
    · exact .inl ⟨.inr h2, by rw [resolveOperands, e1, e2]; rfl⟩
    · exact .inr ⟨not_or.2 ⟨h1, h2⟩, _, by rw [resolveOperands, e1, e2]; rfl⟩
  | push k =>
    obtain ⟨h, e⟩ | ⟨h, src, e⟩ := resolveBinary_cases k b1
    · exact .inl ⟨.inl h, by rw [resolveOperands, e]; rfl⟩
    · exact .inr ⟨not_or.2 ⟨h, And.left⟩, _, by rw [resolveOperands, e]; rfl⟩
  | pop k =>
    obtain ⟨h, e⟩ | ⟨h, dst, e⟩ := resolveBinaryLoc_cases k b1
    · exact .inl ⟨.inl h, by rw [resolveOperands, e]; rfl⟩
    · exact .inr ⟨not_or.2 ⟨h, And.left⟩, _, by rw [resolveOperands, e]; rfl⟩
  | jump c => exact .inr ⟨not_or.2 ⟨And.left, And.left⟩, _, rfl⟩
  | call => exact .inr ⟨not_or.2 ⟨And.left, And.left⟩, _, rfl⟩

/-- Decode with every byte of the instruction there: InvalidOperand where an operand byte is refused, and else an instruction,
both after all of the instruction's bytes (R97, R98). -/
theorem decode_cases {b : Byte} {o : Opcode} (ho : opcode? b = some o) {operands : List Byte}
    (hlength : o.size ≤ operands.length + 1) :
    (BadRegisterId o (operands.getD 0 0) (operands.getD 1 0) ∧ decode (b :: operands) = .error .invalidOperand o.size) ∨
      ¬BadRegisterId o (operands.getD 0 0) (operands.getD 1 0) ∧ ∃ i, decode (b :: operands) = .instr i o.size := by
  rw [decode_of_opcode ho operands hlength]
  obtain ⟨hrefused, he⟩ | ⟨haccepted, i, hi⟩ := resolveOperands_cases o (operands.getD 0 0) (operands.getD 1 0)
  · exact .inl ⟨hrefused, by rw [he]⟩
  · exact .inr ⟨haccepted, i, by rw [hi]⟩

/-- The opcode byte alone gives the length of an instruction and of an operand error (R85). -/
theorem decode_size {b : Byte} {o : Opcode} (ho : opcode? b = some o) {operands : List Byte}
    (hlength : o.size ≤ operands.length + 1) :
    (∀ i n, decode (b :: operands) = .instr i n → n = o.size) ∧ ∀ e n, decode (b :: operands) = .error e n → n = o.size := by
  obtain ⟨-, he⟩ | ⟨-, i, hi⟩ := decode_cases ho hlength
  · simp [he, eq_comm]
  · simp [hi, eq_comm]

/-! ### The rows of the opcode map -/

/-- A jump to a byte is the jump's opcode byte and that byte (R89, R92). -/
theorem encode_jump_byte (c : Cond) (t : Byte) : encode (.jump c (t.setWidth 16)) = [jumpByte c, t] := by
  have ht : (t.setWidth 16).setWidth 8 = t := by simp
  rw [encode_jump, encodeResolved, ht]
  cases c <;> rfl

/-! ### The statements -/

/-- Settles O6: R94's list is where the opcode map has no entry, and an assigned byte never raises InvalidOpcode. -/
theorem unassignedOpcodesAreInvalid : Obligations.UnassignedOpcodesAreInvalid := by
  refine ⟨fun b rest h => decode_of_unassigned ((opcode?_eq_none_iff b).2 h) rest, fun b rest n h => ?_, unassigned_count⟩
  by_contra hassigned
  obtain ⟨o, ho⟩ := exists_opcode_of_assigned hassigned
  obtain he | he := decode_error_of_opcode ho h <;> cases he

/-- Settles O7: whatever decode answers, it has read as many bytes as the opcode byte's group gives. -/
theorem lengthFromOpcodeByte : Obligations.LengthFromOpcodeByte := by
  refine fun b rest => ⟨fun ha hgroup hrest => ?_, fun ha hgroup hrest => ?_, fun ha e n hrest => ?_,
    fun h => decode_of_unassigned ((opcode?_eq_none_iff b).2 h) rest⟩
  all_goals
    obtain ⟨o, ho⟩ := exists_opcode_of_assigned ha
    have hsize := size_of_opcode ho
  · rw [if_pos hgroup] at hsize
    simpa only [hsize] using (decode_size ho (by omega)).1
  · rw [if_neg (by omega)] at hsize
    simpa only [hsize] using (decode_size ho (by omega)).1
  · have hle : o.size ≤ rest.length + 1 := by have := o.size_cases; omega
    rw [← hsize]
    exact (decode_size ho hle).2 e n

/-- Settles O8: a register's ID is the one byte that resolves to it, and the opcode byte's kind bits say which operand bytes are
IDs. -/
theorem registerIdsAboveTwoAreInvalid : Obligations.RegisterIdsAboveTwoAreInvalid := by
  refine ⟨fun b r => ⟨fun h => ?_, ?_⟩, fun b r => ⟨fun h => ?_, ?_⟩, fun b b1 b2 rest ha => ?_⟩
  · exact (resolveBinary_ok h).2.symm.trans (registerId_eq_id r).symm
  · rintro rfl
    rw [registerId_eq_id]
    exact resolveBinary_kind_byte (.reg r)
  · exact (resolveBinaryLoc_ok h).2.symm.trans (registerId_eq_id r).symm
  · rintro rfl
    rw [registerId_eq_id]
    exact resolveBinaryLoc_kind_byte (.reg r)
  · obtain ⟨o, ho⟩ := exists_opcode_of_assigned ha
    obtain ⟨hn1, hn2⟩ := namesRegister_of_opcode ho
    have hlength : o.size ≤ (b1 :: b2 :: rest).length + 1 := by have := o.size_cases; simp only [List.length_cons]; omega
    rw [hn1, hn2, ← size_of_opcode ho]
    obtain ⟨hrefused, he⟩ | ⟨haccepted, hi⟩ := decode_cases ho hlength
    · exact ⟨fun _ => he, absurd hrefused⟩
    · exact ⟨fun h => absurd h haccepted, fun _ => hi⟩

/-- Settles O2: each row is computed from its constructor, the 57 rows with two operands (DS and CMP) first, then PUSH and POP, the
jumps, CALL, and the number of assigned bytes. -/
theorem rowsHaveTheirOpcodeBytes : Obligations.RowsHaveTheirOpcodeBytes := by
  unfold Obligations.RowsHaveTheirOpcodeBytes
  iterate 57 refine ⟨fun _ _ => ⟨rfl, rfl⟩, ?_⟩
  iterate 5 refine ⟨fun _ => ⟨rfl, rfl⟩, ?_⟩
  exact ⟨fun t => ⟨rfl, encode_jump_byte .always t⟩, fun t => ⟨rfl, encode_jump_byte .equal t⟩,
    fun t => ⟨rfl, encode_jump_byte .notEqual t⟩, fun t => ⟨rfl, encode_jump_byte .lower t⟩,
    fun t => ⟨rfl, encode_jump_byte .lowerEqual t⟩, fun t => ⟨rfl, encode_jump_byte .greater t⟩,
    fun t => ⟨rfl, encode_jump_byte .greaterEqual t⟩, fun _ => rfl, assigned_count⟩

end Sys2Proof.Proofs
end

section
/-! PROOFS. The family of spec/30_encoding.md, textual part: literals (R112), how operand and target tokens are classified (R111,
R114), the dispatch table (R115), operand counts (R116) and decode errors (R118). -/

namespace Sys2Proof.Proofs

open Sys2Proof Sys2Proof.Machine Sys2Proof.Claims

/-! ### Digits and literals (R112) -/

/-- A digit list, read from its most significant digit after a value already read. -/
theorem digitsFrom?_map_digitChar {base : Nat} (hbase : base ≤ 16) {ds : List Nat} (hds : ∀ d ∈ ds, d < base) (acc : Nat) :
    digitsFrom? base acc (ds.map Nat.digitChar) = some (acc * base ^ ds.length + Nat.ofDigits base ds.reverse) := by
  induction ds generalizing acc with
  | nil => simp [digitsFrom?]
  | cons d ds ih =>
    obtain ⟨hd, hds⟩ := List.forall_mem_cons.1 hds
    rw [List.map_cons, digitsFrom?, digitValue?_digitChar d (by omega)]
    simp only [if_pos hd, ih hds]
    rw [List.reverse_cons, Nat.ofDigits_append, Nat.ofDigits_singleton, List.length_cons, List.length_reverse]
    ring_nf

theorem digits?_map_digitChar {base : Nat} (hbase : base ≤ 16) {ds : List Nat} (hne : ds ≠ []) (hds : ∀ d ∈ ds, d < base) :
    digits? base (ds.map Nat.digitChar) = some (Nat.ofDigits base ds.reverse) := by
  rw [digits?, if_neg (by simpa using hne), digitsFrom?_map_digitChar hbase hds, Nat.zero_mul, Nat.zero_add]

/-- A literal's value is its exact value modulo 256 (R112). -/
theorem num?_eq (t : Token) : num? t = (numLit? t).map fun n => BitVec.ofNat 8 (n % 256) := by
  have htrunc (n : Nat) : trunc8 n = BitVec.ofNat 8 (n % 256) := BitVec.eq_of_toNat_eq (by simp [trunc8])
  cases h : numLit? t <;> simp [num?, h, htrunc]

/-- The character with a digit value is that digit's. -/
theorem eq_digitChar_of_digitValue? {c : Char} {d : Nat} (h : digitValue? c = some d) : c = Nat.digitChar d := by
  have decimal : ∀ n, 48 ≤ n → n ≤ 57 → Char.ofNat n = Nat.digitChar (n - 48) := by
    intro n _ _
    interval_cases n <;> rfl
  have letter : ∀ n, 97 ≤ n → n ≤ 102 → Char.ofNat n = Nat.digitChar (n - 87) := by
    intro n _ _
    interval_cases n <;> rfl
  rw [← Char.ofNat_toNat c]
  simp only [digitValue?] at h
  split at h
  · rename_i hc
    cases h
    exact decimal _ hc.1 hc.2
  · split at h
    · rename_i hc
      cases h
      exact letter _ hc.1 hc.2
    · cases h

/-- A base's digit alphabet has its digits (R112). -/
theorem mem_of_isDigit {base : Nat} {alphabet : List Char} (halphabet : ∀ d < base, Nat.digitChar d ∈ alphabet) {t : Token}
    (ht : ∀ c ∈ t, IsDigit base c) : ∀ c ∈ t, c ∈ alphabet := by
  intro c hc
  obtain ⟨d, hd, hlt⟩ := ht c hc
  rw [eq_digitChar_of_digitValue? hd]
  exact halphabet d hlt

/-- `NumLit` reads nothing but literals (R112). -/
theorem isLiteral_of_numLit? {t : Token} {n : Nat} (h : numLit? t = some n) : IsLiteral t := by
  unfold numLit? at h
  split at h
  · obtain ⟨hne, hdigits⟩ := (digits?_isSome ..).1 ⟨n, h⟩
    exact .inr (.inl ⟨_, rfl, hne, mem_of_isDigit (by decide) hdigits⟩)
  · obtain ⟨hne, hdigits⟩ := (digits?_isSome ..).1 ⟨n, h⟩
    exact .inr (.inr ⟨_, rfl, hne, mem_of_isDigit (by decide) hdigits⟩)
  · obtain ⟨hne, hdigits⟩ := (digits?_isSome ..).1 ⟨n, h⟩
    exact .inl ⟨hne, mem_of_isDigit (by decide) hdigits⟩

/-- What is no literal has no value. -/
theorem num?_eq_none {t : Token} (h : ¬IsLiteral t) : num? t = none := by
  rw [num?_eq, Option.map_eq_none_iff, Option.eq_none_iff_forall_ne_some]
  exact fun n hn => h (isLiteral_of_numLit? hn)

/-! ### The tests of `classify` -/

/-- A token that is an immediate is no register name and no memory token, and has its value as a literal. -/
theorem tests_of_classify_imm {t : Token} {v : Byte} (h : classify t = .ok (.imm v)) :
    regToken? t = none ∧ isPrivilegedToken t = false ∧ memToken? t = none ∧ num? t = some v := by
  unfold classify at h
  split at h
  · cases h
  · rename_i hreg
    split at h
    · cases h
    · rename_i hprivileged
      split at h
      · cases h
      · rename_i hmem
        split at h <;> cases h
        rename_i hnum
        exact ⟨hreg, by simpa using hprivileged, hmem, hnum⟩

/-- The value of a literal is that of its digits (R112). -/
theorem classify_of_numLit? {t : Token} {n : Nat} (h : numLit? t = some n) :
    classify t = .ok (.imm (BitVec.ofNat 8 (n % 256))) := by
  obtain ⟨v, hv⟩ := classify_of_isLiteral (isLiteral_of_numLit? h)
  obtain ⟨-, -, -, hnum⟩ := tests_of_classify_imm hv
  rw [num?_eq, h, Option.map_some, Option.some.injEq] at hnum
  rw [hv, hnum]

/-- The register names are the tokens of the first test of `classify` and of `classify_target` (R111, R114). -/
theorem mem_registerNames_iff (t : Token) : t ∈ registerNames ↔ (regToken? t).isSome = true ∨ isPrivilegedToken t = true := by
  constructor
  · revert t
    decide
  · rintro (h | h)
    · unfold regToken? at h
      split at h <;> simp at h ⊢
    · simpa [isPrivilegedToken, or_assoc] using Or.inr (Or.inr (Or.inr h))

/-- A token that is no register name fails the first tests of `classify` and `classify_target`. -/
theorem tests_of_not_registerName {t : Token} (h : t ∉ registerNames) :
    regToken? t = none ∧ isPrivilegedToken t = false := by
  rw [mem_registerNames_iff] at h
  simpa using h

/-- Only `*` and a literal is a memory token (R111). -/
theorem memToken?_eq_none {t : Token} (h : ∀ lit, t = '*' :: lit → ¬IsLiteral lit) : memToken? t = none := by
  unfold memToken?
  split
  · exact num?_eq_none (h _ rfl)
  · rfl

/-- The tests of `*` and a literal: a memory token with the literal's value (R111). -/
theorem tests_of_memory {lit : Token} {v : Byte} (h : classify lit = .ok (.imm v)) :
    regToken? ('*' :: lit) = none ∧ isPrivilegedToken ('*' :: lit) = false ∧ memToken? ('*' :: lit) = some v := by
  obtain ⟨-, -, -, hnum⟩ := tests_of_classify_imm h
  obtain ⟨hreg, hprivileged⟩ := tests_of_not_registerName (t := '*' :: lit) (by simp)
  exact ⟨hreg, hprivileged, hnum⟩

/-! ### Jump targets (R114) -/

/-- An identifier begins with no digit and no `*`. -/
theorem not_operand_of_isIdentifier {t : Token} (h : isIdentifier t = true) : ¬IsLiteral t ∧ ∀ lit, t ≠ '*' :: lit := by
  constructor
  · intro hliteral
    obtain ⟨c, cs, rfl, hc⟩ := isLiteral_head_mem hliteral
    have hstart : ∀ c ∈ "0123456789".toList, isIdentStart c = false := by simp [isIdentStart]
    simp [isIdentifier, hstart c hc] at h
  · rintro lit rfl
    have hstart : isIdentStart '*' = false := by decide
    simp [isIdentifier, hstart] at h

/-- The last tests of `classify_target`: a token that is no operand is looked up as a label if it is an identifier. -/
theorem classifyTarget_of_not_operand (labels : LabelTable) {t : Token} (hregister : t ∉ registerNames)
    (hmemory : ∀ lit, t = '*' :: lit → ¬IsLiteral lit) (hliteral : ¬IsLiteral t) :
    classifyTarget labels t =
      if isIdentifier t then (lookupLabel? labels t).elim (.error .undefinedLabel) .ok else .error .invalidToken := by
  obtain ⟨hreg, hprivileged⟩ := tests_of_not_registerName hregister
  simp only [classifyTarget, hreg, hprivileged, memToken?_eq_none hmemory, num?_eq_none hliteral]
  cases lookupLabel? labels t <;> rfl

/-! ### The dispatch table (R106, R115) -/

theorem textOp?_eq_none_iff (m : Token) : textOp? m = none ↔ m ∉ mnemonics := by
  rw [textOp?, lookupMnemonic?_eq_none, show mnemonicTable.map Prod.fst = mnemonics from rfl]

theorem textOp?_jumpWord (c : Cond) : textOp? (jumpWord c) = some (.jump c) := by cases c <;> rfl

theorem textOp?_renderDsOp (op : DsOp) : textOp? (renderDsOp op) = some (.ds op) := by cases op <;> rfl

/-- A record with a known mnemonic is what its operands resolve to (R117). -/
theorem decodeRecord_of_textOp? {m : Token} {op : TextOp} (h : textOp? m = some op) (labels : LabelTable) (p1 p2 : Token) :
    decodeRecord labels ⟨m, p1, p2⟩ = resolveRecord labels op p1 p2 := by
  simp only [decodeRecord, h]

/-- No operation takes an empty first operand (R116). -/
theorem resolveRecord_nil (labels : LabelTable) (op : TextOp) (p2 : Token) :
    resolveRecord labels op [] p2 = .error .invalidToken := by
  cases op <;> rfl

/-- Push, pop and the jumps take no second operand (R116). -/
theorem resolveRecord_second {labels : LabelTable} {op : TextOp} {p1 p2 : Token} (hp2 : p2 ≠ [])
    (h : op = .push ∧ (∃ o, classify p1 = .ok o) ∨ op = .pop ∧ (∃ l, classifyLocation p1 = .ok l) ∨
      (∃ c, op = .jump c) ∧ ∃ t, classifyTarget labels p1 = .ok t) :
    resolveRecord labels op p1 p2 = .error .invalidOperand := by
  obtain ⟨rfl, _, hp1⟩ | ⟨rfl, _, hp1⟩ | ⟨⟨c, rfl⟩, _, hp1⟩ := h <;>
    rw [resolveRecord, hp1, noSecondOperand_of_ne_nil hp2] <;> rfl

/-! ### Steps that do not decode (R118) -/

/-- A textual decode error ends the step with the state as it was. -/
theorem step_of_decodeTextual_error {s : State} {records : List InstrRecord} {e : Error} (hrom : s.rom = .textual records)
    (h : decodeTextual records s = .error e) : step s = .next { s with stepResult := .err e } := by
  have hdecode : decodePhase s = (.error e, s) := by simp only [decodePhase, hrom, h]
  rw [step_eq, hdecode]
  exact raiseError_eq e s

/-! ### The statements -/

/-- Settles O28: at PC >= len there is no record, and a record's decode error is the decode phase's. -/
theorem textualDecodeErrorWritesNothing : Obligations.TextualDecodeErrorWritesNothing := by
  refine fun s records hrom => ⟨fun hend => ?_, fun r e hr he => ?_⟩
  · exact step_of_decodeTextual_error hrom (by rw [decodeTextual, List.getElem?_eq_none hend])
  · exact step_of_decodeTextual_error hrom (by rw [decodeTextual, hr]; exact he)

/-- Settles O41: a digit list is read by induction from its most significant digit. -/
theorem literalsAreTruncated : Obligations.LiteralsAreTruncated := by
  refine ⟨fun ds hne => ⟨fun hds => classify_of_numLit? ?_, fun hds => classify_of_numLit? ?_, fun hds => classify_of_numLit? ?_⟩,
    by decide⟩
  · have hdigit : ∀ d < 10, Nat.digitChar d ∈ "0123456789".toList := by decide
    rw [numLit?_of_decimal (List.forall_mem_map.2 fun d hd => hdigit d (hds d hd))]
    exact digits?_map_digitChar (by decide) hne hds
  · exact digits?_map_digitChar (by decide) hne hds
  · exact digits?_map_digitChar (by decide) hne hds

/-- Settles O42: one clause per test, and a token that fails all of them is InvalidToken. -/
theorem classifyInOrder : Obligations.ClassifyInOrder := by
  intro t
  refine ⟨?a, ?x, ?y, classify_privileged, ?memory, classify_of_isLiteral, ?other⟩
  case a | x | y => rintro rfl; rfl
  case memory =>
    rintro lit rfl hlit
    obtain ⟨v, hv⟩ := classify_of_isLiteral hlit
    obtain ⟨hreg, hprivileged, hmem⟩ := tests_of_memory hv
    exact ⟨v, hv, by simp [classify, hreg, hprivileged, hmem]⟩
  case other =>
    intro hregister hliteral hmemory
    obtain ⟨hreg, hprivileged⟩ := tests_of_not_registerName hregister
    simp [classify, hreg, hprivileged, memToken?_eq_none hmemory, num?_eq_none hliteral]

/-- Settles O43: one clause per test of `classify_target`; an identifier that is no register name gets as far as the table. -/
theorem jumpTargetsAreResolved : Obligations.JumpTargetsAreResolved := by
  refine ⟨fun labels t => ⟨?register, ?memory, ?literal, ?label, ?other⟩, by decide⟩
  case register =>
    intro h
    rw [mem_registerNames_iff] at h
    exact if_pos (by simpa using h)
  case memory =>
    rintro lit rfl hlit
    obtain ⟨v, hv⟩ := classify_of_isLiteral hlit
    obtain ⟨hreg, hprivileged, hmem⟩ := tests_of_memory hv
    simp [classifyTarget, hreg, hprivileged, hmem]
  case literal =>
    intro hliteral
    obtain ⟨v, hv⟩ := classify_of_isLiteral hliteral
    obtain ⟨hreg, hprivileged, hmem, hnum⟩ := tests_of_classify_imm hv
    exact ⟨v, hv, by simp [classifyTarget, hreg, hprivileged, hmem, hnum, zext16]⟩
  case label =>
    intro hident hregister
    obtain ⟨hliteral, hstar⟩ := not_operand_of_isIdentifier hident
    rw [classifyTarget_of_not_operand labels hregister (fun lit h => absurd h (hstar lit)) hliteral, if_pos hident]
    exact ⟨fun hnone => by rw [lookupLabel?_eq_none hnone]; rfl,
      fun pc hnodup hmem => by rw [lookupLabel?_of_mem hnodup hmem]; rfl⟩
  case other =>
    intro hregister hmemory hliteral hident
    rw [classifyTarget_of_not_operand labels hregister hmemory hliteral, hident]
    rfl

/-- Settles O44: the dispatch table's words are the 18 mnemonics, and no operand raises InvalidOpcode. -/
theorem otherMnemonicsAreInvalid : Obligations.OtherMnemonicsAreInvalid := by
  refine ⟨⟨rfl, rfl, rfl, rfl, rfl, rfl, rfl, rfl, rfl, rfl, rfl, textOp?_jumpWord⟩, by decide, fun labels m p1 p2 => ?_⟩
  rw [← textOp?_eq_none_iff]
  constructor
  · intro h
    obtain ⟨hnone, -⟩ | ⟨-, he⟩ | ⟨-, he⟩ := decodeRecord_error h
    · exact hnone
    · simp at he
    · cases he
  · intro hnone
    simp only [decodeRecord, hnone]

/-- Settles O45: the operand that is missing or too many is refused where its turn comes (R117). -/
theorem operandCountIsChecked : Obligations.OperandCountIsChecked := by
  refine fun labels m p1 p2 => ⟨?first, ?ds, ?cmp, ?extra⟩
  case first =>
    intro hm
    obtain ⟨op, hop⟩ := Option.ne_none_iff_exists'.1 fun hnone => (textOp?_eq_none_iff m).1 hnone hm
    rw [decodeRecord_of_textOp? hop, resolveRecord_nil]
  case ds =>
    rintro hm ⟨dst, hdst⟩
    have hwords : ["mov", "add", "sub", "or", "and", "xor", "shl", "shr"].map String.toList =
        [DsOp.mov, .add, .sub, .or, .and, .xor, .shl, .shr].map renderDsOp := rfl
    rw [hwords] at hm
    obtain ⟨op, -, rfl⟩ := List.mem_map.1 hm
    rw [decodeRecord_of_textOp? (textOp?_renderDsOp op), resolveRecord, hdst]
    rfl
  case cmp =>
    rintro rfl ⟨u, hu⟩
    rw [decodeRecord_of_textOp? (op := .cmp) rfl, resolveRecord, hu]
    rfl
  case extra =>
    intro hp2 h
    obtain ⟨rfl, hp1⟩ | ⟨rfl, hp1⟩ | ⟨⟨c, rfl⟩, hp1⟩ := h
    · rw [decodeRecord_of_textOp? (op := .push) rfl, resolveRecord_second hp2 (.inl ⟨rfl, hp1⟩)]
    · rw [decodeRecord_of_textOp? (op := .pop) rfl, resolveRecord_second hp2 (.inr (.inl ⟨rfl, hp1⟩))]
    · rw [decodeRecord_of_textOp? (textOp?_jumpWord c), resolveRecord_second hp2 (.inr (.inr ⟨⟨c, rfl⟩, hp1⟩))]

end Sys2Proof.Proofs
end

section
/-! PROOFS. The family of spec/30_encoding.md, source lines: case folding (R101) and labels defined twice (R104). -/

namespace Sys2Proof.Proofs

open Sys2Proof Sys2Proof.Machine Sys2Proof.Claims

/-! ### Label lines -/

/-- The name a label line defines. -/
def labelName? (line : Token) : Option Token :=
  match parseLine line with
  | .ok (.label name) => some name
  | _ => none

/-- The names that the label lines define, in order. -/
def labelNames (lines : List Token) : List Token := lines.filterMap labelName?

theorem labelName?_eq_some_iff {line name : Token} : labelName? line = some name ↔ parseLine line = .ok (.label name) := by
  unfold labelName?
  split <;> simp_all

/-- Distinct names: no two label lines of one name. -/
theorem labelNames_nodup_iff (lines : List Token) :
    (labelNames lines).Nodup ↔ ∀ (i j : Nat) (name : Token), i < j → (lines[i]?.map parseLine) = some (.ok (.label name)) →
      (lines[j]?.map parseLine) ≠ some (.ok (.label name)) := by
  rw [labelNames, List.Nodup, List.pairwise_filterMap, List.pairwise_iff_getElem]
  simp only [labelName?_eq_some_iff, Option.map_eq_some_iff, List.getElem?_eq_some_iff, ne_eq]
  constructor
  · rintro h i j name hij ⟨_, ⟨hi, rfl⟩, hpi⟩ ⟨_, ⟨hj, rfl⟩, hpj⟩
    exact h i j hi hj hij name hpi name hpj rfl
  · rintro h i j hi hj hij name hpi _ hpj rfl
    exact h i j name hij ⟨_, ⟨hi, rfl⟩, hpi⟩ ⟨_, ⟨hj, rfl⟩, hpj⟩

/-- What the pre-pass of lines that each parse can do: add the lines' labels to the table, or find one defined before. -/
theorem prepassFrom_cases {lines : List Token} (hparse : ∀ l ∈ lines, ∃ x, parseLine l = .ok x) (n : Nat) (table : LabelCounts) :
    (∃ records table', prepassFrom lines n table = .ok (records, table') ∧
        table'.map Prod.fst = table.map Prod.fst ++ labelNames lines) ∨
      prepassFrom lines n table = .error .duplicateLabel ∧ ¬(table.map Prod.fst ++ labelNames lines).Nodup := by
  induction lines generalizing n table with
  | nil => exact .inl ⟨[], table, rfl, (List.append_nil _).symm⟩
  | cons line lines ih =>
    obtain ⟨⟨x, hx⟩, hparse⟩ := List.forall_mem_cons.1 hparse
    simp only [prepassFrom, hx, labelNames, List.filterMap_cons, labelName?]
    rw [← labelNames]
    cases x with
    | blank => exact ih hparse n table
    | label name =>
      simp only [List.contains_iff_mem]
      split
      · rename_i hmem
        exact .inr ⟨rfl, fun h => List.disjoint_of_nodup_append h hmem List.mem_cons_self⟩
      · have hnames : (table ++ [(name, n)]).map Prod.fst ++ labelNames lines =
            table.map Prod.fst ++ name :: labelNames lines := by simp
        rw [← hnames]
        exact ih hparse n (table ++ [(name, n)])
    | record r =>
      obtain ⟨records, table', hok, hnames⟩ | ⟨herror, hdup⟩ := ih hparse (n + 1) table
      · exact .inl ⟨r :: records, table', by rw [hok], hnames⟩
      · exact .inr ⟨by rw [herror], hdup⟩

/-- The pre-pass of lines that each parse fails exactly where two label lines have one name (R104). -/
theorem prepass_cases {lines : List Token} (hparse : ∀ l ∈ lines, ∃ x, parseLine l = .ok x) :
    ((labelNames lines).Nodup ∧ ∃ records table, prepass lines = .ok (records, table)) ∨
      ¬(labelNames lines).Nodup ∧ prepass lines = .error .duplicateLabel := by
  obtain ⟨records, table, hok, hnames⟩ | ⟨herror, hdup⟩ := prepassFrom_cases hparse 0 []
  · obtain ⟨hnodup, -⟩ := prepassFrom_labels hok ⟨List.nodup_nil, by simp⟩
    rw [hnames] at hnodup
    exact .inl ⟨hnodup, records, table, hok⟩
  · exact .inr ⟨hdup, herror⟩

/-- A text whose pre-pass fails is not loaded (R254). -/
theorem transact_load_of_prepass_error {lines : List Token} {e : Error} (h : prepass lines = .error e) (s : State) :
    transact (.loadProgram (.textual lines)) s = (s, .err e) := by
  simp only [transact, loadProgram, h]

/-! ### The statements -/

/-- Settles O52: the table that the pre-pass keeps has every label line's name once. -/
theorem twoLabelsOfOneNameFail : Obligations.TwoLabelsOfOneNameFail := by
  intro lines hparse
  rw [← labelNames_nodup_iff]
  obtain ⟨hnodup, hok⟩ | ⟨hdup, herror⟩ := prepass_cases hparse
  · refine ⟨?_, fun _ => hok⟩
    rintro ⟨i, j, name, hij, hi, hj⟩
    exact absurd hj ((labelNames_nodup_iff lines).1 hnodup i j name hij hi)
  · exact ⟨fun _ => ⟨herror, transact_load_of_prepass_error herror⟩, fun hnodup => absurd hnodup hdup⟩

/-- Settles O53: stripping, trimming and folding commute with lower-casing, and folding twice is folding once. -/
theorem caseIsFoldedOnce : Obligations.CaseIsFoldedOnce := by
  refine fun line => ⟨?_, fun r hr => ?_⟩
  · unfold parseLine
    rw [stripComment_map_toLower, trim_map_toLower, foldCase_map_toLower]
  · obtain ⟨hmnemonic, hparam1, hparam2⟩ := parseLine_record hr
    simp only [InstrRecordLower, isLowerCase, Bool.and_eq_true, List.all_eq_true, Bool.not_eq_true']
    exact ⟨⟨hmnemonic, hparam1⟩, hparam2⟩

end Sys2Proof.Proofs
end

section
/-! PROOFS. The family of spec/41_alu.md: ADD, SUB, OR, AND, XOR, SHL and SHR (R150 to R158). -/

namespace Sys2Proof.Proofs

open Sys2Proof Sys2Proof.Machine Sys2Proof.Claims

/-! ### The rule of a DS operation -/

/-- The record of a DS operation: operand 1 is resolved before operand 2 (R117). -/
theorem decodeRecord_ds (op : DsOp) (labels : LabelTable) (p1 p2 : Token) :
    decodeRecord labels ⟨renderDsOp op, p1, p2⟩ =
      (do let dst ← classifyLocation p1; let src ← classify p2; return .ds op dst src) :=
  decodeRecord_of_textOp? (textOp?_renderDsOp op) labels p1 p2

/-- A DS instruction writes its function's value, of the operands as they were before, to its destination and nothing else
(R140, R150). -/
theorem exec_ds_writesOnly (op : DsOp) (dst : Loc) (src : Operand) (s : State) :
    WritesOnly (.ds op dst src) dst (dsFunction op (valueAt dst s) (valueOf src s)) s := by
  rw [valueAt_eq_locValue, valueOf_eq_operandValue]
  obtain ⟨hvalue, hregs, hram, -⟩ := locWrite_spec dst (dsFunction op (locValue dst s) (operandValue src s)) s
  refine ⟨_, exec_ds_next op dst src s, ?_, hregs, hram, locWrite_p .., locWrite_sp .., locWrite_stk ..,
    ⟨locWrite_rom .., locWrite_labels .., locWrite_video ..⟩, (pcAdvanced_eq_advance_pc s).symm, rfl⟩
  rw [valueAt_eq_locValue]
  exact (locValue_congr dst (fun _ => rfl) fun _ _ => rfl).trans hvalue

/-- Every DS operation follows its rule with the function that exec applies. -/
theorem dsRule_dsFunction (op : DsOp) : DsRule op op.group (renderDsOp op) (dsFunction op) := by
  intro dst src
  refine ⟨?encoding, ?text, textualErrorsAmong_of_not_jump (textOp?_renderDsOp op) (by simp), ?refused, binaryErrorsAmong _,
    exec_ds_writesOnly op dst src⟩
  case encoding => rw [encode_ds, locCode_eq, operandCode_eq]; rfl
  case text =>
    intro labels p1 p2 hp1 hp2
    rw [decodeRecord_ds, hp1, hp2]
    rfl
  case refused =>
    rintro labels p1 p2 (hp1 | hp1 | ⟨hp1, hp2⟩) <;> rw [decodeRecord_ds]
    · rw [classifyLocation_privileged_or_literal (.inl hp1)]; rfl
    · rw [classifyLocation_privileged_or_literal (.inr hp1)]; rfl
    · rw [hp1, classify_privileged hp2]; rfl

/-- The rule with the operation's function in the spec's words. -/
theorem dsRule_of_eq {op : DsOp} {f : Byte → Byte → Byte} (h : ∀ d v, dsFunction op d v = f d v) :
    DsRule op op.group (renderDsOp op) f := by
  rw [← funext₂ h]
  exact dsRule_dsFunction op

/-! ### The operations on two bytes -/

theorem trunc8_natCast (n : Nat) : trunc8 n = BitVec.ofNat 8 (n % 256) := BitVec.eq_of_toNat_eq (by simp [trunc8])

/-- ADD is addition modulo 256 (R151). -/
theorem addByte_eq (d v : Byte) : addByte d v = BitVec.ofNat 8 ((d.toNat + v.toNat) % 256) := by
  rw [addByte, ← Nat.cast_add, trunc8_natCast]

/-- SUB is unsigned subtraction modulo 256 (R152). -/
theorem subByte_eq (d v : Byte) : subByte d v = BitVec.ofNat 8 ((d.toNat + 256 - v.toNat) % 256) := by
  apply BitVec.eq_of_toNat_eq
  simp only [subByte, trunc8, BitVec.toNat_ofInt, BitVec.toNat_ofNat]
  omega

/-- OR is the disjunction of each pair of bits (R153). -/
theorem orByte_eq (d v : Byte) : orByte d v = BitVec.ofFnLE fun k => d.getLsbD k || v.getLsbD k := by
  ext i hi
  simp [orByte]

/-- AND is the conjunction of each pair of bits (R154). -/
theorem andByte_eq (d v : Byte) : andByte d v = BitVec.ofFnLE fun k => d.getLsbD k && v.getLsbD k := by
  ext i hi
  simp [andByte]

/-- XOR is the exclusive or of each pair of bits (R155). -/
theorem xorByte_eq (d v : Byte) : xorByte d v = BitVec.ofFnLE fun k => (d.getLsbD k) ^^ (v.getLsbD k) := by
  ext i hi
  simp [xorByte]

/-- SHL is multiplication by a power of two modulo 256 (R156). -/
theorem shlByte_eq (d n : Byte) : shlByte d n = BitVec.ofNat 8 (d.toNat * 2 ^ n.toNat % 256) := by
  rw [shlByte, trunc8_natCast, Nat.shiftLeft_eq]

/-- SHR is division by a power of two (R157). -/
theorem shrByte_eq (d n : Byte) : shrByte d n = BitVec.ofNat 8 (d.toNat / 2 ^ n.toNat) := by
  have hlt : d.toNat / 2 ^ n.toNat < 256 := (Nat.div_le_self ..).trans_lt d.isLt
  rw [shrByte, trunc8_natCast, Nat.shiftRight_eq_div_pow, Nat.mod_eq_of_lt hlt]

/-! ### Shifts by 8 or more, and operands that are only read (R158) -/

/-- A shift left by 8 or more leaves a multiple of 256. -/
theorem shlByte_eq_zero (d : Byte) {n : Byte} (hn : 8 ≤ n.toNat) : shlByte d n = 0 := by
  have hdvd : 256 ∣ d.toNat * 2 ^ n.toNat := (pow_dvd_pow 2 hn).mul_left d.toNat
  rw [shlByte_eq, Nat.mod_eq_zero_of_dvd hdvd]
  rfl

/-- A shift right by 8 or more divides by more than the byte. -/
theorem shrByte_eq_zero (d : Byte) {n : Byte} (hn : 8 ≤ n.toNat) : shrByte d n = 0 := by
  have hlt : d.toNat < 2 ^ n.toNat := d.isLt.trans_le (Nat.pow_le_pow_right (by decide) hn)
  rw [shrByte_eq, Nat.div_eq_of_lt hlt]
  rfl

/-- An operand that is not the destination keeps its value where the destination alone is written. -/
theorem valueOf_eq_of_not_written {dst : Loc} {o : Operand} {s t : State}
    (hregs : ∀ r, dst ≠ .reg r → t.reg r = s.reg r)
    (hram : ∀ addr, locAddress? dst ≠ some addr → t.ram.read addr = s.ram.read addr)
    (hreg : ∀ r, o = .reg r → dst ≠ .reg r) (hmem : ∀ b, o = .mem b → dst ≠ .mem b) : valueOf o t = valueOf o s := by
  rw [valueOf_eq_operandValue, valueOf_eq_operandValue]
  cases o with
  | reg r => exact hregs r (hreg r rfl)
  | imm v => rfl
  | mem b =>
    have haddr : locAddress? dst ≠ some (ramIndex b) := by
      cases dst with
      | reg r => simp [locAddress?]
      | mem c => simpa [locAddress?, BitVec.toNat_inj] using hmem b rfl
    exact hram _ haddr

/-! ### The statements -/

/-- Settles O11: the rule of a DS operation, with its function as arithmetic modulo 256. -/
theorem addAndSubWrap : Obligations.AddAndSubWrap := ⟨dsRule_of_eq addByte_eq, dsRule_of_eq subByte_eq⟩

/-- Settles O12: the rule of a DS operation, with its function bit by bit. -/
theorem logicActsBitwise : Obligations.LogicActsBitwise :=
  ⟨dsRule_of_eq orByte_eq, dsRule_of_eq andByte_eq, dsRule_of_eq xorByte_eq⟩

/-- Settles O13: the rule of a DS operation, with its function as multiplication or division by a power of two. -/
theorem shiftsAreLogical : Obligations.ShiftsAreLogical := ⟨dsRule_of_eq shlByte_eq, dsRule_of_eq shrByte_eq⟩

/-- Settles O14: both shifts give 0 from 8 on, and an amount that is not the destination is not written. -/
theorem shiftByEightOrMoreGivesZero : Obligations.ShiftByEightOrMoreGivesZero := by
  intro op dst amount s hop
  obtain ⟨t, hexec, hvalue, hregs, hram, -, -, -, -, -, hok⟩ := exec_ds_writesOnly op dst amount s
  refine ⟨t, hexec, hok, fun hamount => ?_, valueOf_eq_of_not_written hregs hram⟩
  rw [hvalue]
  obtain rfl | rfl := hop
  · exact shlByte_eq_zero _ hamount
  · exact shrByte_eq_zero _ hamount

end Sys2Proof.Proofs
end

section
/-! PROOFS. The family of spec/42_compare.md: CMP and the flags it writes (R170, R171). -/

namespace Sys2Proof.Proofs

open Sys2Proof Sys2Proof.Machine Sys2Proof.Claims

/-! ### The text form and the effect -/

/-- The record of a CMP: operand 1 is resolved before operand 2 (R117). -/
theorem decodeRecord_cmp (labels : LabelTable) (p1 p2 : Token) :
    decodeRecord labels ⟨"cmp".toList, p1, p2⟩ = (do let u ← classify p1; let w ← classify p2; return .cmp u w) :=
  decodeRecord_of_textOp? (op := .cmp) rfl labels p1 p2

/-- CMP always completes, in the statements' own terms: P from the two values, PC advanced, and nothing else written (R170). -/
theorem exec_cmp_writesStatus (u w : Operand) (s : State) :
    exec (.cmp u w) s =
      .next { s with p := compareFlags (valueOf u s) (valueOf w s), pc := pcAdvanced s, stepResult := .ok (pcAdvanced s) } := by
  rw [exec_cmp_next, valueOf_eq_operandValue, valueOf_eq_operandValue, pcAdvanced_eq_advance_pc]

/-! ### The status of two bytes (R170, R171) -/

theorem compareFlags_of_eq {u w : Byte} (h : u.toNat = w.toNat) : compareFlags u w = 0x02 := if_pos h

theorem compareFlags_of_lt {u w : Byte} (h : u.toNat < w.toNat) : compareFlags u w = 0x04 := by
  rw [compareFlags, if_neg h.ne, if_pos h]

theorem compareFlags_of_gt {u w : Byte} (h : w.toNat < u.toNat) : compareFlags u w = 0x08 := by
  rw [compareFlags, if_neg h.ne', if_neg h.asymm]

/-- Two bytes compare in one of three ways, and each gives its own status. -/
theorem compareFlags_cases (u w : Byte) :
    (u.toNat = w.toNat ∧ compareFlags u w = 0x02) ∨ (u.toNat < w.toNat ∧ compareFlags u w = 0x04) ∨
      (w.toNat < u.toNat ∧ compareFlags u w = 0x08) := by
  obtain hlt | heq | hgt := Nat.lt_trichotomy u.toNat w.toNat
  · exact .inr (.inl ⟨hlt, compareFlags_of_lt hlt⟩)
  · exact .inl ⟨heq, compareFlags_of_eq heq⟩
  · exact .inr (.inr ⟨hgt, compareFlags_of_gt hgt⟩)

/-- CMP clears `negative` and the reserved bits (R170). -/
theorem compareFlags_negative_reserved (u w : Byte) :
    flagNegative (compareFlags u w) = false ∧ flagReserved (compareFlags u w) = 0 := by
  obtain ⟨-, hp⟩ | ⟨-, hp⟩ | ⟨-, hp⟩ := compareFlags_cases u w <;> rw [hp] <;> decide

/-! ### The statements -/

/-- Settles O15: the encoding and the text form by the kinds of the operands, the effect by the comparison of their values. -/
theorem cmpWritesStatus : Obligations.CmpWritesStatus := by
  intro u w
  refine ⟨?encoding, ?text, textualErrorsAmong_of_not_jump (op := .cmp) rfl (by simp), ?privileged, binaryErrorsAmong _,
    fun s => ⟨_, exec_cmp_writesStatus u w s, rfl, compareFlags_of_eq, compareFlags_of_lt, compareFlags_of_gt,
      compareFlags_negative_reserved _ _⟩⟩
  case encoding => rw [encode_cmp, operandCode_eq, operandCode_eq]; rfl
  case text =>
    intro labels p1 p2 hp1 hp2
    rw [decodeRecord_cmp, hp1, hp2]
    rfl
  case privileged =>
    rintro labels p1 p2 (hp1 | ⟨hp1, hp2⟩) <;> rw [decodeRecord_cmp]
    · rw [classify_privileged hp1]; rfl
    · rw [hp1, classify_privileged hp2]; rfl

/-- Settles O16: in each of the three outcomes of the comparison, one flag's bit is set and the other two are clear. -/
theorem compareIsUnsigned : Obligations.CompareIsUnsigned := by
  refine fun u w s => ⟨_, exec_cmp_writesStatus u w s, ?_⟩
  obtain ⟨heq, hp⟩ | ⟨hlt, hp⟩ | ⟨hgt, hp⟩ := compareFlags_cases (valueOf u s) (valueOf w s) <;> simp only [hp]
  · exact ⟨iff_of_true rfl heq, iff_of_false (by decide) heq.not_lt, iff_of_false (by decide) heq.not_gt, by decide⟩
  · exact ⟨iff_of_false (by decide) hlt.ne, iff_of_true rfl hlt, iff_of_false (by decide) hlt.asymm, by decide⟩
  · exact ⟨iff_of_false (by decide) hgt.ne', iff_of_false (by decide) hgt.asymm, iff_of_true rfl hgt, by decide⟩

end Sys2Proof.Proofs
end

section
/-! PROOFS. The family of spec/44_control.md: the jumps and CALL (R190 to R197). -/

namespace Sys2Proof.Proofs

open Sys2Proof Sys2Proof.Machine Sys2Proof.Claims

/-! ### Decoding bytes whose one operand byte is never refused -/

/-- With an operand byte missing, every byte there is has been fetched (R97, R99). -/
theorem decode_of_short {b : Byte} {o : Opcode} (ho : opcode? b = some o) {operands : List Byte}
    (hshort : operands.length + 1 < o.size) : decode (b :: operands) = .error .outOfRange (operands.length + 1) := by
  simp only [decode, ho, if_pos hshort]

/-- An opcode that refuses no operand byte can only miss one (R97, R98). -/
theorem binaryErrorsAmong_of_resolves {i : Instr}
    (hresolves : ∀ b1 b2, ∃ j, resolveOperands i.resolved.opcode b1 b2 = .ok j) : BinaryErrorsAmong i [.outOfRange] := by
  intro rest e n h
  obtain ⟨operands, hbytes, -⟩ := encodeResolved_eq i.resolved
  have hopcode := opcode?_byte i.resolved.opcode
  rw [encode, hbytes, List.take_succ_cons, List.take_zero, List.singleton_append] at h
  by_cases hfits : i.resolved.opcode.size ≤ rest.length + 1
  · obtain ⟨j, hj⟩ := hresolves (rest.getD 0 0) (rest.getD 1 0)
    simp only [decode_of_opcode hopcode rest hfits, hj, reduceCtorEq] at h
  · rw [decode_of_short hopcode (by omega)] at h
    cases h
    simp

theorem opcode?_jumpByte (c : Cond) : opcode? (jumpByte c) = some (.jump c) := by cases c <;> rfl

/-- A jump's operand byte is its target, zero-extended (R89, R92). -/
theorem decode_jump (c : Cond) (b : Byte) (rest : List Byte) :
    decode (jumpByte c :: b :: rest) = .instr (.jump c (b.setWidth 16)) 2 := by
  rw [decode_of_opcode (opcode?_jumpByte c) (b :: rest) (by simp [Opcode.size])]
  rfl

theorem opcode?_call : opcode? 0xB7 = some .call := rfl

/-- CALL's operand byte is read and kept as it is (R197). -/
theorem decode_call (b : Byte) (rest : List Byte) : decode (0xB7 :: b :: rest) = .instr (.call b) 2 := by
  rw [decode_of_opcode opcode?_call (b :: rest) (by simp [Opcode.size])]
  rfl

theorem binaryErrorsAmong_jump (c : Cond) (t : Word16) : BinaryErrorsAmong (.jump c t) [.outOfRange] := by
  refine binaryErrorsAmong_of_resolves fun b1 _ => ⟨.jump c (zext16 b1), ?_⟩
  rw [show (Instr.jump c t).resolved = .jump c t from Instr.resolved_ofResolved (.jump c t)]
  rfl

/-! ### The text form of a jump -/

/-- The record of a jump: its target is resolved before the extra operand is looked at (R117). -/
theorem decodeRecord_jump (c : Cond) (labels : LabelTable) (p1 p2 : Token) :
    decodeRecord labels ⟨jumpWord c, p1, p2⟩ =
      (do let t ← classifyTarget labels p1; noSecondOperand p2; return .jump c t) :=
  decodeRecord_of_textOp? (textOp?_jumpWord c) labels p1 p2

/-- A jump's mnemonic is known, so its record is never InvalidOpcode (R114, R117). -/
theorem textualErrorsAmong_jump (c : Cond) :
    TextualErrorsAmong (jumpWord c) [.invalidToken, .invalidOperand, .undefinedLabel] := by
  intro labels p1 p2 e h
  obtain ⟨hnone, -⟩ | ⟨-, rfl | rfl⟩ | ⟨-, rfl⟩ := decodeRecord_error h
  · simp [textOp?_jumpWord] at hnone
  all_goals simp

/-- A jump takes no register, no memory token and no second operand (R114, R116). -/
theorem decodeRecord_jump_refused {c : Cond} {labels : LabelTable} {p1 p2 : Token}
    (h : p1 ∈ registerNames ∨ (∃ lit, p1 = '*' :: lit ∧ IsLiteral lit) ∨ (∃ t, classifyTarget labels p1 = .ok t) ∧ p2 ≠ []) :
    decodeRecord labels ⟨jumpWord c, p1, p2⟩ = .error .invalidOperand := by
  obtain ⟨hregister, hmemory, -⟩ := jumpTargetsAreResolved.1 labels p1
  rw [decodeRecord_jump]
  obtain h | ⟨lit, h, hlit⟩ | ⟨⟨t, ht⟩, hp2⟩ := h
  · rw [hregister h]; rfl
  · rw [hmemory lit h hlit]; rfl
  · rw [ht, noSecondOperand_of_ne_nil hp2]; rfl

/-! ### The effects -/

/-- The model's test of a condition is the spec's, bit by bit of P (R24, R190 to R196). -/
theorem condHolds_iff_taken (c : Cond) (p : Byte) : condHolds c p = true ↔ Taken c p := by
  cases c <;> simp [condHolds, Taken, flagEqual, flagLower, flagGreater]

/-- A taken jump writes its target to PC and nothing else. -/
theorem exec_jump_taken {c : Cond} {s : State} (htaken : Taken c s.p) (t : Word16) :
    exec (.jump c t) s = .next { s with pc := t, stepResult := .ok t } := by
  rw [exec_jump_next, if_pos ((condHolds_iff_taken c s.p).2 htaken)]

/-- A jump that is not taken advances PC and does nothing else. -/
theorem exec_jump_not_taken {c : Cond} {s : State} (htaken : ¬Taken c s.p) (t : Word16) :
    exec (.jump c t) s = .next { s with pc := pcAdvanced s, stepResult := .ok (pcAdvanced s) } := by
  rw [exec_jump_next, if_neg (mt (condHolds_iff_taken c s.p).1 htaken), pcAdvanced_eq_advance_pc]

/-- Every jump follows the rule of a jump. -/
theorem jumpRule (c : Cond) : JumpRule c := by
  refine ⟨decode_jump c, ?text, textualErrorsAmong_jump c, fun _ _ _ => decodeRecord_jump_refused, binaryErrorsAmong_jump c,
    fun t s => ⟨fun htaken => ⟨exec_jump_taken htaken t, decide_eq_true⟩, fun htaken => exec_jump_not_taken htaken t⟩⟩
  case text =>
    intro labels p1 t ht
    rw [decodeRecord_jump, ht]
    rfl

/-- CALL in the binary front end leaves the state as it is: Fetch has moved PC already (R16, R197). -/
theorem exec_call_binary (b : Byte) {s : State} {bytes : List Byte} (hrom : s.rom = .binary bytes) :
    exec (.call b) s = .next { s with stepResult := .ok s.pc } := by
  have hpc : (advance s).pc = s.pc := by simp only [← pcAdvanced_eq_advance_pc, pcAdvanced, hrom]
  rw [exec_call_next, hpc]

/-- A step that decodes an instruction runs it with PC past the bytes that decode has read (R99, R119). -/
theorem step_of_decode {s : State} {bytes : List Byte} (hrom : s.rom = .binary bytes) (hlen : bytes.length ≤ 65535) {i : Instr}
    {n : Nat} (h : decode (bytes.drop s.pc.toNat) = .instr i n) : step s = exec i (s.setPc (s.pc + BitVec.ofNat 16 n)) := by
  rw [step_eq, decodePhase_binary hrom hlen, h]
  rfl

/-! ### The statements -/

/-- Settles O21: the rule of a jump, for the condition that always holds. -/
theorem jmpGoesToTarget : Obligations.JmpGoesToTarget := jumpRule .always

/-- Settles O22: the rule of a jump, for each of the six conditions on P. -/
theorem conditionalJumpsTestFlags : Obligations.ConditionalJumpsTestFlags :=
  ⟨jumpRule .equal, jumpRule .notEqual, jumpRule .lower, jumpRule .lowerEqual, jumpRule .greater, jumpRule .greaterEqual⟩

/-- Settles O24: CALL refuses no operand byte and its effect is the PC advance alone; `call` is not in the dispatch table. -/
theorem callDoesNothing : Obligations.CallDoesNothing := by
  obtain ⟨-, hcall, hinvalid⟩ := otherMnemonicsAreInvalid
  refine fun b => ⟨decode_call b, decode_of_short opcode?_call (by decide),
    binaryErrorsAmong_of_resolves fun b1 _ => ⟨.call b1, rfl⟩, fun labels p1 p2 => (hinvalid labels _ p1 p2).2 hcall,
    fun s bytes hrom => ⟨exec_call_binary b hrom, fun hlen hopcode hoperand => ?step⟩⟩
  case step =>
    have hdecode : decode (bytes.drop s.pc.toNat) = .instr (.call b) 2 := by
      rw [drop_of_getElem? hopcode, drop_of_getElem? hoperand, decode_call]
    exact (step_of_decode hrom hlen hdecode).trans (exec_call_binary b (s := s.setPc (s.pc + 2)) hrom)

end Sys2Proof.Proofs
end

section
/-! PROOFS. The family of spec/60_exceptions.md: which step raises which error (R211, R212, R216), what it leaves of the state
(R220), and the host's reading of registers by name (R235). -/

namespace Sys2Proof.Proofs

open Sys2Proof Sys2Proof.Machine Sys2Proof.Claims

/-! ### The errors that the decode phase raises -/

/-- The binary front end raises errors of a fetch, of the opcode byte and of an operand byte (R97, R98), from any state. -/
theorem decodeBinary_error {s s' : State} {e : Error} (h : decodeBinary s = (.error e, s')) :
    e = .outOfRange ∨ e = .invalidOpcode ∨ e = .invalidOperand := by
  unfold decodeBinary at h
  split at h
  · rename_i hop
    cases h
    exact .inl (fetch_error hop)
  split at h
  · cases h
    exact .inr (.inl rfl)
  unfold decodeBinaryOperands at h
  split at h
  · rename_i hb1
    cases h
    exact .inl (fetch_error hb1)
  split at h
  · split at h
    · rename_i hb2
      cases h
      exact .inl (fetch_error hb2)
    · exact .inr (.inr (resolveOperands_error (congrArg Prod.fst h)))
  · exact .inr (.inr (resolveOperands_error (congrArg Prod.fst h)))

/-- The textual front end raises OutOfRange where there is no record, and else what the record's decoding raises (R117). -/
theorem decodeTextual_error {records : List InstrRecord} {s : State} {e : Error} (h : decodeTextual records s = .error e) :
    (e = .outOfRange ∧ records.length ≤ s.pc.toNat) ∨
      e ∈ [.invalidOpcode, .invalidToken, .invalidOperand, .undefinedLabel] := by
  unfold decodeTextual at h
  split at h
  · rename_i hnone
    cases h
    exact .inl ⟨rfl, List.getElem?_eq_none_iff.1 hnone⟩
  · obtain ⟨-, rfl⟩ | ⟨-, rfl | rfl⟩ | ⟨-, rfl⟩ := decodeRecord_error h <;> simp

/-- The decode phase raises no stack error and no DuplicateLabel: those belong to the execute phase and to a load (R212, R215). -/
theorem decodePhase_error {s : State} {e : Error} (h : (decodePhase s).1 = .error e) :
    e ≠ .stackOverflow ∧ e ≠ .stackUnderflow ∧ e ≠ .duplicateLabel := by
  unfold decodePhase at h
  split at h
  · obtain rfl | rfl | rfl := decodeBinary_error (Prod.ext h rfl) <;> simp
  · obtain ⟨rfl, -⟩ | he := decodeTextual_error h
    · simp
    · refine ⟨?_, ?_, ?_⟩ <;> rintro rfl <;> simp at he

/-- With its opcode byte there, an instruction is OutOfRange exactly where it is cut short (R97, R211). -/
theorem decode_outOfRange_iff (b : Byte) (operands : List Byte) :
    (∃ n, decode (b :: operands) = .error .outOfRange n) ↔ ∃ o, opcode? b = some o ∧ operands.length + 1 < o.size := by
  cases ho : opcode? b with
  | none => simp [decode_of_unassigned ho]
  | some o =>
    by_cases hshort : operands.length + 1 < o.size
    · simp [decode_of_short ho hshort, hshort]
    · obtain ⟨-, hd⟩ | ⟨-, i, hd⟩ := decode_cases ho (operands := operands) (by omega) <;> simp [hd, hshort]

theorem outcome_error_iff (d : Decoded) (s : State) (e : Error) : (Decoded.outcome d s).1 = .error e ↔ ∃ n, d = .error e n := by
  cases d <;> simp [Decoded.outcome]

/-- The decode phase is OutOfRange where the opcode byte or the record is missing, or an operand byte is (R211). -/
theorem decodePhase_outOfRange_iff {s : State} (hlen : s.len ≤ 65535) :
    (decodePhase s).1 = .error .outOfRange ↔
      s.len ≤ s.pc.toNat ∨
        ∃ bytes op o, s.rom = .binary bytes ∧ bytes[s.pc.toNat]? = some op ∧ opcode? op = some o ∧
          bytes.length < s.pc.toNat + o.size := by
  cases hrom : s.rom with
  | textual records =>
    have hrecords : s.len = records.length := by simp only [State.len, hrom, Rom.len]
    simp only [decodePhase, hrom, hrecords, reduceCtorEq, false_and, exists_false, or_false]
    constructor
    · intro h
      obtain ⟨-, hend⟩ | he := decodeTextual_error h
      · exact hend
      · simp at he
    · intro hend
      rw [decodeTextual, List.getElem?_eq_none hend]
  | binary bytes =>
    have hbytes : s.len = bytes.length := by simp only [State.len, hrom, Rom.len]
    rw [decodePhase_binary hrom (hbytes ▸ hlen), outcome_error_iff, hbytes]
    cases hop : bytes[s.pc.toNat]? with
    | none =>
      have hend := List.getElem?_eq_none_iff.1 hop
      rw [List.drop_of_length_le hend]
      exact iff_of_true ⟨0, rfl⟩ (.inl hend)
    | some op =>
      obtain ⟨hinside, -⟩ := List.getElem?_eq_some_iff.1 hop
      rw [drop_of_getElem? hop, decode_outOfRange_iff, List.length_drop]
      constructor
      · rintro ⟨o, ho, hshort⟩
        exact .inr ⟨bytes, op, o, rfl, hop, ho, by omega⟩
      · rintro (hend | ⟨_, _, o, ⟨⟩, hop', ho, hshort⟩)
        · omega
        · cases hop.symm.trans hop'
          exact ⟨o, ho, by omega⟩

/-! ### Everything a step can do -/

/-- The instruction is a PUSH onto a full stack (R61). -/
abbrev Overflows (i : Instr) (s : State) : Prop := s.sp.toNat = 255 ∧ ∃ src, i = .push src

/-- The instruction is a POP from an empty stack (R62). -/
abbrev Underflows (i : Instr) (s : State) : Prop := s.sp.toNat = 0 ∧ ∃ dst, i = .pop dst

/-- An instruction completes, unless it is a PUSH at S = 255 or a POP at S = 0; then it writes nothing (R212). -/
theorem exec_outcome (i : Instr) (s : State) :
    ∃ t, exec i s = .next t ∧
      ((¬Overflows i s ∧ ¬Underflows i s ∧ t.stepResult = .ok t.pc) ∨
        (Overflows i s ∧ t = s.setResult (.err .stackOverflow)) ∨
        (Underflows i s ∧ t = s.setResult (.err .stackUnderflow))) := by
  obtain ⟨t, ht, hok | ⟨hfull, hpush, hstate⟩ | ⟨hempty, hpop, hstate⟩⟩ := exec_cases i s
  · refine ⟨t, ht, .inl ⟨?_, ?_, hok⟩⟩
    · rintro ⟨hfull, src, rfl⟩
      obtain ⟨-, he⟩ | ⟨hlt, -⟩ := exec_push_cases src s
      · cases ht.symm.trans he
        simp at hok
      · omega
    · rintro ⟨hempty, dst, rfl⟩
      obtain ⟨-, he⟩ | ⟨hpos, -⟩ := exec_pop_cases dst s
      · cases ht.symm.trans he
        simp at hok
      · omega
  · exact ⟨t, ht, .inr (.inl ⟨⟨hfull, hpush⟩, hstate⟩)⟩
  · exact ⟨t, ht, .inr (.inr ⟨⟨hempty, hpop⟩, hstate⟩)⟩

/-- A step raises the decode phase's error, or decodes an instruction that completes or raises a stack error; whatever it raises,
only PC and the returned result differ from the state before (R119, R220). -/
theorem step_cases (s : State) :
    ∃ p t, step s = .next t ∧ (decodePhase s).2 = s.setPc p ∧
      ((∃ e, (decodePhase s).1 = .error e ∧ t = (s.setPc p).setResult (.err e)) ∨
        ∃ i, (decodePhase s).1 = .ok i ∧
          ((¬Overflows i s ∧ ¬Underflows i s ∧ t.stepResult = .ok t.pc) ∨
            (Overflows i s ∧ t = (s.setPc p).setResult (.err .stackOverflow)) ∨
            (Underflows i s ∧ t = (s.setPc p).setResult (.err .stackUnderflow)))) := by
  obtain ⟨p, hstate, -⟩ := decodePhase_state s
  rw [step_eq]
  rcases hd : decodePhase s with ⟨e | i, s'⟩
  all_goals obtain rfl : s' = s.setPc p := by rw [← hstate, hd]
  · exact ⟨p, _, raiseError_eq e _, rfl, .inl ⟨e, rfl, rfl⟩⟩
  · obtain ⟨t, ht, hcases⟩ := exec_outcome i (s.setPc p)
    exact ⟨p, t, ht, rfl, .inr ⟨i, rfl, hcases⟩⟩

/-- The step's error, where it is no stack error, is the decode phase's. -/
theorem step_error_iff {s t : State} (ht : step s = .next t) {e : Error} (hover : e ≠ .stackOverflow)
    (hunder : e ≠ .stackUnderflow) : t.stepResult = .err e ↔ (decodePhase s).1 = .error e := by
  obtain ⟨p, t', ht', -, hcases⟩ := step_cases s
  cases ht.symm.trans ht'
  obtain ⟨e', hd, rfl⟩ | ⟨i, hd, ⟨-, -, hok⟩ | ⟨-, rfl⟩ | ⟨-, rfl⟩⟩ := hcases
  · simp [hd]
  · simp [hd, hok]
  · simp [hd, hover.symm]
  · simp [hd, hunder.symm]

/-- A step that raises an error leaves what the decode phase left, but for the returned result (R220). -/
theorem step_error_state {s t : State} (ht : step s = .next t) {e : Error} (he : t.stepResult = .err e) :
    ∃ p, (decodePhase s).2 = s.setPc p ∧ t = (s.setPc p).setResult (.err e) := by
  obtain ⟨p, t', ht', hstate, hcases⟩ := step_cases s
  cases ht.symm.trans ht'
  obtain ⟨e', -, rfl⟩ | ⟨i, -, ⟨-, -, hok⟩ | ⟨-, rfl⟩ | ⟨-, rfl⟩⟩ := hcases
  case' inr.inl => cases hok.symm.trans he
  all_goals
    cases he
    exact ⟨p, hstate, rfl⟩

/-- Where the decode phase leaves PC: the textual front end has not moved it, and the binary one by at most three bytes
(R99, R118). -/
theorem decodePhase_pc {s : State} {p : Word16} (hstate : (decodePhase s).2 = s.setPc p) :
    (s.frontEnd = .textual → p = s.pc) ∧
      (s.frontEnd = .binary → s.len ≤ 65535 → s.pc.toNat ≤ p.toNat ∧ p.toNat ≤ s.pc.toNat + 3) := by
  cases hrom : s.rom with
  | textual records =>
    obtain ⟨q, hq, hsame⟩ := decodePhase_state s
    obtain rfl : p = q := congrArg State.pc (hstate.symm.trans hq)
    exact ⟨hsame, by simp [State.frontEnd, hrom, Rom.frontEnd]⟩
  | binary bytes =>
    refine ⟨by simp [State.frontEnd, hrom, Rom.frontEnd], fun _ hlen => ?_⟩
    have hbytes : bytes.length ≤ 65535 := by simpa only [State.len, hrom, Rom.len] using hlen
    obtain ⟨n, hn, hthree, hfits⟩ := outcome_decode_state (bytes.drop s.pc.toNat) s
    rw [← decodePhase_binary hrom hbytes] at hn
    obtain rfl : p = s.pc + BitVec.ofNat 16 n := congrArg State.pc (hstate.symm.trans hn)
    rw [List.length_drop] at hfits
    have hpc := s.pc.isLt
    rw [BitVec.toNat_add, BitVec.toNat_ofNat, Nat.add_mod_mod, Nat.mod_eq_of_lt (by omega)]
    omega

/-! ### Jumps to a label, and loading -/

/-- A textual step runs the record that it decodes (R119). -/
theorem step_of_decodeTextual_ok {s : State} {records : List InstrRecord} {i : Instr} (hrom : s.rom = .textual records)
    (h : decodeTextual records s = .ok i) : step s = exec i s := by
  have hdecode : decodePhase s = (.ok i, s) := by simp only [decodePhase, hrom, h]
  rw [step_eq, hdecode]

/-- A load fails with OutOfRange, or with an error of the pre-pass (R253, R254). -/
theorem loadProgram_error {image : Image} {s : State} {e : Error} (h : loadProgram image s = .error e) :
    e = .outOfRange ∨ e = .duplicateLabel ∨ e = .invalidToken := by
  unfold loadProgram at h
  split at h
  · split at h <;> cases h
    exact .inl rfl
  · split at h
    · rename_i hprepass
      cases h
      exact .inr (prepassFrom_error _ _ _ _ hprepass)
    · split at h <;> cases h
      exact .inl rfl

/-! ### Register names (R235) -/

/-- What folds to a letter is that letter, or its capital (R101). -/
theorem eq_or_eq_toUpper_of_toLower {c l : Char} (h : c.toLower = l) : c = l ∨ c = l.toUpper := by
  subst h
  obtain ⟨-, hc⟩ | ⟨n, h1, h2, rfl⟩ := toLower_cases c
  · exact .inl hc.symm
  · right
    interval_cases n <;> decide

theorem foldCase_eq_singleton {name : Token} {l : Char} (h : foldCase name = [l]) : name = [l] ∨ name = [l.toUpper] := by
  obtain ⟨c, rfl, hc⟩ := List.map_eq_singleton_iff.1 h
  simpa using eq_or_eq_toUpper_of_toLower hc

/-- The letters of the registers that the host reads, in either case. -/
abbrev hostRegisterNames : List Token := [['a'], ['A'], ['x'], ['X'], ['y'], ['Y'], ['p'], ['P'], ['s'], ['S']]

/-- A name that is none of the five letters in either case is no register's. -/
theorem hostRegister?_eq_none {name : Token} (h : name ∉ hostRegisterNames) : hostRegister? name = none := by
  have hnames : ∀ l ∈ ['a', 'x', 'y', 'p', 's'], [l] ∈ hostRegisterNames ∧ [l.toUpper] ∈ hostRegisterNames := by simp
  have hletter : ∀ l ∈ ['a', 'x', 'y', 'p', 's'], foldCase name ≠ [l] := by
    intro l hl hfold
    obtain ⟨hlower, hupper⟩ := hnames l hl
    obtain rfl | rfl := foldCase_eq_singleton hfold
    · exact h hlower
    · exact h hupper
  simp only [List.forall_mem_cons] at hletter
  obtain ⟨ha, hx, hy, hp, hs, -⟩ := hletter
  -- With each letter excluded by a hypothesis, the definition's last arm is left.
  simp only [hostRegister?]

/-- Reading a register by name changes nothing, whatever the name is. -/
theorem transact_register_state (name : Token) (s : State) : (transact (.register name) s).1 = s := by
  simp only [transact]
  cases readRegister name s <;> rfl

/-! ### The statements -/

/-- Settles O20: by everything a step can do; a decode error is no stack error, and an instruction that completes is no PUSH at
S = 255 and no POP at S = 0. -/
theorem stackErrorsOnlyAtTheBounds : Obligations.StackErrorsOnlyAtTheBounds := by
  intro s
  obtain ⟨p, t, ht, -, hcases⟩ := step_cases s
  refine ⟨t, ht, ?_⟩
  obtain ⟨e, hd, rfl⟩ | ⟨i, hd, ⟨hno, hnu, hok⟩ | ⟨⟨hfull, src, rfl⟩, rfl⟩ | ⟨⟨hempty, dst, rfl⟩, rfl⟩⟩ := hcases
  · obtain ⟨hover, hunder, -⟩ := decodePhase_error hd
    simp [hd, hover, hunder]
  · simpa [hd, hok] using And.intro hno hnu
  · exact ⟨by simp [hd, hfull], by simp [hd, hfull], fun _ => rfl⟩
  · exact ⟨by simp [hd, hempty], by simp [hd, hempty], fun _ => rfl⟩

/-- Settles O29: the step's OutOfRange is the decode phase's. -/
theorem outOfRangeExactlyBeyondProgram : Obligations.OutOfRangeExactlyBeyondProgram := by
  intro s hlen
  obtain ⟨-, t, ht, -⟩ := step_cases s
  exact ⟨t, ht, by rw [step_error_iff ht (by simp) (by simp), decodePhase_outOfRange_iff hlen]⟩

/-- Settles O30: an error leaves what the decode phase left, and that has moved PC alone. -/
theorem errorsArePrecise : Obligations.ErrorsArePrecise := by
  intro s t e ht he
  obtain ⟨p, hstate, rfl⟩ := step_error_state ht he
  exact ⟨rfl, decodePhase_pc hstate⟩

/-- Settles O46: the label table is looked at when the jump's record is decoded, and by no load. -/
theorem undefinedLabelIsAnError : Obligations.UndefinedLabelIsAnError := by
  refine ⟨fun image s h => ?load, fun s records c name hrom hrecord hident hregister => ?jump⟩
  case load => obtain he | he | he := loadProgram_error h <;> cases he
  case jump =>
    obtain ⟨-, -, -, hlabel, -⟩ := jumpTargetsAreResolved.1 s.labels name
    obtain ⟨hundefined, hdefined⟩ := hlabel hident hregister
    have hdecode : decodeTextual records s = decodeRecord s.labels ⟨jumpWord c, name, []⟩ := by
      simp only [decodeTextual, hrecord]
    rw [decodeRecord_jump] at hdecode
    refine ⟨fun hnone => step_of_decodeTextual_error hrom ?_, fun t hnodup hmem => step_of_decodeTextual_ok hrom ?_⟩
    · rw [hdecode, hundefined hnone]
      rfl
    · rw [hdecode, hdefined t hnodup hmem]
      rfl

/-- Settles O54: each of the ten names folds to its letter, and no other name folds to one. -/
theorem hostReadsRegisters : Obligations.HostReadsRegisters := by
  refine fun name s => ⟨transact_register_state name s, ?a, ?x, ?y, ?p, ?sp, fun hother => ?other⟩
  case other => simp only [transact, readRegister, hostRegister?_eq_none hother]
  all_goals rintro (rfl | rfl) <;> rfl

end Sys2Proof.Proofs
end

section
/-! PROOFS. The family of spec/70_reset_and_hazards.md: reset (R250), the state at creation (R251) and loading a program (R253). -/

namespace Sys2Proof.Proofs

open Sys2Proof Sys2Proof.Machine Sys2Proof.Claims

/-! ### Reset -/

/-- The host's reset always answers Ok (R236). -/
theorem transact_reset (s : State) : transact .reset s = (resetOp s, .done) := rfl

/-- A register of the reset state is 0, whichever program it holds (R40). -/
theorem reg_resetOp (s : State) (r : Reg) : (resetOp s).reg r = 0 := by
  cases r <;> rfl

/-! ### A step at the end of a binary program -/

/-- At PC >= len there is no opcode byte to fetch, and a fetch that fails has moved nothing (R82, R257). -/
theorem step_of_binary_end {s : State} {bytes : List Byte} (hrom : s.rom = .binary bytes) (hend : bytes.length ≤ s.pc.toNat) :
    step s = .next { s with stepResult := .err .outOfRange } := by
  have hfetch := fetch_none hrom (List.getElem?_eq_none hend)
  have hdecode : decodePhase s = (.error .outOfRange, s) := by simp only [decodePhase, hrom, decodeBinary, hfetch]
  rw [step_eq, hdecode]
  exact raiseError_eq .outOfRange s

/-! ### Loading -/

/-- A load that is not refused leaves the new state (R253). -/
theorem transact_load_of_ok {image : Image} {s t : State} (h : loadProgram image s = .ok t) :
    transact (.loadProgram image) s = (t, .done) := by
  simp only [transact, h]

/-- A refused load leaves the state as it was (R254). -/
theorem transact_load_of_error {image : Image} {s : State} {e : Error} (h : loadProgram image s = .error e) :
    transact (.loadProgram image) s = (s, .err e) := by
  simp only [transact, h]

/-- What a load of bytes can do (R253). -/
theorem loadProgram_binary_eq (bytes : List Byte) (s : State) :
    loadProgram (.binary bytes) s =
      if 65535 < bytes.length then .error .outOfRange else .ok { State.reset with rom := .binary bytes } := rfl

/-- What a load of text can do, once it has pre-passed (R253). -/
theorem loadProgram_textual_eq {lines : List Token} {records : List InstrRecord} {table : LabelCounts}
    (h : prepass lines = .ok (records, table)) (s : State) :
    loadProgram (.textual lines) s =
      if 65535 < records.length then .error .outOfRange
      else .ok { State.reset with rom := .textual records, labels := labelTable table } := by
  simp only [loadProgram, h]
  rfl

/-- Counts below 2^16 are kept by the label table (R35). -/
theorem labelTable_toNat {table : LabelCounts} (hcounts : ∀ l ∈ table, l.2 ≤ 65535) :
    (labelTable table).map (fun l => (l.1, l.2.toNat)) = table := by
  rw [labelTable, List.map_map]
  refine (List.map_congr_left (g := id) fun l hl => ?_).trans (List.map_id table)
  have hfits : l.2 < 2 ^ 16 := Nat.lt_succ_of_le (hcounts l hl)
  exact Prod.ext rfl ((BitVec.toNat_ofNat l.2 16).trans (Nat.mod_eq_of_lt hfits))

/-- No label of a text has a value beyond the number of its records (R103). -/
theorem prepass_bound {lines : List Token} {records : List InstrRecord} {table : LabelCounts}
    (h : prepass lines = .ok (records, table)) : ∀ l ∈ table, l.2 ≤ records.length := by
  simpa using prepassFrom_bound h (by simp)

/-! ### The statements -/

/-- Settles O49: both kinds of image are checked against one bound, and the label values of a text within it fit PC. -/
theorem loadInstallsAndResets : Obligations.LoadInstallsAndResets := by
  refine fun s => ⟨fun bytes => ⟨fun hfits => ?bytesFit, fun hlong => ?bytesTooLong⟩,
    fun lines records table hprepass => ⟨fun hfits => ?textFits, fun hlong => ?textTooLong⟩⟩
  case bytesFit => exact transact_load_of_ok (by rw [loadProgram_binary_eq, if_neg hfits.not_gt])
  case bytesTooLong => exact transact_load_of_error (by rw [loadProgram_binary_eq, if_pos hlong])
  case textFits =>
    refine ⟨labelTable table, transact_load_of_ok ?_, labelTable_toNat fun l hl => (prepass_bound hprepass l hl).trans hfits⟩
    rw [loadProgram_textual_eq hprepass, if_neg hfits.not_gt]
  case textTooLong => exact transact_load_of_error (by rw [loadProgram_textual_eq hprepass, if_pos hlong])

/-- Settles O47: every field but the program is as at creation, and an empty store reads 0 at each index. -/
theorem resetZeroesAndKeepsProgram : Obligations.ResetZeroesAndKeepsProgram := by
  refine fun s => ⟨resetOp s, transact_reset s, reg_resetOp s, rfl, rfl, rfl, fun k => ?stores, rfl, rfl, rfl, rfl⟩
  case stores => exact ⟨Memory.read_nil k, Memory.read_nil k, Memory.read_nil k⟩

/-- Settles O48: the program at creation holds no byte, so its first step is at the end of the program. -/
theorem newInstanceIsEmpty : Obligations.NewInstanceIsEmpty :=
  ⟨rfl, rfl, rfl, rfl, step_of_binary_end rfl (Nat.zero_le _)⟩

end Sys2Proof.Proofs
end

section
/-! PROOFS. The encoder and the binary decoder are inverse to each other (R80 to R98), and so are the assembler's image and its
records (R108). -/

namespace Sys2Proof.Proofs

open Sys2Proof Sys2Proof.Machine Sys2Proof.Claims

/-! ### Bytes that decode -/

/-- What decodes to an instruction is an assigned opcode byte, then the operand bytes that resolve to it (R97). -/
theorem decode_instr_inversion {bytes : List Byte} {i : Instr} {n : Nat} (h : decode bytes = .instr i n) :
    ∃ op operands o, bytes = op :: operands ∧ opcode? op = some o ∧ n = o.size ∧ o.size ≤ operands.length + 1 ∧
      resolveOperands o (operands.getD 0 0) (operands.getD 1 0) = .ok i := by
  cases bytes with
  | nil => cases h
  | cons op operands =>
    cases ho : opcode? op with
    | none => simp [decode_of_unassigned ho] at h
    | some o =>
      by_cases hshort : operands.length + 1 < o.size
      · simp [decode_of_short ho hshort] at h
      · rw [decode_of_opcode ho operands (by omega)] at h
        split at h <;> cases h
        rename_i hi
        exact ⟨op, operands, o, rfl, ho, rfl, by omega, hi⟩

/-- The front of a byte list that holds all of an instruction is its opcode byte and its operand bytes. -/
theorem take_size_cons {o : Opcode} (op : Byte) {operands : List Byte} (h : o.size ≤ operands.length + 1) :
    (op :: operands).take o.size = [op, operands.getD 0 0, operands.getD 1 0].take o.size := by
  obtain hs | hs := o.size_cases <;> rw [hs] at h ⊢
  · obtain _ | ⟨b1, operands⟩ := operands
    · simp at h
    · rfl
  · obtain _ | ⟨b1, _ | ⟨b2, operands⟩⟩ := operands
    · simp at h
    · simp at h
    · rfl

/-- Bytes after an instruction's operand bytes do not change what these resolve to. -/
theorem resolveOperands_append {o : Opcode} {operands : List Byte} (h : operands.length + 1 = o.size) (rest : List Byte) :
    resolveOperands o ((operands ++ rest).getD 0 0) ((operands ++ rest).getD 1 0) =
      resolveOperands o (operands.getD 0 0) (operands.getD 1 0) := by
  obtain hs | hs := o.size_cases <;> rw [hs] at h
  · obtain ⟨b1, rfl⟩ := List.length_eq_one_iff.1 (Nat.succ.inj h)
    exact resolveOperands_size_two hs ..
  · obtain ⟨b1, b2, rfl⟩ := List.length_eq_two.1 (Nat.succ.inj h)
    rfl

/-! ### The statements -/

/-- Settles O3: the encoding begins with the opcode byte of the instruction's shape, and its operand bytes resolve to the
instruction. -/
theorem decodeInvertsEncode : Obligations.DecodeInvertsEncode := by
  intro i rest hw
  obtain ⟨operands, hbytes, hsize⟩ := encodeResolved_eq i.resolved
  have hencode : encode i = i.resolved.opcode.byte :: operands := hbytes
  have hresolve := resolveOperands_encodeResolved hbytes (by rwa [i.ofResolved_resolved])
  rw [i.ofResolved_resolved, ← resolveOperands_append hsize rest] at hresolve
  rw [hencode, List.cons_append,
    decode_of_opcode (opcode?_byte _) (operands ++ rest) (by rw [List.length_append]; omega), hresolve, List.length_cons, hsize]

/-- Settles O4: the opcode map gives no meaning two bytes, and an operand byte is the one of the operand it resolves to. -/
theorem encodeInvertsDecode : Obligations.EncodeInvertsDecode := by
  intro bytes i n h
  obtain ⟨op, operands, o, rfl, ho, rfl, hfits, hresolve⟩ := decode_instr_inversion h
  obtain ⟨hw, hencode⟩ := resolveOperands_ok hresolve
  rw [opcode?_some ho] at hencode
  exact ⟨hw, hfits, (take_size_cons op hfits).trans hencode.symm⟩

/-- Settles O1: each byte sequence is the encoding of its instruction. -/
theorem writtenBytesDecode : Obligations.WrittenBytesDecode :=
  ⟨decodeInvertsEncode (.movMI 10 0x2A) [] rfl, decodeInvertsEncode (.addRR .a .x) [] rfl,
    decodeInvertsEncode (.cmpRI .a 8) [] rfl, decodeInvertsEncode (.pushR .a) [] rfl, decodeInvertsEncode (.popR .x) [] rfl,
    decodeInvertsEncode (.jmp 6) [] rfl, decodeInvertsEncode (.call 0x40) [] rfl⟩

/-- Settles O59: at a record's byte address stands its instruction's encoding, whose length is the record's size. -/
theorem assembledImageDecodes : Obligations.AssembledImageDecodes := by
  intro lines records table image hprepass hassemble k r hr
  simp only [assemble, hprepass] at hassemble
  obtain ⟨i, rest, hi, hw, hbytes, -⟩ := assembleRecords_at hassemble hr
  exact ⟨i, (encode i).length, recordSize?_of_assembleInstr hi, hi, by rw [hbytes, decodeInvertsEncode i rest hw]⟩

end Sys2Proof.Proofs
end

section
/-! PROOFS. Records written out: the textual decoder reads back what an instruction is written as (R106, R111 to R115), and MOV
(R140, R141). -/

namespace Sys2Proof.Proofs

open Sys2Proof Sys2Proof.Machine Sys2Proof.Claims

/-! ### Tokens that operands are written as -/

theorem numLit?_renderByte (v : Byte) : numLit? (renderByte v) = some v.toNat := by
  have hvalue : digits? 10 (renderByte v) = some v.toNat := digits?_toDigits (by decide) (by decide) v.toNat
  obtain ⟨-, hdigits⟩ := (digits?_isSome ..).1 ⟨_, hvalue⟩
  rw [numLit?_of_decimal (mem_of_isDigit (by decide) hdigits), hvalue]

theorem isLiteral_renderByte (v : Byte) : IsLiteral (renderByte v) := isLiteral_of_numLit? (numLit?_renderByte v)

theorem classify_renderByte (v : Byte) : classify (renderByte v) = .ok (.imm v) := by
  rw [classify_of_numLit? (numLit?_renderByte v), Nat.mod_eq_of_lt v.isLt, BitVec.ofNat_toNat, BitVec.setWidth_eq]

theorem classify_renderReg (r : Reg) : classify (renderReg r) = .ok (.reg r) := by cases r <;> rfl

theorem classify_star_renderByte (v : Byte) : classify ('*' :: renderByte v) = .ok (.mem v) := by
  obtain ⟨-, -, -, -, hmemory, -⟩ := classifyInOrder ('*' :: renderByte v)
  obtain ⟨n, himm, hmem⟩ := hmemory _ rfl (isLiteral_renderByte v)
  cases (classify_renderByte v).symm.trans himm
  exact hmem

theorem classify_renderOperand (o : Operand) : classify (renderOperand o) = .ok o := by
  cases o with
  | reg r => exact classify_renderReg r
  | imm v => exact classify_renderByte v
  | mem b => exact classify_star_renderByte b

theorem classifyLocation_renderLoc (l : Loc) : classifyLocation (renderLoc l) = .ok l := by
  cases l with
  | reg r => rw [renderLoc, classifyLocation, classify_renderReg]
  | mem b => rw [renderLoc, classifyLocation, classify_star_renderByte]

/-- A target below 256 is read back from its low byte (R114). -/
theorem classifyTarget_renderByte (labels : LabelTable) {t : Word16} (ht : t.toNat < 256) :
    classifyTarget labels (renderByte (t.setWidth 8)) = .ok t := by
  obtain ⟨-, -, hliteral, -⟩ := jumpTargetsAreResolved.1 labels (renderByte (t.setWidth 8))
  obtain ⟨n, himm, htarget⟩ := hliteral (isLiteral_renderByte _)
  cases (classify_renderByte _).symm.trans himm
  rw [htarget]
  exact congrArg _ (zext16_setWidth t ht)

/-- The mnemonic that a jump is written with is the spec's word for it. -/
theorem renderCond_eq_jumpWord (c : Cond) : renderCond c = jumpWord c := by cases c <;> rfl

/-- The host's name of a general register is its token (R235). -/
theorem readRegister_renderReg (r : Reg) (s : State) : readRegister (renderReg r) s = .ok (s.reg r) := by cases r <;> rfl

/-! ### Records that operations are written as -/

/-- Every instruction is an operation with resolved operands. -/
theorem exists_eq_ofResolved (i : Instr) : ∃ r, i = Instr.ofResolved r := ⟨i.resolved, i.ofResolved_resolved.symm⟩

theorem renderRecord_ofResolved (r : Resolved) : renderRecord (Instr.ofResolved r) = renderResolved r := by
  rw [renderRecord, Instr.resolved_ofResolved]

/-- The record of an operation decodes to it: no CALL, and a jump's target below 256 (R114, R115). -/
theorem decodeRecord_renderResolved (labels : LabelTable) {r : Resolved} (hcall : ∀ b, r ≠ .call b)
    (htarget : ∀ c t, r = .jump c t → t.toNat < 256) : decodeRecord labels (renderResolved r) = .ok (Instr.ofResolved r) := by
  cases r with
  | ds op dst src =>
    rw [renderResolved, decodeRecord_ds, classifyLocation_renderLoc, classify_renderOperand]
    rfl
  | cmp u w =>
    refine (decodeRecord_cmp labels (renderOperand u) (renderOperand w)).trans ?_
    rw [classify_renderOperand, classify_renderOperand]
    rfl
  | push src =>
    refine (decodeRecord_push labels (renderOperand src) []).trans ?_
    rw [classify_renderOperand]
    rfl
  | pop dst =>
    refine (decodeRecord_pop labels (renderLoc dst) []).trans ?_
    rw [classifyLocation_renderLoc]
    rfl
  | jump c t =>
    rw [renderResolved, renderCond_eq_jumpWord, decodeRecord_jump, classifyTarget_renderByte labels (htarget c t rfl)]
    rfl
  | call b => exact absurd rfl (hcall b)

/-! ### The statements -/

/-- Settles O5: by the shape of the instruction, as each operand's token is classified as that operand. -/
theorem decodeRecordInvertsRender : Obligations.DecodeRecordInvertsRender := by
  intro i labels hw htarget
  obtain ⟨r, rfl⟩ := exists_eq_ofResolved i
  rw [renderRecord_ofResolved]
  refine decodeRecord_renderResolved labels ?_ ?_
  · rintro b rfl
    cases hw
  · rintro c t rfl
    exact htarget t (Instr.target?_jump c t)

/-- Settles O9: the rule of a DS operation, with the function that forgets the old destination. -/
theorem movCopiesValue : Obligations.MovCopiesValue := dsRule_dsFunction .mov

/-- Settles O10: the host reads the register that MOV has written, and the literal is its digits' value modulo 256. -/
theorem movImmediateReadsBack : Obligations.MovImmediateReadsBack := by
  refine fun r v s => ⟨?host, fun labels ds hne hdigits => ?text⟩
  case host =>
    obtain ⟨t, hexec, hvalue, -⟩ := exec_ds_writesOnly .mov (.reg r) (.imm v) s
    rw [valueAt_eq_locValue] at hvalue
    exact ⟨t, hexec, (readRegister_renderReg r t).trans (congrArg _ hvalue)⟩
  case text =>
    obtain ⟨hdecimal, -⟩ := literalsAreTruncated.1 ds hne
    refine (decodeRecord_ds .mov labels (renderReg r) (ds.map Nat.digitChar)).trans ?_
    rw [show classifyLocation (renderReg r) = .ok (.reg r) from classifyLocation_renderLoc (.reg r), hdecimal hdigits]
    rfl

end Sys2Proof.Proofs
end

section
/-! PROOFS. Which step writes which state (R21, R22, R26, R32, R33, R51, R56), what it returns (R234), and the machine invariant:
every step and every host operation keeps it (R24, R33, R35, R37, R53). -/

namespace Sys2Proof.Proofs

open Sys2Proof Sys2Proof.Machine Sys2Proof.Claims

/-! ### The frame of an instruction -/

/-- Settles O35: by the shape of the instruction; a location write touches its register or RAM byte alone. -/
theorem whoWritesWhat : Obligations.WhoWritesWhat := by
  intro i s
  obtain ⟨op, dst, src, rfl⟩ | ⟨u, w, rfl⟩ | ⟨src, rfl⟩ | ⟨dst, rfl⟩ | ⟨c, target, rfl⟩ | ⟨b, rfl⟩ := i.shapes
  · obtain ⟨t, ht, -, hregs, hram, hp, hsp, hstk, hprogram, -⟩ := exec_ds_writesOnly op dst src s
    exact ⟨t, ht, fun _ => hp, fun _ _ => hsp, fun _ => hstk,
      fun r hr _ => hregs r (by rintro rfl; exact hr op src rfl),
      fun addr haddr _ => hram addr fun h => haddr op dst src h rfl, hprogram⟩
  · exact ⟨_, exec_cmp_next u w s, fun h => absurd rfl (h u w), fun _ _ => rfl, fun _ => rfl, fun _ _ _ => rfl,
      fun _ _ _ => rfl, rfl, rfl, rfl⟩
  · obtain ⟨-, he⟩ | ⟨-, he⟩ := exec_push_cases src s
    all_goals
      exact ⟨_, he, fun _ => rfl, fun h => absurd rfl (h src), fun h => absurd rfl (h src), fun _ _ _ => rfl,
        fun _ _ _ => rfl, rfl, rfl, rfl⟩
  · obtain ⟨-, he⟩ | ⟨hpos, -⟩ := exec_pop_cases dst s
    · exact ⟨_, he, fun _ => rfl, fun _ _ => rfl, fun _ => rfl, fun _ _ _ => rfl, fun _ _ _ => rfl, rfl, rfl, rfl⟩
    · obtain ⟨t, ht, -, -, hstk, hregs, hram, hp, hprogram, -⟩ := exec_pop_reads dst hpos
      exact ⟨t, ht, fun _ => hp, fun _ h => absurd rfl (h dst), fun _ => hstk,
        fun r _ hr => hregs r (by rintro rfl; exact hr rfl), fun addr _ haddr => hram addr fun h => haddr dst h rfl, hprogram⟩
  · exact ⟨_, exec_jump_next c target s, fun _ => rfl, fun _ _ => rfl, fun _ => rfl, fun _ _ _ => rfl, fun _ _ _ => rfl,
      rfl, rfl, rfl⟩
  · exact ⟨_, exec_call_next b s, fun _ => rfl, fun _ _ => rfl, fun _ => rfl, fun _ _ _ => rfl, fun _ _ _ => rfl,
      rfl, rfl, rfl⟩

/-- No location is a RAM byte from 256 up (R53). -/
theorem locAddress?_lt {l : Loc} {k : Nat} (h : locAddress? l = some k) : k < 256 := by
  cases l with
  | reg r => cases h
  | mem b =>
    cases h
    rw [ramIndex_eq]
    exact b.isLt

/-- What an instruction never writes: the program, the labels, video memory and RAM from 256 up. -/
theorem exec_frame {i : Instr} {s t : State} (h : exec i s = .next t) :
    SameProgram s t ∧ ∀ k, 256 ≤ k → t.ram.read k = s.ram.read k := by
  obtain ⟨t', ht', -, -, -, -, hram, hprogram⟩ := whoWritesWhat i s
  cases h.symm.trans ht'
  refine ⟨hprogram, fun k hk => hram k (fun _ dst _ hdst => ?_) fun dst hdst => ?_⟩
  all_goals exact absurd (locAddress?_lt hdst) (by omega)

/-- A step raises an error or runs an instruction, with PC moved by the decode phase and nothing else changed before (R119). -/
theorem step_exec_or_error (s : State) :
    ∃ p, (∃ e, step s = raiseError e (s.setPc p)) ∨ ∃ i, step s = exec i (s.setPc p) := by
  obtain ⟨p, hstep, -⟩ := step_pair (s := s) (t := s) rfl rfl rfl
  refine ⟨p, ?_⟩
  rw [hstep]
  cases (decodePhase s).1 with
  | error e => exact .inl ⟨e, rfl⟩
  | ok i => exact .inr ⟨i, rfl⟩

/-- What no step writes: the program, the labels, video memory and RAM from 256 up. -/
theorem step_frame {s t : State} (h : step s = .next t) : SameProgram s t ∧ ∀ k, 256 ≤ k → t.ram.read k = s.ram.read k := by
  obtain ⟨p, ⟨e, he⟩ | ⟨i, hi⟩⟩ := step_exec_or_error s
  · cases h.symm.trans he
    exact ⟨⟨rfl, rfl, rfl⟩, fun _ _ => rfl⟩
  · exact exec_frame (s := s.setPc p) (hi.symm.trans h)

/-! ### The machine invariant -/

/-- CMP leaves one of the three status values that follow a comparison (R24, R171). -/
theorem statusLegal_compareFlags (u w : Byte) : StatusLegal (compareFlags u w) := by
  obtain ⟨-, hp⟩ | ⟨-, hp⟩ | ⟨-, hp⟩ := compareFlags_cases u w <;> rw [hp] <;> decide

theorem wfBelow_write {m : Memory} {bound addr : Nat} (h : m.wfBelow bound) (haddr : addr < bound) (b : Byte) :
    (m.write addr b).wfBelow bound := by
  refine ⟨m.wf_write addr b h.1, fun c hc => ?_⟩
  obtain hc | hc := m.write_lists addr b c hc
  · exact hc ▸ haddr
  · exact h.2 c hc

/-- A location write stores inside the RAM that instructions address (R53). -/
theorem wfBelow_locWrite_ram {s : State} (h : s.ram.wfBelow Config.ramAddressable) (l : Loc) (v : Byte) :
    (locWrite l v s).ram.wfBelow Config.ramAddressable := by
  cases l with
  | reg r => simpa only [locWrite, State.setReg_ram] using h
  | mem b => exact wfBelow_write h (locAddress?_lt (l := .mem b) rfl) v

/-- The part of the invariant that speaks of what instructions write: P, RAM and the stack buffer. -/
structure LegalData (s : State) : Prop where
  status : StatusLegal s.p
  ram : s.ram.wfBelow Config.ramAddressable
  stk : s.stk.wfBelow Config.stackCapacity

/-- Every instruction keeps P, RAM and the stack buffer legal. -/
theorem exec_keeps_legalData {i : Instr} {s t : State} (hs : LegalData s) (h : exec i s = .next t) : LegalData t := by
  obtain ⟨hp, hram, hstk⟩ := hs
  obtain ⟨op, dst, src, rfl⟩ | ⟨u, w, rfl⟩ | ⟨src, rfl⟩ | ⟨dst, rfl⟩ | ⟨c, target, rfl⟩ | ⟨b, rfl⟩ := i.shapes
  · cases h.symm.trans (exec_ds_next op dst src s)
    exact ⟨by rwa [← locWrite_p dst] at hp, wfBelow_locWrite_ram hram dst _, by rwa [← locWrite_stk dst] at hstk⟩
  · cases h.symm.trans (exec_cmp_next u w s)
    exact ⟨statusLegal_compareFlags _ _, hram, hstk⟩
  · obtain ⟨-, he⟩ | ⟨hroom, he⟩ := exec_push_cases src s <;> cases h.symm.trans he
    · exact ⟨hp, hram, hstk⟩
    · exact ⟨hp, hram, wfBelow_write hstk hroom _⟩
  · obtain ⟨-, he⟩ | ⟨-, he⟩ := exec_pop_cases dst s <;> cases h.symm.trans he
    · exact ⟨hp, hram, hstk⟩
    · exact ⟨by rwa [← locWrite_p dst] at hp, wfBelow_locWrite_ram hram dst _, by rwa [← locWrite_stk dst] at hstk⟩
  · cases h.symm.trans (exec_jump_next c target s)
    exact ⟨hp, hram, hstk⟩
  · cases h.symm.trans (exec_call_next b s)
    exact ⟨hp, hram, hstk⟩

/-- Every step keeps P, RAM and the stack buffer legal. -/
theorem step_keeps_legalData {s t : State} (hs : LegalData s) (h : step s = .next t) : LegalData t := by
  obtain ⟨hp, hram, hstk⟩ := hs
  obtain ⟨p, ⟨e, he⟩ | ⟨i, hi⟩⟩ := step_exec_or_error s
  · cases h.symm.trans he
    exact ⟨hp, hram, hstk⟩
  · exact exec_keeps_legalData (s := s.setPc p) ⟨hp, hram, hstk⟩ (hi.symm.trans h)

/-- Settles O31: an error is one of the decode phase, which raises no DuplicateLabel, or a stack error. -/
theorem everyStepReturns : Obligations.EveryStepReturns := by
  intro s
  obtain ⟨p, t, ht, -, hcases⟩ := step_cases s
  refine ⟨t, ht, ?_⟩
  obtain ⟨e, hd, rfl⟩ | ⟨i, -, ⟨-, -, hok⟩ | ⟨-, rfl⟩ | ⟨-, rfl⟩⟩ := hcases
  · obtain ⟨-, -, hduplicate⟩ := decodePhase_error hd
    exact .inr ⟨e, hduplicate, rfl⟩
  · exact .inl hok
  · exact .inr ⟨.stackOverflow, by simp, rfl⟩
  · exact .inr ⟨.stackUnderflow, by simp, rfl⟩

/-- What a step returns agrees with the PC it leaves (R234). -/
theorem step_result_agrees {s t : State} (h : step s = .next t) : t.stepResult.agrees t.pc = true := by
  obtain ⟨t', ht', hresult⟩ := everyStepReturns s
  cases h.symm.trans ht'
  obtain hok | ⟨e, -, he⟩ := hresult
  · simp [hok, StepResult.agrees]
  · simp [he, StepResult.agrees]

/-- Settles O57: a step keeps P, RAM and the stack buffer legal, writes no other part that the invariant speaks of, and returns
what agrees with its PC. -/
theorem stepKeepsInvariant : Obligations.StepKeepsInvariant := by
  intro s t hs h
  obtain ⟨hp, hram, hstk⟩ := step_keeps_legalData ⟨hs.status, hs.ram, hs.stk⟩ h
  obtain ⟨⟨hrom, hlabels, hvideo⟩, -⟩ := step_frame h
  exact ⟨hp, hram, hstk, hvideo.trans hs.video, hrom ▸ hs.rom, by rw [hlabels, hrom]; exact hs.labels, step_result_agrees h⟩

/-- The reset state with a program such as a load installs meets the invariant. -/
theorem inv_reset_with {rom : Rom} {labels : LabelTable} (hrom : rom.Legal) (hlabels : labels.Legal rom) :
    { State.reset with rom := rom, labels := labels }.Inv where
  status := .inl rfl
  ram := ⟨Memory.wf_nil, by simp [State.reset]⟩
  stk := ⟨Memory.wf_nil, by simp [State.reset]⟩
  video := rfl
  rom := hrom
  labels := hlabels
  result := rfl

/-- Settles O56: the empty binary program is one that a load can install. -/
theorem resetMeetsInvariant : Obligations.ResetMeetsInvariant :=
  inv_reset_with (rom := .binary []) (labels := []) ⟨by decide, rfl⟩ ⟨List.nodup_nil, by simp, fun _ => rfl⟩

/-- The pre-pass gives lower-case records (R101). -/
theorem prepass_lowerCase {lines : List Token} {records : List InstrRecord} {table : LabelCounts}
    (h : prepass lines = .ok (records, table)) : (Rom.textual records).lowerCase = true := by
  refine List.all_eq_true.2 fun r hr => ?_
  obtain ⟨line, -, hline⟩ := prepassFrom_records h r hr
  exact (caseIsFoldedOnce line).2 r hline

/-- The pre-pass gives a legal label table: identifiers, each once, none beyond `len` (R35, R103, R104). -/
theorem prepass_labels_legal {lines : List Token} {records : List InstrRecord} {table : LabelCounts}
    (h : prepass lines = .ok (records, table)) :
    (labelTable table).Legal (.textual records) := by
  obtain ⟨hnodup, hident⟩ := prepassFrom_labels h ⟨List.nodup_nil, by simp⟩
  refine ⟨?_, ?_, fun hbinary => by cases hbinary⟩
  · rw [labelTable, List.map_map]
    exact hnodup
  · refine List.forall_mem_map.2 fun l hl => ⟨hident l hl, ?_⟩
    rw [BitVec.toNat_ofNat]
    exact (Nat.mod_le ..).trans (prepass_bound h l hl)

/-- What a load leaves meets the invariant, whatever the image and the state before (R253). -/
theorem loadProgram_inv {image : Image} {s t : State} (h : loadProgram image s = .ok t) : t.Inv := by
  cases image with
  | binary bytes =>
    rw [loadProgram_binary_eq] at h
    split at h <;> cases h
    rename_i hlen
    exact inv_reset_with (rom := .binary bytes) (labels := []) ⟨not_lt.1 hlen, rfl⟩ ⟨List.nodup_nil, by simp, fun _ => rfl⟩
  | textual lines =>
    cases hprepass : prepass lines with
    | error e => simp [loadProgram, hprepass] at h
    | ok result =>
      rw [loadProgram_textual_eq hprepass] at h
      split at h <;> cases h
      rename_i hlen
      exact inv_reset_with ⟨not_lt.1 hlen, prepass_lowerCase hprepass⟩ (prepass_labels_legal hprepass)

/-- Each host operation keeps the invariant. -/
theorem transact_keeps_inv (op : HostOp) {s : State} (hs : s.Inv) : (transact op s).1.Inv := by
  cases op with
  | loadProgram image =>
    cases hload : loadProgram image s with
    | ok t => rw [transact_load_of_ok hload]; exact loadProgram_inv hload
    | error e => rw [transact_load_of_error hload]; exact hs
  | step =>
    obtain ⟨t, ht, -⟩ := everyStepReturns s
    simp only [transact, ht]
    exact stepKeepsInvariant s t hs ht
  | register name => rwa [transact_register_state]
  | reset => exact inv_reset_with hs.rom hs.labels

/-- Settles O58: by induction on the operations. -/
theorem transactionsKeepInvariant : Obligations.TransactionsKeepInvariant := by
  intro ops
  induction ops with
  | nil => exact fun s hs => hs
  | cons op ops ih => exact fun s hs => ih _ (transact_keeps_inv op hs)

end Sys2Proof.Proofs
end

section
/-! PROOFS. What no step can observe: instructions on two states that agree on what they read (R34, R53, R56, log entry 13), and
what follows for a textual step that failed (R223). -/

namespace Sys2Proof.Proofs

open Sys2Proof Sys2Proof.Machine Sys2Proof.Claims

/-! ### The data that instructions work on -/

/-- The part of a state that instructions compute on: registers, P, S, the stack buffer, RAM and video memory. -/
def dataOf (s : State) : State := { s with pc := 0, rom := .binary [], labels := [], stepResult := .none }

theorem dataOf_locWrite (l : Loc) (v : Byte) (s : State) : dataOf (locWrite l v s) = locWrite l v (dataOf s) := by
  cases l with
  | reg r => cases r <;> rfl
  | mem b => rfl

/-- A location write and the stack buffer do not meet. -/
theorem locWrite_stk_comm (l : Loc) (v : Byte) (s : State) (m : Memory) :
    locWrite l v { s with stk := m } = { locWrite l v s with stk := m } := by
  cases l with
  | reg r => cases r <;> rfl
  | mem b => rfl

/-- A state is its data, its PC, its program and what the last step returned. -/
theorem state_eq_of_data {s t : State} (hdata : dataOf s = dataOf t) (hpc : s.pc = t.pc) (hrom : s.rom = t.rom)
    (hlabels : s.labels = t.labels) (hresult : s.stepResult = t.stepResult) : s = t := by
  cases s
  cases t
  simp only [dataOf, State.mk.injEq] at hdata ⊢
  simp_all

/-- What a relation on data needs for instructions to keep it: related states differ in their byte stores alone and read alike in
low RAM and on the live stack, and one and the same write to both leaves them related. -/
structure DataCongruence (R : State → State → Prop) : Prop where
  registers : ∀ {s t}, R s t → { s with ram := [], stk := [], video := [] } = { t with ram := [], stk := [], video := [] }
  ram : ∀ {s t}, R s t → ∀ k < 256, s.ram.read k = t.ram.read k
  stk : ∀ {s t}, R s t → ∀ k < s.sp.toNat, s.stk.read k = t.stk.read k
  locWrite : ∀ {s t}, R s t → ∀ l v, R (locWrite l v s) (locWrite l v t)
  setP : ∀ {s t}, R s t → ∀ v, R (s.setP v) (t.setP v)
  push : ∀ {s t}, R s t → ∀ v, R { s with stk := s.stk.write s.sp.toNat v, sp := s.sp + 1 }
    { t with stk := t.stk.write t.sp.toNat v, sp := t.sp + 1 }
  pop : ∀ {s t}, R s t → 0 < s.sp.toNat → R { s with sp := s.sp - 1 } { t with sp := t.sp - 1 }

theorem advance_pc_congr {s t : State} (hrom : s.rom = t.rom) (hpc : s.pc = t.pc) : (advance s).pc = (advance t).pc := by
  rw [← pcAdvanced_eq_advance_pc, ← pcAdvanced_eq_advance_pc, pcAdvanced, pcAdvanced, hrom, hpc]

/-- How one instruction can end on two states: both complete, with PC advanced on both or at one jump target, or both raise one
error where they stand. -/
def SameEnding (i : Instr) (s t s' t' : State) : Prop :=
  (ReturnedOk s' ∧ ReturnedOk t' ∧
      ((s'.pc = (advance s).pc ∧ t'.pc = (advance t).pc) ∨ (s'.pc = t'.pc ∧ ∃ c, i = .jump c s'.pc))) ∨
    ∃ e, s'.stepResult = .err e ∧ t'.stepResult = .err e ∧ s'.pc = s.pc ∧ t'.pc = t.pc

section

variable {R : State → State → Prop} (hR : DataCongruence R)
include hR

/-- An instruction keeps a congruence of data, and ends alike on both states. -/
theorem exec_congr (i : Instr) {s t : State} (h : R (dataOf s) (dataOf t)) :
    ∃ s' t', exec i s = .next s' ∧ exec i t = .next t' ∧ R (dataOf s') (dataOf t') ∧ SameEnding i s t s' t' := by
  have hregisters := hR.registers h
  have hreg : ∀ r, s.reg r = t.reg r := fun r => (congrArg (State.reg · r) hregisters :)
  have hsp : s.sp = t.sp := (congrArg State.sp hregisters :)
  have hp : s.p = t.p := (congrArg State.p hregisters :)
  have hram := hR.ram h
  have hvalue (o : Operand) : operandValue o s = operandValue o t := operandValue_congr o hreg hram
  have hold (l : Loc) : locValue l s = locValue l t := locValue_congr l hreg hram
  obtain ⟨op, dst, src, rfl⟩ | ⟨u, w, rfl⟩ | ⟨src, rfl⟩ | ⟨dst, rfl⟩ | ⟨c, target, rfl⟩ | ⟨b, rfl⟩ := i.shapes
  · refine ⟨_, _, exec_ds_next op dst src s, exec_ds_next op dst src t, ?_, .inl ⟨rfl, rfl, .inl ⟨rfl, rfl⟩⟩⟩
    have hwritten := hR.locWrite h dst (dsFunction op (locValue dst s) (operandValue src s))
    rw [← dataOf_locWrite, ← dataOf_locWrite] at hwritten
    rw [← hold, ← hvalue]
    exact hwritten
  · refine ⟨_, _, exec_cmp_next u w s, exec_cmp_next u w t, ?_, .inl ⟨rfl, rfl, .inl ⟨rfl, rfl⟩⟩⟩
    rw [← hvalue, ← hvalue]
    exact hR.setP h _
  · obtain ⟨hs, hes⟩ | ⟨hs, hes⟩ := exec_push_cases src s <;> obtain ⟨ht, het⟩ | ⟨ht, het⟩ := exec_push_cases src t
    case inl.inl => exact ⟨_, _, hes, het, h, .inr ⟨_, rfl, rfl, rfl, rfl⟩⟩
    case inr.inr =>
      refine ⟨_, _, hes, het, ?_, .inl ⟨rfl, rfl, .inl ⟨rfl, rfl⟩⟩⟩
      rw [← hvalue]
      exact hR.push h _
    all_goals
      rw [hsp] at hs
      omega
  · obtain ⟨hs, hes⟩ | ⟨hs, hes⟩ := exec_pop_cases dst s <;> obtain ⟨ht, het⟩ | ⟨ht, het⟩ := exec_pop_cases dst t
    case inl.inl => exact ⟨_, _, hes, het, h, .inr ⟨_, rfl, rfl, rfl, rfl⟩⟩
    case inr.inr =>
      refine ⟨_, _, hes, het, ?_, .inl ⟨rfl, rfl, .inl ⟨rfl, rfl⟩⟩⟩
      have hpopped : s.stk.read (s.sp.toNat - 1) = t.stk.read (t.sp.toNat - 1) := by
        rw [← hsp]
        exact hR.stk h _ (Nat.sub_lt hs Nat.one_pos)
      have hwritten := hR.locWrite h dst (s.stk.read (s.sp.toNat - 1))
      rw [← dataOf_locWrite, ← dataOf_locWrite] at hwritten
      have hlowered := hR.pop hwritten (by rw [dataOf, locWrite_sp]; exact hs)
      rw [← hpopped]
      simpa only [dataOf, locWrite_sp] using hlowered
    all_goals
      rw [hsp] at hs
      omega
  · refine ⟨_, _, exec_jump_next c target s, exec_jump_next c target t, h, .inl ⟨rfl, rfl, ?_⟩⟩
    rw [← hp]
    by_cases htaken : condHolds c s.p = true
    · exact .inr ⟨by simp only [if_pos htaken], c, by simp only [if_pos htaken]⟩
    · exact .inl ⟨if_neg htaken, if_neg htaken⟩
  · exact ⟨_, _, exec_call_next b s, exec_call_next b t, h, .inl ⟨rfl, rfl, .inl ⟨rfl, rfl⟩⟩⟩

/-- A step keeps a congruence of data between states at one point of one program, and takes both to one point of it with one
returned result. -/
theorem step_congr {s t : State} (hrom : s.rom = t.rom) (hlabels : s.labels = t.labels) (hpc : s.pc = t.pc)
    (h : R (dataOf s) (dataOf t)) :
    ∃ s' t', step s = .next s' ∧ step t = .next t' ∧ R (dataOf s') (dataOf t') ∧ s'.rom = t'.rom ∧ s'.labels = t'.labels ∧
      s'.pc = t'.pc ∧ s'.stepResult = t'.stepResult := by
  obtain ⟨p, hs, ht⟩ := step_pair hrom hpc hlabels
  cases hd : (decodePhase s).1 with
  | error e =>
    rw [hd] at hs ht
    exact ⟨_, _, hs, ht, h, hrom, hlabels, rfl, rfl⟩
  | ok i =>
    rw [hd] at hs ht
    obtain ⟨s', t', hs', ht', hdata, hend⟩ := exec_congr hR i (s := s.setPc p) (t := t.setPc p) h
    obtain ⟨⟨hsrom, hslabels, -⟩, -⟩ := exec_frame hs'
    obtain ⟨⟨htrom, htlabels, -⟩, -⟩ := exec_frame ht'
    refine ⟨s', t', hs.trans hs', ht.trans ht', hdata, hsrom.trans (hrom.trans htrom.symm),
      hslabels.trans (hlabels.trans htlabels.symm), ?_⟩
    have hadvance : (advance (s.setPc p)).pc = (advance (t.setPc p)).pc := advance_pc_congr hrom rfl
    obtain ⟨hsok, htok, ⟨hspc, htpc⟩ | ⟨hsame, -⟩⟩ | ⟨e, hserr, hterr, hspc, htpc⟩ := hend
    · have hsame : s'.pc = t'.pc := by rw [hspc, htpc, hadvance]
      exact ⟨hsame, by rw [hsok, htok, hsame]⟩
    · exact ⟨hsame, by rw [hsok, htok, hsame]⟩
    · exact ⟨hspc.trans htpc.symm, hserr.trans hterr.symm⟩

end

/-! ### The congruences -/

theorem dataCongruence_eq : DataCongruence (· = ·) where
  registers := fun h => by rw [h]
  ram := fun h _ _ => by rw [h]
  stk := fun h _ _ => by rw [h]
  locWrite := fun h _ _ => by rw [h]
  setP := fun h _ => by rw [h]
  push := fun h _ => by rw [h]
  pop := fun h _ => by rw [h]

/-- States that agree on the live stack bytes agree so again after one write, push or pop on both (R34). -/
theorem dataCongruence_agreeOnLive : DataCongruence AgreeOnLive where
  registers := fun ⟨h, _⟩ => (congrArg (fun s : State => { s with ram := [], video := [] }) h :)
  ram := fun ⟨h, _⟩ k _ => (congrArg (fun s : State => s.ram.read k) h :)
  stk := fun ⟨_, hlive⟩ => hlive
  locWrite := fun ⟨h, hlive⟩ l v => by
    refine ⟨?_, by simpa only [locWrite_sp, locWrite_stk] using hlive⟩
    rw [← locWrite_stk_comm, ← locWrite_stk_comm, h]
  setP := fun ⟨h, hlive⟩ v => ⟨(congrArg (State.setP · v) h :), hlive⟩
  push := fun {s t} ⟨h, hlive⟩ v => by
    have hsp : s.sp = t.sp := (congrArg State.sp h :)
    refine ⟨(congrArg (fun s : State => { s with sp := s.sp + 1 }) h :), fun k hk => ?_⟩
    simp only [Memory.read_write, ← hsp] at hk ⊢
    split
    · rfl
    · exact hlive k (by bv_omega)
  pop := fun ⟨h, hlive⟩ hpos =>
    ⟨(congrArg (fun s : State => { s with sp := s.sp - 1 }) h :), fun k hk => hlive k (by simp only at hk; bv_omega)⟩

/-- States that agree on the low 256 RAM bytes agree so again after one write, push or pop on both (R53). -/
theorem dataCongruence_agreeOnLowRam : DataCongruence AgreeOnLowRam where
  registers := fun ⟨h, _⟩ => (congrArg (fun s : State => { s with stk := [], video := [] }) h :)
  ram := fun ⟨_, hlow⟩ => hlow
  stk := fun ⟨h, _⟩ k _ => (congrArg (fun s : State => s.stk.read k) h :)
  locWrite := fun ⟨h, hlow⟩ l v => by
    cases l with
    | reg r =>
      refine ⟨?_, by simpa only [locWrite, State.setReg_ram] using hlow⟩
      have hwritten := congrArg (State.setReg · r v) h
      cases r <;> exact hwritten
    | mem b =>
      refine ⟨h, fun k hk => ?_⟩
      simp only [locWrite, memWrite_ram, Memory.read_write, hlow k hk]
  setP := fun ⟨h, hlow⟩ v => ⟨(congrArg (State.setP · v) h :), hlow⟩
  push := fun ⟨h, hlow⟩ v =>
    ⟨(congrArg (fun s : State => { s with stk := s.stk.write s.sp.toNat v, sp := s.sp + 1 }) h :), hlow⟩
  pop := fun ⟨h, hlow⟩ _ => ⟨(congrArg (fun s : State => { s with sp := s.sp - 1 }) h :), hlow⟩

/-- The two states are equal but for video memory (R56). -/
abbrev AgreeButVideo (s t : State) : Prop := { s with video := [] } = { t with video := [] }

theorem dataCongruence_agreeButVideo : DataCongruence AgreeButVideo where
  registers := fun h => (congrArg (fun s : State => { s with ram := [], stk := [] }) h :)
  ram := fun h k _ => (congrArg (fun s : State => s.ram.read k) h :)
  stk := fun h k _ => (congrArg (fun s : State => s.stk.read k) h :)
  locWrite := fun h l v => by
    have hwritten := congrArg (locWrite l v) h
    cases l with
    | reg r => cases r <;> exact hwritten
    | mem b => exact hwritten
  setP := fun h v => (congrArg (State.setP · v) h :)
  push := fun h v => (congrArg (fun s : State => { s with stk := s.stk.write s.sp.toNat v, sp := s.sp + 1 }) h :)
  pop := fun h _ => (congrArg (fun s : State => { s with sp := s.sp - 1 }) h :)

/-! ### The statements -/

/-- Settles O37: agreement on the live stack bytes is a congruence, and a step from one point leaves one point. -/
theorem deadStackBytesUnobservable : Obligations.DeadStackBytesUnobservable := by
  rintro s t ⟨h, hlive⟩
  obtain ⟨s', t', hs, ht, ⟨hdata, hlive'⟩, hrom, hlabels, hpc, hresult⟩ :=
    step_congr dataCongruence_agreeOnLive (s := s) (t := t) (congrArg State.rom h :) (congrArg State.labels h :)
      (congrArg State.pc h :) ⟨congrArg dataOf h, hlive⟩
  exact ⟨s', t', hs, ht, state_eq_of_data hdata hpc hrom hlabels hresult, hlive'⟩

/-- Settles O38: agreement on the low RAM bytes is a congruence, and no step writes a RAM byte from 256 up. -/
theorem highRamUnobservable : Obligations.HighRamUnobservable := by
  rintro s t ⟨h, hlow⟩
  obtain ⟨s', t', hs, ht, ⟨hdata, hlow'⟩, hrom, hlabels, hpc, hresult⟩ :=
    step_congr dataCongruence_agreeOnLowRam (s := s) (t := t) (congrArg State.rom h :) (congrArg State.labels h :)
      (congrArg State.pc h :) ⟨congrArg dataOf h, hlow⟩
  obtain ⟨-, hhigh⟩ := step_frame hs
  exact ⟨s', t', hs, ht, ⟨state_eq_of_data hdata hpc hrom hlabels hresult, hlow'⟩, hhigh⟩

/-- Settles O39: agreement but for video memory is a congruence, and each of the two steps keeps its own video memory. -/
theorem videoUnobservable : Obligations.VideoUnobservable := by
  intro s v
  obtain ⟨t, t', hs, ht, hdata, hrom, hlabels, hpc, hresult⟩ :=
    step_congr dataCongruence_agreeButVideo (s := s) (t := { s with video := v }) rfl rfl rfl rfl
  obtain ⟨⟨-, -, hvideo⟩, -⟩ := step_frame hs
  obtain ⟨⟨-, -, hvideo'⟩, -⟩ := step_frame ht
  have hsame : { t with video := [] } = { t' with video := [] } := state_eq_of_data hdata hpc hrom hlabels hresult
  change t'.video = v at hvideo'
  refine ⟨t, hs, hvideo, ht.trans (congrArg _ ?_)⟩
  calc t' = { t' with video := v } := by rw [← hvideo']
    _ = { t with video := v } := congrArg (fun u : State => { u with video := v }) hsame.symm

/-- Settles O36: equality is a congruence, and what the last step returned is no part of the data. -/
theorem stepResultIsNeverRead : Obligations.StepResultIsNeverRead := by
  intro s r
  obtain ⟨s', t', hs, ht, hdata, hrom, hlabels, hpc, hresult⟩ :=
    step_congr dataCongruence_eq (s := { s with stepResult := r }) (t := s) rfl rfl rfl rfl
  rw [hs, ht, state_eq_of_data hdata hpc hrom hlabels hresult]

/-- Settles O32: a failed textual step leaves the state as it was but for the returned result, which no step reads. -/
theorem textualErrorRecurs : Obligations.TextualErrorRecurs := by
  intro s t e htextual ht he
  obtain ⟨p, hstate, rfl⟩ := step_error_state ht he
  obtain ⟨hpc, -⟩ := decodePhase_pc hstate
  obtain rfl := hpc htextual
  rwa [← stepResultIsNeverRead s (.err e)] at ht

end Sys2Proof.Proofs
end

section
/-! PROOFS. Steps by what decodes at PC (R99, R119, R198, R257), pushes and pops in sequence (R182), the file-driven run (R257,
log entry 12), and loads: those that fail (R254) and the values of labels (R102, R103). -/

namespace Sys2Proof.Proofs

open Sys2Proof Sys2Proof.Machine Sys2Proof.Claims

/-! ### Steps by what decodes at PC -/

/-- Settles O25: the decode phase is decode on the bytes from PC on. -/
theorem stepRunsDecodedBytes : Obligations.StepRunsDecodedBytes := fun _ _ _ _ hrom hlen h => step_of_decode hrom hlen h

/-- Settles O26: the decode phase is the record's decoding. -/
theorem stepRunsDecodedRecord : Obligations.StepRunsDecodedRecord := by
  intro s records r i hrom hr hi
  exact step_of_decodeTextual_ok hrom (by simp only [decodeTextual, hr, hi])

/-- Settles O33: in either front end there is nothing to fetch. -/
theorem stepAtEndChangesNothing : Obligations.StepAtEndChangesNothing := by
  intro s hend
  rw [State.len] at hend
  cases hrom : s.rom with
  | binary bytes =>
    rw [hrom] at hend
    rw [← hrom]
    exact step_of_binary_end hrom hend
  | textual records =>
    rw [hrom] at hend
    rw [← hrom]
    exact (textualDecodeErrorWritesNothing s records hrom).1 hend

/-- A step on bytes that do not decode leaves PC past the bytes that were fetched and writes nothing else (R99). -/
theorem step_of_decode_error {s : State} {bytes : List Byte} (hrom : s.rom = .binary bytes) (hlen : bytes.length ≤ 65535)
    {e : Error} {n : Nat} (h : decode (bytes.drop s.pc.toNat) = .error e n) :
    step s = .next { s with pc := s.pc + BitVec.ofNat 16 n, stepResult := .err e } := by
  rw [step_eq, decodePhase_binary hrom hlen, h]
  exact raiseError_eq e _

/-- A PC moved by the number of bytes that are left stands at `len`. -/
theorem pc_add_rest {pc : Word16} {len : Nat} (h : pc.toNat ≤ len) :
    pc + BitVec.ofNat 16 (len - pc.toNat) = BitVec.ofNat 16 len := by
  apply BitVec.eq_of_toNat_eq
  rw [BitVec.toNat_add, BitVec.toNat_ofNat, BitVec.toNat_ofNat, Nat.add_mod_mod, Nat.add_sub_cancel' h]

/-- Settles O27: each decode error counts the bytes that were fetched before it. -/
theorem binaryDecodeErrorLeavesPc : Obligations.BinaryDecodeErrorLeavesPc := by
  refine fun s bytes hrom hlen => ⟨step_of_binary_end hrom, fun op hop => ?_⟩
  obtain ⟨hinside, -⟩ := List.getElem?_eq_some_iff.1 hop
  have hdrop := drop_of_getElem? hop
  have hrest : (bytes.drop (s.pc.toNat + 1)).length = bytes.length - (s.pc.toNat + 1) := List.length_drop
  refine ⟨fun hnone => ?unassigned, fun o ho => ⟨fun hshort => ?short, fun b1 b2 hfits hb1 hb2 e he => ?operand⟩⟩
  case unassigned => exact step_of_decode_error hrom hlen (by rw [hdrop, decode_of_unassigned hnone])
  case short =>
    have hdecode := decode_of_short ho (operands := bytes.drop (s.pc.toNat + 1)) (by omega)
    rw [← hdrop, hrest, show bytes.length - (s.pc.toNat + 1) + 1 = bytes.length - s.pc.toNat by omega] at hdecode
    rw [step_of_decode_error hrom hlen hdecode, pc_add_rest hinside.le]
  case operand =>
    obtain rfl := resolveOperands_error he
    refine ⟨rfl, step_of_decode_error hrom hlen ?_⟩
    have hoperands : resolveOperands o ((bytes.drop (s.pc.toNat + 1)).getD 0 0) ((bytes.drop (s.pc.toNat + 1)).getD 1 0) =
        .error .invalidOperand := by
      rw [List.getD_eq_getElem?_getD, List.getD_eq_getElem?_getD, List.getElem?_drop, List.getElem?_drop, Nat.add_zero, hb1]
      obtain hs | hs := o.size_cases
      · rw [← he]
        exact resolveOperands_size_two hs ..
      · rw [hb2 hs]
        exact he
    rw [hdrop, decode_of_opcode ho _ (by omega), hoperands]

/-- Where a jump leaves PC (R198). -/
theorem exec_jump_target (c : Cond) (t : Word16) (s : State) :
    ∃ q, (Taken c s.p → q = t) ∧ (¬Taken c s.p → q = pcAdvanced s) ∧
      exec (.jump c t) s = .next { s with pc := q, stepResult := .ok q } := by
  by_cases htaken : Taken c s.p
  · exact ⟨t, fun _ => rfl, absurd htaken, exec_jump_taken htaken t⟩
  · exact ⟨pcAdvanced s, fun h => absurd h htaken, fun _ => rfl, exec_jump_not_taken htaken t⟩

/-- The step that decodes a jump is the jump on a state that differs in PC alone, from which `advance()` reaches the next
instruction. -/
theorem step_of_jump {c : Cond} {s : State} {t next : Word16}
    (h : (∃ bytes b, s.rom = .binary bytes ∧ bytes.length ≤ 65535 ∧ bytes[s.pc.toNat]? = some (jumpByte c) ∧
        bytes[s.pc.toNat + 1]? = some b ∧ t = b.setWidth 16 ∧ next = s.pc + 2) ∨
      ∃ records p1, s.rom = .textual records ∧ records[s.pc.toNat]? = some ⟨jumpWord c, p1, []⟩ ∧
        classifyTarget s.labels p1 = .ok t ∧ next = s.pc + 1) :
    ∃ p, step s = exec (.jump c t) (s.setPc p) ∧ pcAdvanced (s.setPc p) = next := by
  obtain ⟨bytes, b, hrom, hlen, hop, hb, rfl, rfl⟩ | ⟨records, p1, hrom, hr, ht, rfl⟩ := h
  · refine ⟨s.pc + 2, step_of_decode hrom hlen ?_, by simp only [pcAdvanced, State.setPc_rom, hrom, State.setPc_pc]⟩
    rw [drop_of_getElem? hop, drop_of_getElem? hb, decode_jump]
  · refine ⟨s.pc, step_of_decodeTextual_ok hrom ?_, by simp only [pcAdvanced, State.setPc_rom, hrom, State.setPc_pc]⟩
    simp only [decodeTextual, hr]
    rw [decodeRecord_jump, ht]
    rfl

/-- Settles O23: the jump that is decoded moves PC alone, and beyond the end there is nothing to fetch. -/
theorem jumpStepMovesPc : Obligations.JumpStepMovesPc := by
  intro c s t next h
  obtain ⟨p, hstep, hnext⟩ := step_of_jump h
  obtain ⟨q, htaken, hnot, hexec⟩ := exec_jump_target c t (s.setPc p)
  exact ⟨q, htaken, fun hn => (hnot hn).trans hnext, hstep.trans hexec,
    fun hend => ⟨decide_eq_true hend, stepAtEndChangesNothing _ hend⟩⟩

/-! ### Pushes and pops in sequence -/

theorem execAll_cons_of_next {i : Instr} {s t : State} (ht : exec i s = .next t) (hok : ReturnedOk t) (is : List Instr) :
    execAll (i :: is) s = execAll is t := by
  simp only [execAll, ht]
  exact if_pos hok

/-- Pushes that fit fill the slots from S up in order, and leave the slots below as they were (R61). -/
theorem execAll_pushes (vs : List Byte) {s : State} (hfits : s.sp.toNat + vs.length ≤ 255) :
    ∃ t, execAll (vs.map .pushI) s = some t ∧ t.sp.toNat = s.sp.toNat + vs.length ∧
      (∀ k < s.sp.toNat, t.stk.read k = s.stk.read k) ∧
      ∀ j v, vs[j]? = some v → t.stk.read (s.sp.toNat + j) = v := by
  induction vs generalizing s with
  | nil => exact ⟨s, rfl, rfl, fun _ _ => rfl, by simp⟩
  | cons v vs ih =>
    rw [List.length_cons] at hfits
    obtain ⟨u, hu, htop, hsp, hbelow, -, -, -, -, -, hok⟩ := exec_push_stores (.imm v) (s := s) (by omega)
    obtain ⟨t, ht, htsp, htbelow, htpushed⟩ := ih (s := u) (by omega)
    refine ⟨t, (execAll_cons_of_next hu hok _).trans ht, by rw [htsp, hsp, List.length_cons]; omega, fun k hk => ?below,
      fun j w hj => ?pushed⟩
    case below => rw [htbelow k (by omega), hbelow k (by omega)]
    case pushed =>
      cases j with
      | zero =>
        cases hj
        exact (htbelow _ (by omega)).trans htop
      | succ j =>
        rw [← htpushed j w hj, hsp]
        congr 1
        omega

/-- Pops from a stack that holds enough bytes: the last one gives the byte it has come down to (R62). -/
theorem execAll_pops (k : Nat) {s : State} (hdepth : k + 1 ≤ s.sp.toNat) :
    ∃ u, execAll (List.replicate (k + 1) (.popR .a)) s = some u ∧ u.a = s.stk.read (s.sp.toNat - (k + 1)) ∧
      u.sp.toNat = s.sp.toNat - (k + 1) := by
  induction k generalizing s with
  | zero =>
    obtain ⟨t, ht, hvalue, hsp, -, -, -, -, -, -, hok⟩ := exec_pop_reads (.reg .a) (s := s) (by omega)
    exact ⟨t, execAll_cons_of_next ht hok [], hvalue, hsp⟩
  | succ k ih =>
    obtain ⟨t, ht, -, hsp, hstk, -, -, -, -, -, hok⟩ := exec_pop_reads (.reg .a) (s := s) (by omega)
    obtain ⟨u, hu, hvalue, husp⟩ := ih (s := t) (by omega)
    have hdown : t.sp.toNat - (k + 1) = s.sp.toNat - (k + 1 + 1) := by omega
    rw [hdown] at hvalue husp
    exact ⟨u, (execAll_cons_of_next ht hok _).trans hu, by rw [hvalue, hstk], husp⟩

/-- Settles O19: the pushed values lie in order from S up, and pops come down through them. -/
theorem stackReversesPushes : Obligations.StackReversesPushes := by
  intro vs s hfits
  obtain ⟨t, ht, hsp, -, hpushed⟩ := execAll_pushes vs hfits
  refine ⟨t, ht, hsp, fun k v hk => ?pops, fun hfull v => ?overflow, fun hempty r => ?underflow⟩
  case pops =>
    obtain ⟨hlt, -⟩ := List.getElem?_eq_some_iff.1 hk
    rw [List.length_reverse] at hlt
    rw [List.getElem?_reverse hlt] at hk
    obtain ⟨u, hu, hvalue, husp⟩ := execAll_pops k (s := t) (by omega)
    have hslot : t.sp.toNat - (k + 1) = s.sp.toNat + (vs.length - 1 - k) := by omega
    exact ⟨u, hu, by rw [hvalue, hslot, hpushed _ v hk], husp⟩
  case overflow =>
    obtain ⟨-, he⟩ | ⟨hroom, -⟩ := exec_push_cases (.imm v) t
    · exact he
    · omega
  case underflow =>
    obtain ⟨-, he⟩ | ⟨hpos, -⟩ := exec_pop_cases (.reg r) t
    · exact he
    · omega

/-! ### The file-driven run -/

/-- What a run can do with a step to spare: end at PC >= len, stop at an error, or make an Ok step and go on. -/
theorem batchRun_succ_cases (fuel : Nat) (s : State) :
    (s.ended = true ∧ batchRun (fuel + 1) s = .normal s) ∨
      s.ended = false ∧ ∃ u, step s = .next u ∧
        ((∃ e, u.stepResult = .err e ∧ batchRun (fuel + 1) s = .failed e u) ∨
          u.stepResult = .ok u.pc ∧ batchRun (fuel + 1) s = batchRun fuel u) := by
  cases hended : s.ended with
  | true => exact .inl ⟨rfl, by simp [batchRun, hended]⟩
  | false =>
    obtain ⟨u, hu, hok | ⟨e, -, he⟩⟩ := everyStepReturns s
    · exact .inr ⟨rfl, u, hu, .inr ⟨hok, by simp [batchRun, hended, hu, hok]⟩⟩
    · exact .inr ⟨rfl, u, hu, .inl ⟨e, he, by simp [batchRun, hended, hu, he]⟩⟩

/-- Settles O55: by induction on the steps that are allowed. -/
theorem batchRunEndsAtEndOrError : Obligations.BatchRunEndsAtEndOrError := by
  intro fuel
  induction fuel with
  | zero =>
    intro s t
    cases hended : s.ended with
    | true =>
      rw [batchRun, if_pos hended]
      refine ⟨fun h => ?_, nofun⟩
      cases h
      exact ⟨hended, 0, le_rfl, rfl⟩
    | false =>
      rw [batchRun, hended]
      exact ⟨nofun, nofun⟩
  | succ fuel ih =>
    intro s t
    obtain ⟨hended, hrun⟩ | ⟨hinside, u, hu, ⟨e, he, hrun⟩ | ⟨hok, hrun⟩⟩ := batchRun_succ_cases fuel s <;> rw [hrun]
    · refine ⟨fun h => ?_, nofun⟩
      cases h
      exact ⟨hended, 0, Nat.zero_le _, rfl⟩
    · refine ⟨nofun, fun e' h => ?_⟩
      cases h
      exact ⟨he, 0, s, Nat.zero_lt_succ _, rfl, hinside, hu⟩
    · obtain ⟨hnormal, hfailed⟩ := ih u t
      refine ⟨fun h => ?_, fun e h => ?_⟩
      · obtain ⟨hend, n, hn, hsteps⟩ := hnormal h
        exact ⟨hend, n + 1, Nat.succ_le_succ hn, u, hu, hok, hsteps⟩
      · obtain ⟨he, n, w, hn, hsteps, hlast⟩ := hfailed e h
        exact ⟨he, n + 1, w, Nat.succ_lt_succ hn, ⟨u, hu, hok, hsteps⟩, hlast⟩

/-! ### Loading -/

/-- Settles O50: a load that is refused leaves the state, and a pre-pass that fails is a load refused. -/
theorem failedLoadChangesNothing : Obligations.FailedLoadChangesNothing := by
  refine fun s => ⟨fun image e h => ?_, fun lines e h => ⟨prepassFrom_error _ _ _ _ h, transact_load_of_prepass_error h s⟩⟩
  cases hload : loadProgram image s with
  | ok t =>
    rw [transact_load_of_ok hload] at h
    cases h
  | error e' => rw [transact_load_of_error hload]

/-- The pre-pass from a label line on: the name is new, and is kept with the number of records before it (R103). -/
theorem prepassFrom_label {line name : Token} (hline : parseLine line = .ok (.label name)) {lines : List Token} {n : Nat}
    {table table' : LabelCounts} {records : List InstrRecord}
    (h : prepassFrom (line :: lines) n table = .ok (records, table')) : (name, n) ∈ table' := by
  simp only [prepassFrom, hline] at h
  split at h
  · cases h
  · exact (prepassFrom_table h).subset (by simp)

/-- Settles O51: the pre-pass of a text is that of the lines before the label line, then that of the rest with its count. -/
theorem labelNamesNextRecord : Obligations.LabelNamesNextRecord := by
  intro before line after name records table hline h
  obtain ⟨first, rest, table', hbefore, hrest, rfl⟩ := prepassFrom_append h
  rw [Nat.zero_add] at hrest
  exact ⟨first, table', hbefore, prepassFrom_label hline hrest, List.prefix_append first rest⟩

end Sys2Proof.Proofs
end

section
/-! PROOFS. No instruction treats A, X or Y differently (R20). -/

namespace Sys2Proof.Proofs

open Sys2Proof Sys2Proof.Machine Sys2Proof.Claims

/-! ### Renaming registers -/

/-- A location with its register renamed. -/
def renameLoc (f : Reg → Reg) : Loc → Loc
  | .reg r => .reg (f r)
  | .mem b => .mem b

/-- A value operand with its register renamed. -/
def renameOperand (f : Reg → Reg) : Operand → Operand
  | .reg r => .reg (f r)
  | .imm v => .imm v
  | .mem b => .mem b

/-- An operation with its operands' registers renamed. -/
def renameResolved (f : Reg → Reg) : Resolved → Resolved
  | .ds op dst src => .ds op (renameLoc f dst) (renameOperand f src)
  | .cmp u w => .cmp (renameOperand f u) (renameOperand f w)
  | .push src => .push (renameOperand f src)
  | .pop dst => .pop (renameLoc f dst)
  | .jump c t => .jump c t
  | .call b => .call b

/-- Renaming an instruction is renaming its operands. -/
theorem renameInstr_ofResolved (f : Reg → Reg) (r : Resolved) :
    renameInstr f (Instr.ofResolved r) = Instr.ofResolved (renameResolved f r) := by
  rw [renameInstr, Instr.resolved_ofResolved]
  cases r <;> rfl

theorem reg_permuteState (g : Reg → Reg) (s : State) (r : Reg) : (permuteState g s).reg r = s.reg (g r) := by cases r <;> rfl

/-- A state is its registers and the rest. -/
theorem state_eq_of_reg {s t : State} (hreg : ∀ r, s.reg r = t.reg r)
    (hrest : { s with a := 0, x := 0, y := 0 } = { t with a := 0, x := 0, y := 0 }) : s = t := by
  have ha : s.a = t.a := hreg .a
  have hx : s.x = t.x := hreg .x
  have hy : s.y = t.y := hreg .y
  cases s
  cases t
  simp_all

theorem advance_pc_permuteState (g : Reg → Reg) (s : State) : (advance (permuteState g s)).pc = (advance s).pc :=
  advance_pc_congr rfl rfl

section

variable {f g : Reg → Reg} (hgf : ∀ r, g (f r) = r)
include hgf

/-- A renamed operand has, in the permuted state, the value that the operand had. -/
theorem operandValue_rename (o : Operand) (s : State) : operandValue (renameOperand f o) (permuteState g s) = operandValue o s := by
  cases o with
  | reg r => rw [renameOperand, operandValue, reg_permuteState, hgf]; rfl
  | imm v => rfl
  | mem b => rfl

theorem locValue_rename (l : Loc) (s : State) : locValue (renameLoc f l) (permuteState g s) = locValue l s := by
  cases l with
  | reg r => rw [renameLoc, locValue, reg_permuteState, hgf]; rfl
  | mem b => rfl

variable (hfg : ∀ r, f (g r) = r)
include hfg

/-- Writing a renamed register in the permuted state is writing the register, then permuting. -/
theorem setReg_rename (r : Reg) (v : Byte) (s : State) :
    (permuteState g s).setReg (f r) v = permuteState g (s.setReg r v) := by
  refine state_eq_of_reg (fun q => ?_) (by generalize f r = q; cases r <;> cases q <;> rfl)
  have hsame : q = f r ↔ g q = r := ⟨fun h => h ▸ hgf r, fun h => h ▸ (hfg q).symm⟩
  simp only [State.reg_setReg, reg_permuteState, hsame]

theorem locWrite_rename (l : Loc) (v : Byte) (s : State) :
    locWrite (renameLoc f l) v (permuteState g s) = permuteState g (locWrite l v s) := by
  cases l with
  | reg r => exact setReg_rename hgf hfg r v s
  | mem b => rfl

end

/-! ### The statement -/

/-- Settles O40: by the shape of the instruction, as renamed operands read the same values and renamed destinations write the
permuted registers. -/
theorem registersAreInterchangeable : Obligations.RegistersAreInterchangeable := by
  intro f g hgf hfg i s
  have hadvance := advance_pc_permuteState g s
  have hvalue (o : Operand) := operandValue_rename hgf o s
  have hsp : (permuteState g s).sp = s.sp := rfl
  obtain ⟨r, rfl⟩ := exists_eq_ofResolved i
  rw [renameInstr_ofResolved]
  cases r with
  | ds op dst src =>
    refine ⟨_, exec_ds_next op dst src s, ?_⟩
    rw [renameResolved, Instr.ofResolved, exec_ds_next, locValue_rename hgf, hvalue, locWrite_rename hgf hfg, hadvance]
    rfl
  | cmp u w =>
    refine ⟨_, exec_cmp_next u w s, ?_⟩
    rw [renameResolved, Instr.ofResolved, exec_cmp_next, hvalue, hvalue, hadvance]
    rfl
  | push src =>
    obtain ⟨hs, hes⟩ | ⟨hs, hes⟩ := exec_push_cases src s <;>
      obtain ⟨ht, het⟩ | ⟨ht, het⟩ := exec_push_cases (renameOperand f src) (permuteState g s)
    case inl.inl => exact ⟨_, hes, het⟩
    case inr.inr =>
      rw [hvalue, hadvance] at het
      exact ⟨_, hes, het⟩
    all_goals
      rw [hsp] at ht
      omega
  | pop dst =>
    obtain ⟨hs, hes⟩ | ⟨hs, hes⟩ := exec_pop_cases dst s <;>
      obtain ⟨ht, het⟩ | ⟨ht, het⟩ := exec_pop_cases (renameLoc f dst) (permuteState g s)
    case inl.inl => exact ⟨_, hes, het⟩
    case inr.inr =>
      rw [locWrite_rename hgf hfg, hadvance] at het
      exact ⟨_, hes, het⟩
    all_goals
      rw [hsp] at ht
      omega
  | jump c target =>
    refine ⟨_, exec_jump_next c target s, ?_⟩
    rw [renameResolved, Instr.ofResolved, exec_jump_next, hadvance]
    rfl
  | call b =>
    refine ⟨_, exec_call_next b s, ?_⟩
    rw [renameResolved, Instr.ofResolved, exec_call_next, hadvance]
    rfl

end Sys2Proof.Proofs
end

section
/-! PROOFS. The two front ends on one program: text and its assembled image run alike (R7, R108). -/

namespace Sys2Proof.Proofs

open Sys2Proof Sys2Proof.Machine Sys2Proof.Claims

/-! ### One record under two label tables -/

theorem ofResolved_ne_jump {r : Resolved} (hr : ∀ c t, r ≠ .jump c t) (c : Cond) (t : Word16) :
    Instr.ofResolved r ≠ .jump c t := by
  intro h
  refine hr c t ?_
  rw [← Instr.resolved_ofResolved r, h]
  exact Instr.resolved_ofResolved (.jump c t)

theorem lookupMnemonic?_mem {table : List (Token × TextOp)} {m : Token} {op : TextOp} (h : lookupMnemonic? table m = some op) :
    (m, op) ∈ table := by
  induction table with
  | nil => cases h
  | cons entry table ih =>
    obtain ⟨name, op'⟩ := entry
    simp only [lookupMnemonic?] at h
    split at h
    · rename_i hname
      cases h
      simp [hname]
    · exact List.mem_cons_of_mem _ (ih h)

/-- Each jump has one mnemonic (R106). -/
theorem eq_jumpWord_of_textOp? {m : Token} {c : Cond} (h : textOp? m = some (.jump c)) : m = jumpWord c := by
  have htable : ∀ entry ∈ mnemonicTable, entry.2 = .jump c → entry.1 = jumpWord c := by cases c <;> decide
  exact htable _ (lookupMnemonic?_mem h) rfl

/-- A record that decodes is a jump to its target, or decodes alike under every label table. -/
theorem decodeRecord_relabel {labels : LabelTable} {r : InstrRecord} {i : Instr} (h : decodeRecord labels r = .ok i)
    (labels' : LabelTable) :
    ((∀ c t, i ≠ .jump c t) ∧ decodeRecord labels' r = .ok i) ∨
      ∃ c p1 t, r = ⟨jumpWord c, p1, []⟩ ∧ i = .jump c t ∧ classifyTarget labels p1 = .ok t := by
  obtain ⟨m, p1, p2⟩ := r
  cases hop : textOp? m with
  | none => simp [decodeRecord, hop] at h
  | some op =>
    rw [decodeRecord_of_textOp? hop] at h ⊢
    cases op with
    | ds d =>
      obtain ⟨dst, src, rfl⟩ := resolveRecord_ds h
      exact .inl ⟨ofResolved_ne_jump (r := .ds d dst src) nofun, h⟩
    | cmp =>
      obtain ⟨u, w, rfl⟩ := resolveRecord_cmp h
      exact .inl ⟨ofResolved_ne_jump (r := .cmp u w) nofun, h⟩
    | push =>
      obtain ⟨src, rfl⟩ := resolveRecord_push h
      exact .inl ⟨ofResolved_ne_jump (r := .push src) nofun, h⟩
    | pop =>
      obtain ⟨dst, rfl⟩ := resolveRecord_pop h
      exact .inl ⟨ofResolved_ne_jump (r := .pop dst) nofun, h⟩
    | jump c =>
      obtain ⟨t, rfl, htarget, hsecond⟩ := resolveRecord_jump h
      obtain rfl := eq_jumpWord_of_textOp? hop
      obtain rfl : p2 = [] := by
        by_contra hne
        rw [noSecondOperand_of_ne_nil hne] at hsecond
        cases hsecond
      exact .inr ⟨c, p1, t, rfl, rfl, htarget⟩

/-! ### One label as a record index and as a byte address -/

/-- Looking a label up in a table of values made from the counts is making the value of the count that is found. -/
theorem lookupLabel?_map (table : LabelCounts) (value : Nat → Word16) (name : Token) :
    lookupLabel? (table.map fun l => (l.1, value l.2)) name = (table.find? fun l => l.1 = name).map fun l => value l.2 := by
  induction table with
  | nil => rfl
  | cons l table ih =>
    rw [List.map_cons, lookupLabel?, ih, List.find?_cons]
    by_cases hname : l.1 = name <;> simp [hname]

/-- A label that the byte labels resolve is one of the text's, and its two values are the byte address and the index of one
record. -/
theorem classifyTarget_byteLabels {records : List InstrRecord} {table : LabelCounts} {name : Token} {t : Word16}
    (hident : isIdentifier name = true) (h : classifyTarget (byteLabels records table) name = .ok t) :
    ∃ n, (name, n) ∈ table ∧ t = BitVec.ofNat 16 (min (byteAddress records n) 65535) ∧
      classifyTarget (labelTable table) name = .ok (BitVec.ofNat 16 n) := by
  obtain ⟨hregister, -⟩ := jumpTargetsAreResolved.1 (byteLabels records table) name
  have hnot : name ∉ registerNames := fun hmem => by
    rw [hregister hmem] at h
    cases h
  obtain ⟨hliteral, hstar⟩ := not_operand_of_isIdentifier hident
  have htarget (labels : LabelTable) :
      classifyTarget labels name = (lookupLabel? labels name).elim (.error .undefinedLabel) .ok := by
    rw [classifyTarget_of_not_operand labels hnot (fun lit hlit => absurd hlit (hstar lit)) hliteral, if_pos hident]
  rw [htarget, byteLabels, lookupLabel?_map table fun n => BitVec.ofNat 16 (min (byteAddress records n) 65535)] at h
  rw [htarget, labelTable, lookupLabel?_map]
  cases hfind : table.find? fun l => l.1 = name with
  | none =>
    rw [hfind] at h
    cases h
  | some l =>
    rw [hfind] at h
    cases h
    obtain rfl : l.1 = name := by simpa using List.find?_some hfind
    exact ⟨l.2, List.mem_of_find?_eq_some hfind, rfl, rfl⟩

/-! ### The image at byte addresses -/

/-- No record, nor the end, lies beyond the image. -/
theorem byteAddress_le {labels : LabelTable} {records : List InstrRecord} {image : List Byte}
    (h : assembleRecords labels records = .ok image) {n : Nat} (hn : n ≤ records.length) :
    byteAddress records n ≤ image.length := by
  cases n with
  | zero => simp [byteAddress]
  | succ k =>
    obtain ⟨i, rest, -, -, -, hnext, hfits⟩ := assembleRecords_at h (List.getElem?_eq_getElem hn)
    rwa [hnext]

/-- A binary step at a record's byte address runs that record's instruction, with PC at the next record's (R108). -/
theorem step_at_byteAddress {labels : LabelTable} {records : List InstrRecord} {image : List Byte}
    (h : assembleRecords labels records = .ok image) (hlen : image.length ≤ 65535) {b : State} (hrom : b.rom = .binary image)
    {k : Nat} {r : InstrRecord} (hr : records[k]? = some r) (hpc : b.pc.toNat = byteAddress records k) :
    ∃ i p, assembleInstr labels r = .ok i ∧ step b = exec i (b.setPc p) ∧ p.toNat = byteAddress records (k + 1) := by
  obtain ⟨i, rest, hi, hw, hbytes, hnext, hfits⟩ := assembleRecords_at h hr
  have hdecode : decode (image.drop b.pc.toNat) = .instr i (encode i).length := by
    rw [hpc, hbytes, decodeInvertsEncode i rest hw]
  refine ⟨i, _, hi, step_of_decode hrom hlen hdecode, ?_⟩
  rw [BitVec.toNat_add, BitVec.toNat_ofNat, Nat.add_mod_mod, hpc, hnext, Nat.mod_eq_of_lt (by omega)]

/-! ### States at one point -/

/-- States at one point of a program have the same data. -/
theorem dataOf_eq_of_samePoint {records : List InstrRecord} {table : LabelCounts} {image : List Byte} {s b : State}
    (h : SamePoint records table image s b) : dataOf s = dataOf b := by
  obtain ⟨ha, hx, hy⟩ := h.registers
  obtain ⟨hsp, hstk⟩ := h.stack
  obtain ⟨hram, hvideo⟩ := h.memory
  simp only [dataOf, ha, hx, hy, h.status, hsp, hstk, hram, hvideo]

/-- States with the same data, each in its program, at a record's index and at its byte address, are at one point. -/
theorem samePoint_of_dataOf_eq {records : List InstrRecord} {table : LabelCounts} {image : List Byte} {s b : State}
    (hdata : dataOf s = dataOf b) (hs : s.rom = .textual records ∧ s.labels = labelTable table) (hb : b.rom = .binary image)
    {n : Nat} (hn : n ≤ records.length) (hspc : s.pc.toNat = n) (hbpc : b.pc.toNat = byteAddress records n) :
    SamePoint records table image s b where
  textual := hs.1
  labels := hs.2
  binary := hb
  inside := hspc.trans_le hn
  pc := by rw [hbpc, hspc]
  registers := ⟨(congrArg State.a hdata.symm :), (congrArg State.x hdata.symm :), (congrArg State.y hdata.symm :)⟩
  status := (congrArg State.p hdata.symm :)
  stack := ⟨(congrArg State.sp hdata.symm :), (congrArg State.stk hdata.symm :)⟩
  memory := ⟨(congrArg State.ram hdata.symm :), (congrArg State.video hdata.symm :)⟩

/-- How the two front ends' steps go on together: at one point again, or with one error. -/
abbrev RunAlike (records : List InstrRecord) (table : LabelCounts) (image : List Byte) (s' b' : State) : Prop :=
  (ReturnedOk s' ∧ ReturnedOk b' ∧ SamePoint records table image s' b') ∨ ∃ e, s'.stepResult = .err e ∧ b'.stepResult = .err e

section

variable {records : List InstrRecord} {table : LabelCounts} {image : List Byte} {s b : State}
  (h : SamePoint records table image s b) (hinside : s.pc.toNat < records.length) (hlen : records.length ≤ 65535)
  {p : Word16} (hp : p.toNat = byteAddress records (s.pc.toNat + 1))
include h hinside hlen hp

/-- Two states with the data of one point and PC advanced are at the next record. -/
theorem samePoint_advanced {s' b' : State} (hdata : dataOf s' = dataOf b') (hs : SameProgram s s') (hb : SameProgram b b')
    (hspc : s'.pc = pcAdvanced s) (hbpc : b'.pc = pcAdvanced (b.setPc p)) : SamePoint records table image s' b' := by
  rw [pcAdvanced, h.textual] at hspc
  rw [pcAdvanced, State.setPc_rom, h.binary] at hbpc
  refine samePoint_of_dataOf_eq hdata ⟨hs.1.trans h.textual, hs.2.1.trans h.labels⟩ (hb.1.trans h.binary) hinside ?_ ?_
  · rw [hspc]
    exact toNat_succ_pc (by omega)
  · rw [hbpc]
    exact hp

/-- One instruction that is no jump, run at one point of both front ends (R7). -/
theorem exec_runAlike {i : Instr} (hi : ∀ c t, i ≠ .jump c t) :
    ∃ s' b', exec i s = .next s' ∧ exec i (b.setPc p) = .next b' ∧ RunAlike records table image s' b' := by
  have hdata : dataOf s = dataOf (b.setPc p) := (dataOf_eq_of_samePoint h :)
  obtain ⟨s', b', hs', hb', hdata', hend⟩ := exec_congr dataCongruence_eq i hdata
  refine ⟨s', b', hs', hb', ?_⟩
  obtain ⟨hsok, hbok, ⟨hspc, hbpc⟩ | ⟨-, c, hjump⟩⟩ | ⟨e, hserr, hberr, -⟩ := hend
  · rw [← pcAdvanced_eq_advance_pc] at hspc hbpc
    exact .inl ⟨hsok, hbok, samePoint_advanced h hinside hlen hp hdata' (exec_frame hs').1 (exec_frame hb').1 hspc hbpc⟩
  · exact absurd hjump (hi c _)
  · exact .inr ⟨e, hserr, hberr⟩

/-- One jump to record `n`, as an index and as a byte address, run at one point of both front ends. -/
theorem exec_jump_runAlike (c : Cond) {t t' : Word16} {n : Nat} (hn : n ≤ records.length) (ht : t.toNat = n)
    (ht' : t'.toNat = byteAddress records n) :
    ∃ s' b', exec (.jump c t) s = .next s' ∧ exec (.jump c t') (b.setPc p) = .next b' ∧ RunAlike records table image s' b' := by
  have hdata := dataOf_eq_of_samePoint h
  have hstatus : (b.setPc p).p = s.p := h.status
  by_cases htaken : Taken c s.p
  · exact ⟨_, _, exec_jump_taken htaken t, exec_jump_taken (hstatus ▸ htaken) t', .inl ⟨rfl, rfl,
      samePoint_of_dataOf_eq hdata ⟨h.textual, h.labels⟩ h.binary hn ht ht'⟩⟩
  · exact ⟨_, _, exec_jump_not_taken htaken t, exec_jump_not_taken (hstatus ▸ htaken) t', .inl ⟨rfl, rfl,
      samePoint_advanced h hinside hlen hp hdata ⟨rfl, rfl, rfl⟩ ⟨rfl, rfl, rfl⟩ rfl rfl⟩⟩

end

/-! ### The statement -/

/-- The two loads start at record 0, which is byte 0. -/
theorem samePoint_loaded (records : List InstrRecord) (table : LabelCounts) (image : List Byte) :
    SamePoint records table image { State.reset with rom := .textual records, labels := labelTable table }
      { State.reset with rom := .binary image } :=
  samePoint_of_dataOf_eq rfl ⟨rfl, rfl⟩ rfl (Nat.zero_le _) rfl (by simp [byteAddress, State.reset])

/-- Settles O60: the record at PC and the bytes at its address are one instruction, or jumps of one condition to one record. -/
theorem frontEndsRunAlike : Obligations.FrontEndsRunAlike := by
  intro lines records table image hprepass hassemble hlen himage hrecords
  simp only [assemble, hprepass] at hassemble
  refine ⟨fun s0 => ⟨_, _, ?text, ?image, samePoint_loaded records table image⟩, fun s b h hinside => ?step⟩
  case text => rw [loadProgram_textual_eq hprepass, if_neg hlen.not_gt]
  case image => rw [loadProgram_binary_eq, if_neg himage.not_gt]
  case step =>
    obtain ⟨r, hr⟩ : ∃ r, records[s.pc.toNat]? = some r := ⟨_, List.getElem?_eq_getElem hinside⟩
    obtain ⟨hjumps, hcall⟩ := hrecords r (List.mem_of_getElem? hr)
    obtain ⟨i, p, hi, hbstep, hp⟩ := step_at_byteAddress hassemble himage h.binary hr h.pc
    have hdecode : decodeRecord (byteLabels records table) r = .ok i := (if_neg hcall).symm.trans hi
    have htextual {j : Instr} (hj : decodeRecord (labelTable table) r = .ok j) : step s = exec j s :=
      stepRunsDecodedRecord s records r j h.textual hr (by rwa [h.labels])
    obtain ⟨hnojump, hsame⟩ | ⟨c, name, t, rfl, rfl, htarget⟩ := decodeRecord_relabel hdecode (labelTable table)
    · rw [htextual hsame, hbstep]
      exact exec_runAlike h hinside hlen hp hnojump
    · obtain ⟨n, hmem, rfl, hindex⟩ := classifyTarget_byteLabels (hjumps c rfl) htarget
      have hn : n ≤ records.length := prepass_bound hprepass _ hmem
      have haddress := byteAddress_le hassemble hn
      rw [htextual (by rw [decodeRecord_jump, hindex]; rfl), hbstep]
      refine exec_jump_runAlike h hinside hlen hp c hn ?_ ?_
      · rw [BitVec.toNat_ofNat, Nat.mod_eq_of_lt (by omega)]
      · rw [BitVec.toNat_ofNat, Nat.min_eq_left (by omega), Nat.mod_eq_of_lt (by omega)]

end Sys2Proof.Proofs
end
